-- ==== Sys2Proof/Word.lean ====
section
/-! DEFINITION. The word types of HUFFCORE, one abbreviation for each width the spec fixes (`00_scope.md` R6, R7, R8).
Every stored value is an unsigned number of the stated width; bit 0 is the least significant bit. -/

namespace Sys2Proof

/-- A word of the register port, DATA_BITS = 32 (R6, R50); also a Frequency Table entry and a bit count. -/
abbrev Word := BitVec 32

/-- A byte: a source byte, a payload byte, or ERRINFO. -/
abbrev Byte := BitVec 8

/-- A symbol of the fixed alphabet: a byte value 0 to 255 (R6, R11). -/
abbrev Symbol := BitVec 8

/-- A word address of the register port, ADDR_BITS = 13 (R6, R50). -/
abbrev Addr := BitVec 13

/-- The transaction tuple `(RW, ADDR, DATA)` laid out as one number of 46 bits (R70, R84). -/
abbrev TxnWord := BitVec 46

/-- The weight of a tree node, WEIGHT_BITS = 40 (R6, R22). -/
abbrev Weight := BitVec 40

/-- The index of an arena entry, IDX_BITS = 9 (R6, R22). -/
abbrev NodeIdx := BitVec 9

/-- The stored bit vector of one code, CODE_BITS_W = 256 (R6, R27). -/
abbrev CodeBits := BitVec 256

/-- A binary digit (R9): `false` is 0, `true` is 1. -/
abbrev Digit := Bool

end Sys2Proof
end

