-- ==== Sys2Proof/Config.lean ====
section
/-! DEFINITION. The parameters of HUFFCORE (`00_scope.md` R6). All are constants of the block. The spec leaves no value of
the block open (R14, R48), so there is no free value here. -/

namespace Sys2Proof

/-- NSYM: the number of symbols. -/
abbrev Config.nsym : Nat := 256

/-- FREQ_MAX: the largest legal Frequency Table entry, 2^31 - 1. -/
abbrev Config.freqMax : Nat := 0x7FFFFFFF

/-- BITCNT_MAX: the largest legal bit count, 2^31 - 1. -/
abbrev Config.bitcntMax : Nat := 0x7FFFFFFF

/-- NNODE_MAX: the size of the node arena, 2 * NSYM - 1. -/
abbrev Config.nnodeMax : Nat := 511

/-- CODE_LEN_MAX: the longest possible code, NSYM - 1 digits (R116). -/
abbrev Config.codeLenMax : Nat := 255

/-- NONE: the node index that means "no node" (R6, R11). -/
abbrev Config.none : NodeIdx := 0x1FF#9

end Sys2Proof
end

