-- ==== Sys2Proof/Syntax.lean ====
section
/-! DEFINITION. The instructions of HUFFCORE: the sixteen transaction kinds of `30_encoding.md` R71, which are the rows of
`opcode_table.json`, one constructor each. -/

namespace Sys2Proof

/-- A transaction kind with its operands. The operands of PUSHP and PUSHU are the whole DATA word: that bits 31:8 are
ignored is part of what the instruction does (R42, R43, R76). -/
inductive Instr where
  /-- write CMD, DATA = 0x00000001 -/
  | build
  /-- write CMD, DATA = 0x00000002 -/
  | derive
  /-- write CMD, DATA = 0x00000003 -/
  | packBegin
  /-- write CMD, DATA = 0x00000004 -/
  | packEnd
  /-- write CMD, DATA = 0x00000005 -/
  | unpackBegin
  /-- write CMD, DATA = 0x00000006 -/
  | clr
  /-- write PIN (0x0005) -/
  | pushp (data : Word)
  /-- write UIN (0x0006) -/
  | pushu (data : Word)
  /-- write UBITCNT (0x0003) -/
  | wrubc (count : Word)
  /-- write 0x0100 + sym -/
  | wrfreq (sym : Symbol) (count : Word)
  /-- read 0x0100 + sym -/
  | rdfreq (sym : Symbol)
  /-- read STATUS (0x0001) -/
  | rdstatus
  /-- read PBITCNT (0x0002) -/
  | rdpbc
  /-- read UBITCNT (0x0003) -/
  | rdubc
  /-- read UREM (0x0004) -/
  | rdurem
  /-- read 0x1000 + 16*sym + w -/
  | rdcode (sym : Symbol) (w : BitVec 4)
  deriving DecidableEq, Repr

end Sys2Proof
end

