-- ==== Sys2Proof/WellFormed.lean ====
section
/-! DEFINITION. Well-formedness. An instruction's operands have exactly the widths of their fields, so each term of `Instr`
is a transaction the port can carry (`20_memory.md` R50: every transaction with a 13-bit address completes). What can be
ill-formed is a number offered as a transaction tuple (`30_encoding.md` R70, R84). -/

namespace Sys2Proof

/-- Every instruction is well-formed: no field value is reserved, the CODE window's words 9 to 15 included, which read
as 0 (R46). One line per constructor, so that a new one cannot slip past. -/
def Instr.wellFormed : Instr → Bool
  | .build => true
  | .derive => true
  | .packBegin => true
  | .packEnd => true
  | .unpackBegin => true
  | .clr => true
  | .pushp _ => true
  | .pushu _ => true
  | .wrubc _ => true
  | .wrfreq _ _ => true
  | .rdfreq _ => true
  | .rdstatus => true
  | .rdpbc => true
  | .rdubc => true
  | .rdurem => true
  | .rdcode _ _ => true

/-- A number is a canonical transaction tuple: it fits 46 bits, and a read carries no DATA (R70: "a read has no DATA
field"; `95_test_vectors.md` writes DATA "zero for a read"). -/
def tupleWellFormed (w : Nat) : Bool :=
  decide (w < 2 ^ 46) && (w.testBit 45 || decide (w % 2 ^ 32 = 0))

end Sys2Proof
end

