-- ==== Sys2Proof/Decode.lean ====
section
/-! DEFINITION. Transactions, their 46-bit tuples, the decoder and the encoder (`30_encoding.md` R70 to R76, R84;
`10_state.md` R36). Decoding is total: a transaction that is no row of the opcode table is rejected by name, and
`Machine/Ops.lean` gives each of the three rejections the effect the spec gives it. -/

namespace Sys2Proof

/-- A transaction on the register port (R50, R70): a read of a word address, or a write of a 32-bit word to one. -/
inductive Txn where
  | read (addr : Addr)
  | write (addr : Addr) (data : Word)
  deriving DecidableEq, Repr

/-- Why a transaction is no row of the opcode table (R71, last paragraph). -/
inductive Reject where
  /-- a read of a reserved address or of a write-only register: the no-operation that returns 0 (R57, R188) -/
  | noOperationRead
  /-- a write to a reserved address or to a read-only register: the no-operation that is ignored (R57, R188) -/
  | noOperationWrite
  /-- a write to CMD whose DATA is none of the six command words (R75); `info` is DATA[7:0] -/
  | illegalCommand (info : Byte)
  deriving DecidableEq, Repr

/-! ## The tuple (R70, R84): RW in bit 45, ADDR in bits 44:32, DATA in bits 31:0 -/

/-- RW, bit 45 of the tuple: 0 = read, 1 = write. -/
def TxnWord.rw (w : TxnWord) : Bool := w.getLsbD 45

/-- ADDR, bits 44:32 of the tuple. -/
def TxnWord.addr (w : TxnWord) : Addr := w.extractLsb' 32 13

/-- DATA, bits 31:0 of the tuple. -/
def TxnWord.data (w : TxnWord) : Word := w.extractLsb' 0 32

/-- The transaction a tuple stands for; the DATA bits of a read are masked out (R84). -/
def Txn.ofBits (w : TxnWord) : Txn :=
  if TxnWord.rw w then .write (TxnWord.addr w) (TxnWord.data w) else .read (TxnWord.addr w)

/-- The tuple of a transaction, DATA zero for a read. -/
def Txn.toBits : Txn → TxnWord
  | .read a => 0#1 ++ a ++ 0#32
  | .write a v => 1#1 ++ a ++ v

/-! ## The register map's addresses (R36) -/

/-- CMD, write-only. -/
abbrev addrCmd : Addr := 0x0000#13
/-- STATUS, read-only. -/
abbrev addrStatus : Addr := 0x0001#13
/-- PBITCNT, read-only. -/
abbrev addrPbitcnt : Addr := 0x0002#13
/-- UBITCNT, read-write. -/
abbrev addrUbitcnt : Addr := 0x0003#13
/-- UREM, read-only. -/
abbrev addrUrem : Addr := 0x0004#13
/-- PIN, write-only. -/
abbrev addrPin : Addr := 0x0005#13
/-- UIN, write-only. -/
abbrev addrUin : Addr := 0x0006#13

/-- The FREQ window, `a[12:8] = 0b00001` (R180). -/
def inFreqWindow (a : Addr) : Bool := a.extractLsb' 8 5 == 0b00001#5

/-- The symbol of a FREQ window address, `s = a[7:0]` (R180). -/
def freqWindowSym (a : Addr) : Symbol := a.extractLsb' 0 8

/-- The CODE window, `a[12] = 1` (R180). -/
def inCodeWindow (a : Addr) : Bool := a.extractLsb' 12 1 == 1#1

/-- The symbol of a CODE window address, `s = a[11:4]` (R46, R180). -/
def codeWindowSym (a : Addr) : Symbol := a.extractLsb' 4 8

/-- The word of a CODE window address, `w = a[3:0]` (R46, R180). -/
def codeWindowWord (a : Addr) : BitVec 4 := a.extractLsb' 0 4

/-- The address of FREQ[s], 0x0100 + s (R45). -/
def freqAddr (s : Symbol) : Addr := 0b00001#5 ++ s

/-- The address 0x1000 + 16*s + w of word w of CODE[s] (R46). -/
def codeAddr (s : Symbol) (w : BitVec 4) : Addr := 1#1 ++ s ++ w

/-! ## The decoder -/

/-- A command word (R72, R73): one of six whole words; every other one is illegal (R75). -/
def decodeCommand (v : Word) : Except Reject Instr :=
  if v = 0x00000001#32 then .ok .build
  else if v = 0x00000002#32 then .ok .derive
  else if v = 0x00000003#32 then .ok .packBegin
  else if v = 0x00000004#32 then .ok .packEnd
  else if v = 0x00000005#32 then .ok .unpackBegin
  else if v = 0x00000006#32 then .ok .clr
  else .error (.illegalCommand (v.extractLsb' 0 8))

/-- A write: ADDR first, then DATA as a command word for CMD only (R70). -/
def decodeWrite (a : Addr) (v : Word) : Except Reject Instr :=
  if a = addrCmd then decodeCommand v
  else if a = addrUbitcnt then .ok (.wrubc v)
  else if a = addrPin then .ok (.pushp v)
  else if a = addrUin then .ok (.pushu v)
  else if inFreqWindow a then .ok (.wrfreq (freqWindowSym a) v)
  else .error .noOperationWrite

/-- A read (R71). -/
def decodeRead (a : Addr) : Except Reject Instr :=
  if a = addrStatus then .ok .rdstatus
  else if a = addrPbitcnt then .ok .rdpbc
  else if a = addrUbitcnt then .ok .rdubc
  else if a = addrUrem then .ok .rdurem
  else if inFreqWindow a then .ok (.rdfreq (freqWindowSym a))
  else if inCodeWindow a then .ok (.rdcode (codeWindowSym a) (codeWindowWord a))
  else .error .noOperationRead

/-- The decoder, total on transactions. -/
def decode : Txn → Except Reject Instr
  | .read a => decodeRead a
  | .write a v => decodeWrite a v

/-- The decoder on a 46-bit tuple. -/
def decodeBits (w : TxnWord) : Except Reject Instr := decode (Txn.ofBits w)

/-- The host's entry: the low `nbits` bits of `w`, every bit above them 0, read as the transaction tuple of R84. A number
that needs more than 46 bits is no tuple. -/
def decodeTableWord (nbits w : Nat) : Option Instr :=
  let v := w % 2 ^ nbits
  if v < 2 ^ 46 then
    match decodeBits (BitVec.ofNat 46 v) with
    | .ok i => some i
    | .error _ => none
  else none

/-! ## The encoder -/

/-- The transaction of an instruction (R71, R73). -/
def encode : Instr → Txn
  | .build => .write addrCmd 0x00000001#32
  | .derive => .write addrCmd 0x00000002#32
  | .packBegin => .write addrCmd 0x00000003#32
  | .packEnd => .write addrCmd 0x00000004#32
  | .unpackBegin => .write addrCmd 0x00000005#32
  | .clr => .write addrCmd 0x00000006#32
  | .pushp v => .write addrPin v
  | .pushu v => .write addrUin v
  | .wrubc v => .write addrUbitcnt v
  | .wrfreq s v => .write (freqAddr s) v
  | .rdfreq s => .read (freqAddr s)
  | .rdstatus => .read addrStatus
  | .rdpbc => .read addrPbitcnt
  | .rdubc => .read addrUbitcnt
  | .rdurem => .read addrUrem
  | .rdcode s w => .read (codeAddr s w)

/-- The 46-bit tuple of an instruction. -/
def encodeBits (i : Instr) : TxnWord := (encode i).toBits

/-! ## The opcode table as data (`opcode_table.json`, conventions R84) -/

/-- One row of the table: the bits `mask` selects must be `pattern`. -/
structure TableRow where
  mnemonic : String
  mask : TxnWord
  pattern : TxnWord
  deriving DecidableEq, Repr

/-- A tuple matches a row. -/
def TableRow.matches (r : TableRow) (w : TxnWord) : Bool := (w &&& r.mask) == r.pattern

/-- The row of an instruction, written from `opcode_table.json`. -/
def Instr.row : Instr → TableRow
  | .build => ⟨"BUILD", 0x3FFFFFFFFFFF#46, 0x200000000001#46⟩
  | .derive => ⟨"DERIVE", 0x3FFFFFFFFFFF#46, 0x200000000002#46⟩
  | .packBegin => ⟨"PACK_BEGIN", 0x3FFFFFFFFFFF#46, 0x200000000003#46⟩
  | .packEnd => ⟨"PACK_END", 0x3FFFFFFFFFFF#46, 0x200000000004#46⟩
  | .unpackBegin => ⟨"UNPACK_BEGIN", 0x3FFFFFFFFFFF#46, 0x200000000005#46⟩
  | .clr => ⟨"CLR", 0x3FFFFFFFFFFF#46, 0x200000000006#46⟩
  | .pushp _ => ⟨"PUSHP", 0x3FFF00000000#46, 0x200500000000#46⟩
  | .pushu _ => ⟨"PUSHU", 0x3FFF00000000#46, 0x200600000000#46⟩
  | .wrubc _ => ⟨"WRUBC", 0x3FFF00000000#46, 0x200300000000#46⟩
  | .wrfreq _ _ => ⟨"WRFREQ", 0x3F0000000000#46, 0x210000000000#46⟩
  | .rdfreq _ => ⟨"RDFREQ", 0x3F0000000000#46, 0x010000000000#46⟩
  | .rdstatus => ⟨"RDSTATUS", 0x3FFF00000000#46, 0x000100000000#46⟩
  | .rdpbc => ⟨"RDPBC", 0x3FFF00000000#46, 0x000200000000#46⟩
  | .rdubc => ⟨"RDUBC", 0x3FFF00000000#46, 0x000300000000#46⟩
  | .rdurem => ⟨"RDUREM", 0x3FFF00000000#46, 0x000400000000#46⟩
  | .rdcode _ _ => ⟨"RDCODE", 0x300000000000#46, 0x100000000000#46⟩

/-- The sixteen rows, in the table's order. -/
def opcodeTable : List TableRow :=
  [Instr.build.row, Instr.derive.row, Instr.packBegin.row, Instr.packEnd.row, Instr.unpackBegin.row, Instr.clr.row,
   (Instr.pushp 0).row, (Instr.pushu 0).row, (Instr.wrubc 0).row, (Instr.wrfreq 0 0).row, (Instr.rdfreq 0).row,
   Instr.rdstatus.row, Instr.rdpbc.row, Instr.rdubc.row, Instr.rdurem.row, (Instr.rdcode 0 0).row]

end Sys2Proof
end

