-- ==== Sys2Proof/Machine/State.lean ====
section
/-! DEFINITION. The state of HUFFCORE (`10_state.md`), the ports the host and the sink stand at, the reasons a step can
stop, and the state after reset (R48). -/

namespace Sys2Proof.Machine

/-- KIND of an arena entry (R22): 0 = Leaf, 1 = Internal. -/
inductive NodeKind where
  | leaf
  | internal
  deriving DecidableEq, Repr

/-- One entry of the node arena, with the fields of R22. -/
structure Node where
  kind : NodeKind
  /-- the symbol of a Leaf; 0 in an Internal node -/
  sym : Symbol
  weight : Weight
  /-- the left child, or NONE -/
  left : NodeIdx
  /-- the right child, or NONE -/
  right : NodeIdx
  deriving DecidableEq, Repr

/-- What an arena entry that is not in use holds. DESIGN CHOICE (log entry 5), safe: "the content of entries not in use is
never read by any rule and a model may leave it out" (R22). -/
def Node.unused : Node := ⟨.leaf, 0, 0, Config.none, Config.none⟩

/-- One entry of the Code Table (R27, R28): digit `i` of the code is bit `i` of `bits`; `len = 0` means "no code". -/
structure CodeEntry where
  len : BitVec 8
  bits : CodeBits
  deriving DecidableEq, Repr

/-- The entry of a symbol without a code (R28, R119). -/
def CodeEntry.noCode : CodeEntry := ⟨0, 0⟩

/-- MODE (R34); the value 3 never occurs. -/
inductive Mode where
  | idle
  | pack
  | unpack
  deriving DecidableEq, Repr

/-- ERR (R35, R196); the values 7 to 15 never occur. -/
inductive ErrCode where
  | none
  | illegalCmd
  | badSeq
  | badFreq
  | noCode
  | countOvf
  | badCount
  deriving DecidableEq, Repr

/-- What can arrive at the block from outside: a transaction on the register port (R50), or one assertion and release of
the reset input (R220). -/
inductive Event where
  | txn (t : Txn)
  | reset
  deriving DecidableEq, Repr

/-- The Frequency Table (R21). -/
abbrev FreqTable := Vector Word 256

/-- The node arena (R22). -/
abbrev Arena := Vector Node 511

/-- The Code Table (R27). -/
abbrev CodeTable := Vector CodeEntry 256

/-- Every state element of the block, in the order of R48. -/
structure Block where
  /-- FREQ[0..255] (R21) -/
  freq : FreqTable
  /-- NODE[0..510] (R22); entries from NNODE on hold `Node.unused` -/
  node : Arena
  /-- NNODE, the number of arena entries in use (R24) -/
  nnode : BitVec 10
  /-- ROOT, the index of the root or NONE (R24) -/
  root : NodeIdx
  /-- TREE_VALID (R25) -/
  treeValid : Bool
  /-- EMPTY (R26) -/
  empty : Bool
  /-- SINGLE (R26) -/
  single : Bool
  /-- CODE[0..255] (R27) -/
  code : CodeTable
  /-- CODE_VALID (R29) -/
  codeValid : Bool
  /-- ACC, the Packer's bit buffer (R30) -/
  acc : BitVec 8
  /-- ACC_N, the digits held in ACC (R30) -/
  accN : BitVec 3
  /-- PBITCNT (R31) -/
  pbitcnt : Word
  /-- UBITCNT (R32) -/
  ubitcnt : Word
  /-- UREM (R32) -/
  urem : Word
  /-- MODE (R34) -/
  mode : Mode
  /-- ERR (R35) -/
  err : ErrCode
  /-- ERRINFO (R35) -/
  errinfo : BitVec 8
  deriving DecidableEq, Repr

/-- The block after reset and after CLR (R48). Nothing is left unspecified but the content of arena entries not in use. -/
def Block.reset : Block where
  freq := Vector.replicate 256 0
  node := Vector.replicate 511 Node.unused
  nnode := 0
  root := Config.none
  treeValid := false
  empty := false
  single := false
  code := Vector.replicate 256 CodeEntry.noCode
  codeValid := false
  acc := 0
  accN := 0
  pbitcnt := 0
  ubitcnt := 0
  urem := 0
  mode := .idle
  err := .none
  errinfo := 0

/-- The block together with its ports. `pending` is what the host still has to offer, oldest first (R12, R53; DESIGN
CHOICE, log entry 1). `pout` and `uout` are the histories of the two output streams (R62), `rdata` the words reads have
returned (R50; DESIGN CHOICE, log entry 2), each oldest first. The block never reads the three histories. -/
structure State extends Block where
  /-- what the host offers next, oldest first -/
  pending : List Event
  /-- the words returned by reads so far -/
  rdata : List Word
  /-- the POUT history: payload bytes -/
  pout : List Byte
  /-- the UOUT history: digits -/
  uout : List Digit
  deriving DecidableEq, Repr

/-- The machine right after reset (R48, R220), with nothing offered and nothing yet sent. -/
def State.reset : State where
  toBlock := Block.reset
  pending := []
  rdata := []
  pout := []
  uout := []

/-- Reasons the machine stops with a fault: NONE. A fault of the spec is the sticky code ERR, a next state (R200), and
every transaction completes (R50, R53). Safe: an empty type lets no step stop. -/
inductive Fault where
  deriving DecidableEq, Repr

/-- Reasons an instruction is refused. -/
inductive Refusal where
  /-- Raised by an arm of `exec` whose instruction has no meaning yet; safe, it stops the run. No arm raises it now. -/
  | notModelled (mnemonic : String)
  deriving DecidableEq, Repr

/-- What a step answers. -/
abbrev Result := Host.Outcome State Fault Refusal

end Sys2Proof.Machine
end

