-- ==== Sys2Proof/Machine/Flags.lean ====
section
/-! DEFINITION. The STATUS word and the numbers of MODE and ERR (R34, R37, R185, R196). -/

namespace Sys2Proof.Machine

/-- The number of MODE (R34). -/
def modeBits : Mode → BitVec 2
  | .idle => 0
  | .pack => 1
  | .unpack => 2

/-- The number of ERR (R196). -/
def errBits : ErrCode → BitVec 4
  | .none => 0
  | .illegalCmd => 1
  | .badSeq => 2
  | .badFreq => 3
  | .noCode => 4
  | .countOvf => 5
  | .badCount => 6

/-- A flag as a number. -/
def flagBit (b : Bool) : BitVec 1 := BitVec.ofBool b

/-- STATUS as read (R185): each field zero-extended and shifted to its place, all other bits 0. -/
def statusWord (b : Block) : Word :=
  (flagBit b.treeValid).setWidth 32
    ||| (flagBit b.codeValid).setWidth 32 <<< 1
    ||| (modeBits b.mode).setWidth 32 <<< 2
    ||| (flagBit b.empty).setWidth 32 <<< 4
    ||| (flagBit b.single).setWidth 32 <<< 5
    ||| (errBits b.err).setWidth 32 <<< 8
    ||| b.errinfo.setWidth 32 <<< 16

end Sys2Proof.Machine
end

