-- ==== Sys2Proof/Machine/Operands.lean ====
section
/-! DEFINITION. Operand forms and register reads: the byte of PIN and UIN, the entries of the three arrays, the words of the
CODE window, and the word each address of the register port reads as (R36 to R46, R76, R180, R181). -/

namespace Sys2Proof.Machine

/-- The byte a write to PIN or UIN carries: DATA[7:0], DATA[31:8] ignored (R42, R43, R76). -/
def dataByte (data : Word) : Byte := data.extractLsb' 0 8

/-- FREQ[s] (R21). -/
def freqAt (f : FreqTable) (s : Symbol) : Word := f[s.toNat]'(s.isLt)

/-- CODE[s] (R27). -/
def codeAt (t : CodeTable) (s : Symbol) : CodeEntry := t[s.toNat]'(s.isLt)

/-- FREQ[s] <- v. -/
def setFreqAt (f : FreqTable) (s : Symbol) (v : Word) : FreqTable := f.set s.toNat v s.isLt

/-- CODE[s] <- e. -/
def setCodeAt (t : CodeTable) (s : Symbol) (e : CodeEntry) : CodeTable := t.set s.toNat e s.isLt

/-- NODE[i]; the arena has no entry NONE (R51). -/
def nodeAt (a : Arena) (i : NodeIdx) : Option Node := a[i.toNat]?

/-- Word `w` of a Code Table entry in the CODE window (R46): LEN, then the eight words of BITS low word first, then 0. -/
def codeEntryWord (e : CodeEntry) (w : BitVec 4) : Word :=
  if w = 0 then e.len.setWidth 32
  else if w.toNat ≤ 8 then e.bits.extractLsb' (32 * (w.toNat - 1)) 32
  else 0

/-- The word a read of address `a` returns: the register map of R36, reserved and write-only addresses reading 0 (R57). -/
def portRead (b : Block) (a : Addr) : Word :=
  if a = addrStatus then statusWord b
  else if a = addrPbitcnt then b.pbitcnt
  else if a = addrUbitcnt then b.ubitcnt
  else if a = addrUrem then b.urem
  else if inFreqWindow a then freqAt b.freq (freqWindowSym a)
  else if inCodeWindow a then codeEntryWord (codeAt b.code (codeWindowSym a)) (codeWindowWord a)
  else 0

/-- All symbols in ascending order. -/
def allSymbols : List Symbol := (List.range 256).map (BitVec.ofNat 8)

/-- The digits of a Code Table entry, digit 0 first (R28). -/
def CodeEntry.digits (e : CodeEntry) : List Digit := (List.range e.len.toNat).map e.bits.getLsbD

/-- The sum over `i` of `ds[i] * 2^i`: the number whose bit `i` is digit `i` (R28, R59, R119). -/
def digitsValue : List Digit → Nat
  | [] => 0
  | d :: ds => d.toNat + 2 * digitsValue ds

/-- The packed form `(LEN, BITS)` of a digit sequence (R9, R119). -/
def CodeEntry.ofDigits (ds : List Digit) : CodeEntry :=
  ⟨BitVec.ofNat 8 ds.length, BitVec.ofNat 256 (digitsValue ds)⟩

/-- A word is a legal count: non-negative as a signed 32-bit number (R8, R21). -/
def legalCount (v : Word) : Bool := v.toNat ≤ Config.freqMax

end Sys2Proof.Machine
end

