-- ==== Sys2Proof/Machine/Ops.lean ====
section
/-! DEFINITION. The shared operations: taking a fault and clearing it, answering a read, emitting beats, and the effect of
the three kinds of transaction that are no row of the opcode table. -/

namespace Sys2Proof.Machine

/-- `raise Fault(code, info)` (R200): ERR and ERRINFO take their values and nothing else changes. Used only with ERR = 0. -/
def raiseFault (code : ErrCode) (info : Byte) (s : State) : State :=
  { s with err := code, errinfo := info }

/-- The return from the faulted state, CLR and reset alike (R189, R203, R222): every element of the block takes its reset
value; what the sink and the host have received stays (R223). -/
def clearBlock (s : State) : State := { s with toBlock := Block.reset }

/-- Quiescence (R201): a write other than CLR is performed only when ERR = 0, and otherwise changes nothing. -/
def whenUnfaulted (s : State) (r : Result) : Result := if s.err = .none then r else .next s

/-- A read returns `v` and changes no state of the block (R55). -/
def respond (v : Word) (s : State) : State := { s with rdata := s.rdata ++ [v] }

/-- `emit POUT(y)` for each `y` in order (R62). -/
def emitPout (ys : List Byte) (s : State) : State := { s with pout := s.pout ++ ys }

/-- `emit UOUT(d)` for each `d` in order (R62). -/
def emitUout (ds : List Digit) (s : State) : State := { s with uout := s.uout ++ ds }

/-- The effect of a transaction that is no row of the table: a read returns 0, a write is ignored (R57, R188), and an
illegal command word raises ILLEGAL_CMD when ERR = 0 (R75). -/
def performReject : Reject → State → Result
  | .noOperationRead, s => .next (respond 0 s)
  | .noOperationWrite, s => .next s
  | .illegalCommand info, s => whenUnfaulted s (.next (raiseFault .illegalCmd info s))

/-- The reset input (R220, R223). -/
def performReset (s : State) : State := clearBlock s

end Sys2Proof.Machine
end

