-- ==== Sys2Proof/Machine/TreeBuilder.lean ====
section
/-! DEFINITION. The Tree Builder: the pure function `build` and the command BUILD (`40_tree_builder.md`). -/

namespace Sys2Proof.Machine

/-- A tree as `build` returns it (R90): the arena entries in use, index 0 first, and ROOT. NNODE is their number. -/
structure HuffTree where
  nodes : List Node
  root : NodeIdx
  deriving DecidableEq, Repr

/-- A Leaf (R91). -/
def Node.mkLeaf (s : Symbol) (w : Weight) : Node := ⟨.leaf, s, w, Config.none, Config.none⟩

/-- An Internal node (R93). -/
def Node.mkInternal (w : Weight) (l r : NodeIdx) : Node := ⟨.internal, 0, w, l, r⟩

/-- `S`, the symbols with a non-zero count in ascending order (R91). -/
def presentSymbols (f : FreqTable) : List Symbol := allSymbols.filter fun s => freqAt f s ≠ 0

/-- The leaves, in ascending symbol order (R91). -/
def leaves (f : FreqTable) : List Node :=
  (presentSymbols f).map fun s => Node.mkLeaf s ((freqAt f s).setWidth 40)

/-- NODE[i].WEIGHT as a number (R98: comparison is unsigned); 0 for an index not in use, which the loop of R93 never asks for
(log entry 22). -/
def weightAt (nodes : List Node) (i : Nat) : Nat :=
  match nodes[i]? with
  | some n => n.weight.toNat
  | none => 0

/-- The priority order of R92: lower weight first, then lower arena index. -/
def before (nodes : List Node) (i j : Nat) : Bool :=
  weightAt nodes i < weightAt nodes j || (weightAt nodes i == weightAt nodes j && decide (i < j))

/-- The element of the queue that is first in the order of R92. -/
def firstOf (nodes : List Node) : List Nat → Option Nat
  | [] => none
  | i :: q =>
    match firstOf nodes q with
    | none => some i
    | some j => if before nodes j i then some j else some i

/-- `a <- first of Q; Q <- Q without a` (R93). -/
def removeFirst (nodes : List Node) (q : List Nat) : Option (Nat × List Nat) :=
  match firstOf nodes q with
  | none => none
  | some a => some (a, q.erase a)

/-- The node the merge of `a` and `b` creates (R93, R94): the first removed is LEFT, the second RIGHT. -/
def mergedNode (nodes : List Node) (a b : Nat) : Node :=
  Node.mkInternal (BitVec.ofNat 40 (weightAt nodes a + weightAt nodes b)) (BitVec.ofNat 9 a) (BitVec.ofNat 9 b)

/-- One pass of the loop of R93, `next` being the number of nodes so far; none when fewer than two indices are queued. -/
def mergePass (nodes : List Node) (q : List Nat) : Option (List Node × List Nat) :=
  match removeFirst nodes q with
  | none => none
  | some (a, q1) =>
    match removeFirst nodes q1 with
    | none => none
    | some (b, q2) => some (nodes ++ [mergedNode nodes a b], q2 ++ [nodes.length])

/-- The loop of R93. It makes at most `fuel` passes; each shortens the queue by one, so the queue's length is enough. -/
def mergeLoop : Nat → List Node → List Nat → List Node × List Nat
  | 0, nodes, q => (nodes, q)
  | fuel + 1, nodes, q =>
    match mergePass nodes q with
    | none => (nodes, q)
    | some (nodes', q') => mergeLoop fuel nodes' q'

/-- ROOT: the one element left in the queue (R93). -/
def rootOf : List Nat → NodeIdx
  | [] => Config.none
  | i :: _ => BitVec.ofNat 9 i

/-- The tree from a list of leaves: empty (R97), one-child root (R96), or the merge loop (R93). -/
def buildFromLeaves : List Node → HuffTree
  | [] => ⟨[], Config.none⟩
  | [l] => ⟨[l, Node.mkInternal l.weight 0 Config.none], 1⟩
  | ls =>
    let r := mergeLoop ls.length ls (List.range ls.length)
    ⟨r.1, rootOf r.2⟩

/-- `build(F)` (R90 to R97). -/
def build (f : FreqTable) : HuffTree := buildFromLeaves (leaves f)

/-- The arena that holds a list of nodes from index 0, the rest not in use (R22). -/
def arenaOf (nodes : List Node) : Arena :=
  ⟨((nodes ++ List.replicate 511 Node.unused).take 511).toArray, by
    rw [List.size_toArray, List.length_take, List.length_append, List.length_replicate]; omega⟩

/-- The lowest symbol whose FREQ entry is no legal count (R100). -/
def firstBadFreq (f : FreqTable) : Option Symbol := allSymbols.find? fun s => !legalCount (freqAt f s)

/-- `n`, the number of symbols with a non-zero count (R99). -/
def presentCount (f : FreqTable) : Nat := (presentSymbols f).length

/-- The state written by a successful BUILD (R99). -/
def installTree (t : HuffTree) (n : Nat) (s : State) : State :=
  { s with
    node := arenaOf t.nodes
    nnode := BitVec.ofNat 10 t.nodes.length
    root := t.root
    treeValid := true
    codeValid := false
    empty := n == 0
    single := n == 1 }

/-- BUILD (R99). -/
def execBuild (s : State) : Result :=
  whenUnfaulted s <|
    if s.mode ≠ .idle then .next (raiseFault .badSeq 0x01#8 s)
    else
      match firstBadFreq s.freq with
      | some sym => .next (raiseFault .badFreq sym s)
      | none => .next (installTree (build s.freq) (presentCount s.freq) s)

end Sys2Proof.Machine
end

