-- ==== Sys2Proof/Machine/Deriver.lean ====
section
/-! DEFINITION. The Code Table Deriver: the walk of the tree and the command DERIVE (`41_code_table_deriver.md`). -/

namespace Sys2Proof.Machine

/-- The walk of R111 from entry `i` with the path so far: the assignments `code[SYM] <- path` in the order they are made.
`fuel` bounds the depth; the arena has 511 entries and a child's index is below its parent's (R23 d), so 511 is enough for
every tree BUILD makes (log entry 6). -/
def walk (a : Arena) : Nat → NodeIdx → List Digit → List (Symbol × List Digit)
  | 0, _, _ => []
  | fuel + 1, i, path =>
    match nodeAt a i with
    | none => []
    | some n =>
      match n.kind with
      | .leaf => [(n.sym, path)]
      | .internal =>
        (if n.left ≠ Config.none then walk a fuel n.left (path ++ [false]) else [])
          ++ (if n.right ≠ Config.none then walk a fuel n.right (path ++ [true]) else [])

/-- The assignments of the whole walk (R111). -/
def treeCodes (a : Arena) (root : NodeIdx) : List (Symbol × List Digit) :=
  if root ≠ Config.none then walk a Config.nnodeMax root [] else []

/-- `code[s]`, or none (R110). -/
def codeOf (codes : List (Symbol × List Digit)) (s : Symbol) : Option (List Digit) :=
  (codes.reverse.find? fun c => c.1 == s).map Prod.snd

/-- The Code Table entry of a code or of "no code" (R119). -/
def codeEntryOf : Option (List Digit) → CodeEntry
  | none => CodeEntry.noCode
  | some ds => CodeEntry.ofDigits ds

/-- `derive(NODE, ROOT)` in its stored form: all 256 entries (R111, R119). -/
def deriveTable (a : Arena) (root : NodeIdx) : CodeTable :=
  (treeCodes a root).foldl (fun t c => setCodeAt t c.1 (CodeEntry.ofDigits c.2)) (Vector.replicate 256 CodeEntry.noCode)

/-- The state written by a successful DERIVE (R119), the release of the tree (R120) included. -/
def installCodes (c : CodeTable) (s : State) : State :=
  { s with
    code := c
    codeValid := true
    treeValid := false
    node := arenaOf []
    nnode := 0
    root := Config.none }

/-- DERIVE (R119). -/
def execDerive (s : State) : Result :=
  whenUnfaulted s <|
    if s.mode ≠ .idle then .next (raiseFault .badSeq 0x02#8 s)
    else if s.treeValid = false then .next (raiseFault .badSeq 0x02#8 s)
    else .next (installCodes (deriveTable s.node s.root) s)

end Sys2Proof.Machine
end

