-- ==== Sys2Proof/Machine/Packer.lean ====
section
/-! DEFINITION. The Bit Packer: the pure function `pack` and the transactions PACK_BEGIN, PUSHP, PACK_END
(`42_bit_packer.md`). -/

namespace Sys2Proof.Machine

/-- `ACC[n] <- d` (R133). -/
def setAccBit (acc : BitVec 8) (n : BitVec 3) (d : Digit) : BitVec 8 :=
  (acc &&& ~~~(1#8 <<< n.toNat)) ||| ((BitVec.ofBool d).setWidth 8 <<< n.toNat)

/-- What the digit loop of R133 leaves: ACC, ACC_N, and the bytes emitted in order. -/
structure PackResult where
  acc : BitVec 8
  accN : BitVec 3
  out : List Byte
  deriving DecidableEq, Repr

/-- The digit loop of R133: each digit goes into bit ACC_N; a full byte is emitted and the buffer starts again. -/
def packDigits : List Digit → BitVec 8 → BitVec 3 → PackResult
  | [], acc, n => ⟨acc, n, []⟩
  | d :: ds, acc, n =>
    if n = 7 then
      let r := packDigits ds 0 0
      ⟨r.acc, r.accN, setAccBit acc n d :: r.out⟩
    else packDigits ds (setAccBit acc n d) (n + 1)

/-- PACK_BEGIN (R131). -/
def execPackBegin (s : State) : Result :=
  whenUnfaulted s <|
    if s.mode ≠ .idle then .next (raiseFault .badSeq 0x03#8 s)
    else if s.codeValid = false then .next (raiseFault .badSeq 0x03#8 s)
    else .next { s with acc := 0, accN := 0, pbitcnt := 0, mode := .pack }

/-- The state after the Packer has taken the digits of one code (R133). -/
def packCode (e : CodeEntry) (s : State) : State :=
  let r := packDigits e.digits s.acc s.accN
  emitPout r.out { s with acc := r.acc, accN := r.accN, pbitcnt := s.pbitcnt + e.len.setWidth 32 }

/-- PUSHP (R133 to R136). -/
def execPushp (data : Word) (s : State) : Result :=
  whenUnfaulted s <|
    let b := dataByte data
    let e := codeAt s.code b
    if s.mode ≠ .pack then .next (raiseFault .badSeq b s)
    else if e.len = 0 then .next (raiseFault .noCode b s)
    else if s.pbitcnt.toNat + e.len.toNat > Config.bitcntMax then .next (raiseFault .countOvf b s)
    else .next (packCode e s)

/-- PACK_END (R138). -/
def execPackEnd (s : State) : Result :=
  whenUnfaulted s <|
    if s.mode ≠ .pack then .next (raiseFault .badSeq 0x04#8 s)
    else .next (emitPout (if s.accN = 0 then [] else [s.acc]) { s with acc := 0, accN := 0, mode := .idle })

/-! ## The pure function `pack` (R125 to R130) -/

/-- `D`, the concatenation of the codes of the bytes of `B` (R126). A byte without a code, which the contract of `pack` shuts
out (R125), adds no digit: DESIGN CHOICE (log entry 19). The transaction PUSHP faults on such a byte (R135). -/
def codeDigits (c : CodeTable) (bytes : List Byte) : List Digit := bytes.flatMap fun b => (codeAt c b).digits

/-- Payload byte `k` of the digit sequence `ds` (R59, R126): digit `8k + i` in bit `i`, zero beyond the last digit. -/
def payloadByte (ds : List Digit) (k : Nat) : Byte := BitVec.ofNat 8 (digitsValue ((ds.drop (8 * k)).take 8))

/-- The payload of a digit sequence: ceil(|D| / 8) bytes (R126, R130). -/
def payloadOf (ds : List Digit) : List Byte := (List.range ((ds.length + 7) / 8)).map (payloadByte ds)

/-- `pack(B, code)`: the payload and the bit count (R126). -/
def pack (bytes : List Byte) (c : CodeTable) : List Byte × Nat :=
  (payloadOf (codeDigits c bytes), (codeDigits c bytes).length)

end Sys2Proof.Machine
end

