-- ==== Sys2Proof/Machine/RegisterAccess.lean ====
section
/-! DEFINITION. Plain register reads and writes, and CLR (`45_register_access_and_clr.md`). A read is performed whatever ERR
and MODE are (R183, R187, R201); a plain write only when ERR = 0 (R201). -/

namespace Sys2Proof.Machine

/-- WRUBC (R184). -/
def execWrubc (count : Word) (s : State) : Result := whenUnfaulted s (.next { s with ubitcnt := count })

/-- WRFREQ (R182). -/
def execWrfreq (sym : Symbol) (count : Word) (s : State) : Result :=
  whenUnfaulted s (.next { s with freq := setFreqAt s.freq sym count })

/-- RDFREQ (R183). -/
def execRdfreq (sym : Symbol) (s : State) : Result := .next (respond (freqAt s.freq sym) s)

/-- RDSTATUS (R185). -/
def execRdstatus (s : State) : Result := .next (respond (statusWord s.toBlock) s)

/-- RDPBC (R186). -/
def execRdpbc (s : State) : Result := .next (respond s.pbitcnt s)

/-- RDUBC (R184). -/
def execRdubc (s : State) : Result := .next (respond s.ubitcnt s)

/-- RDUREM (R186). -/
def execRdurem (s : State) : Result := .next (respond s.urem s)

/-- RDCODE (R187). -/
def execRdcode (sym : Symbol) (w : BitVec 4) (s : State) : Result :=
  .next (respond (codeEntryWord (codeAt s.code sym) w) s)

/-- CLR (R189), performed whatever ERR and MODE are. -/
def execClr (s : State) : Result := .next (clearBlock s)

end Sys2Proof.Machine
end

