-- ==== Sys2Proof/Machine/Unpacker.lean ====
section
/-! DEFINITION. The Bit Unpacker: the pure function `unpack` and the transactions UNPACK_BEGIN, PUSHU
(`43_bit_unpacker.md`). -/

namespace Sys2Proof.Machine

/-- UNPACK_BEGIN (R151, R152). -/
def execUnpackBegin (s : State) : Result :=
  whenUnfaulted s <|
    if s.mode ≠ .idle then .next (raiseFault .badSeq 0x05#8 s)
    else if !legalCount s.ubitcnt then .next (raiseFault .badCount 0x05#8 s)
    else .next { s with urem := s.ubitcnt, mode := if s.ubitcnt = 0 then .idle else .unpack }

/-- Bits 0 to k-1 of a byte, bit 0 first (R60, R153). -/
def lowBits (y : Byte) (k : Nat) : List Digit := (List.range k).map y.getLsbD

/-- The state after the Unpacker has delivered `k` digits of `y` (R153). -/
def deliverDigits (y : Byte) (k : Nat) (s : State) : State :=
  let left := s.urem - BitVec.ofNat 32 k
  emitUout (lowBits y k) { s with urem := left, mode := if left = 0 then .idle else s.mode }

/-- PUSHU (R153 to R155). -/
def execPushu (data : Word) (s : State) : Result :=
  whenUnfaulted s <|
    if s.mode ≠ .unpack then .next (raiseFault .badSeq (dataByte data) s)
    else .next (deliverDigits (dataByte data) (min 8 s.urem.toNat) s)

/-! ## The pure function `unpack` (R145 to R147) -/

/-- `unpack(P, c)`: digit `j` is bit `j mod 8` of byte `j div 8` (R146). The contract asks `|P| >= ceil(c / 8)` (R145);
a byte that is not there is taken as 0 and no rule uses that case. -/
def unpack (payload : List Byte) (c : Nat) : List Digit :=
  (List.range c).map fun j => (payload.getD (j / 8) 0).getLsbD (j % 8)

end Sys2Proof.Machine
end

