-- ==== Sys2Proof/Machine/Dispatch.lean ====
section
/-! DEFINITION. The dispatch: one arm per instruction, in the order of `opcode_table.json`. -/

namespace Sys2Proof.Machine

def exec (i : Instr) (s : State) : Host.Outcome State Fault Refusal :=
  match i with
  | .build => Sys2Proof.Machine.execBuild s
  | .derive => Sys2Proof.Machine.execDerive s
  | .packBegin => Sys2Proof.Machine.execPackBegin s
  | .packEnd => Sys2Proof.Machine.execPackEnd s
  | .unpackBegin => Sys2Proof.Machine.execUnpackBegin s
  | .clr => Sys2Proof.Machine.execClr s
  | .pushp data => Sys2Proof.Machine.execPushp data s
  | .pushu data => Sys2Proof.Machine.execPushu data s
  | .wrubc count => Sys2Proof.Machine.execWrubc count s
  | .wrfreq sym count => Sys2Proof.Machine.execWrfreq sym count s
  | .rdfreq sym => Sys2Proof.Machine.execRdfreq sym s
  | .rdstatus => Sys2Proof.Machine.execRdstatus s
  | .rdpbc => Sys2Proof.Machine.execRdpbc s
  | .rdubc => Sys2Proof.Machine.execRdubc s
  | .rdurem => Sys2Proof.Machine.execRdurem s
  | .rdcode sym w => Sys2Proof.Machine.execRdcode sym w s

end Sys2Proof.Machine
end

