-- ==== Sys2Proof/Machine/Step.lean ====
section
/-! DEFINITION. One step: the block accepts the oldest thing the host offers and performs it completely (R53). -/

namespace Sys2Proof.Machine

/-- Perform one accepted transaction: decode it, then run the instruction or the rejection's effect. -/
def perform (t : Txn) (s : State) : Host.Outcome State Fault Refusal :=
  match decode t with
  | .ok i => exec i s
  | .error r => performReject r s

/-- One step (R53). With nothing offered the block waits as it is (log entry 1). -/
def step (s : State) : Host.Outcome State Fault Refusal :=
  match s.pending with
  | [] => .next s
  | .reset :: rest => .next (performReset { s with pending := rest })
  | .txn t :: rest => perform t { s with pending := rest }

/-- `s` with the transaction tuple `w` offered next. -/
def State.withFetchWord (s : State) (nbits w : Nat) : State :=
  { s with pending := .txn (Txn.ofBits (BitVec.ofNat 46 (w % 2 ^ nbits))) :: s.pending }

end Sys2Proof.Machine
end

