-- ==== Sys2Proof/Machine/HostRef.lean ====
section
/-! DEFINITION. The host reference of `44_host_reference_flows.md`, normative for a model of the host and not part of the
block (`00_scope.md` R5): frequency scan, decoder, container format, and the compress and decompress flows run on the block
through its own `step`. Files are byte lists; a file that cannot be opened is `none` (R171). -/

namespace Sys2Proof.Machine

/-! ## Pseudo-instructions (`30_encoding.md` R81); those that expand to one instruction are `encode` of it -/

/-- `PUSHP "text"`: one write to PIN per byte, left to right. -/
def pushpText (bytes : List Byte) : List Txn := bytes.map fun b => .write addrPin (b.setWidth 32)

/-- One write to UIN per payload byte, in order. -/
def pushuAll (bytes : List Byte) : List Txn := bytes.map fun b => .write addrUin (b.setWidth 32)

/-- `UNPACK n`: `WR UBITCNT, n` then `WR CMD, 0x00000005`. -/
def unpackSeq (n : Word) : List Txn := [encode (.wrubc n), encode .unpackBegin]

/-- `SETFREQ s, n` for every symbol in ascending order, zero entries included (R162). -/
def loadTable (f : FreqTable) : List Txn := allSymbols.map fun s => encode (.wrfreq s (freqAt f s))

/-- Offer the transactions to the block, one after the other, and let it perform them all. -/
def runTxns (ts : List Txn) (s : State) : Result :=
  Host.Core.run Sys2Proof.core ts.length { s with pending := ts.map .txn }

/-! ## Frequency scan (R160) -/

/-- `F[s] = number of k with B[k] = s`. -/
def symbolCount (bytes : List Byte) (s : Symbol) : Nat := bytes.count s

/-- The Frequency Table of a byte sequence whose counts fit the format (R161); other inputs are log entry 22. -/
def freqScan (bytes : List Byte) : FreqTable :=
  ⟨(allSymbols.map fun s => BitVec.ofNat 32 (symbolCount bytes s)).toArray, by simp [allSymbols]⟩

/-- Every count fits a non-negative signed 32-bit entry (R161). -/
def countsFit (bytes : List Byte) : Bool := allSymbols.all fun s => decide (symbolCount bytes s ≤ Config.freqMax)

/-- The sum of the entries of a Frequency Table (R161). -/
def freqSum (f : FreqTable) : Nat := (allSymbols.map fun s => (freqAt f s).toNat).sum

/-! ## Decoder (R163, R164) -/

/-- `code[s]` as the host reads it from the table: none when LEN = 0 (R28). -/
def storedCode (t : CodeTable) (s : Symbol) : Option (List Digit) :=
  let e := codeAt t s
  if e.len = 0 then none else some e.digits

/-- The symbol whose code equals the candidate buffer (R163: "at most one, codes are distinct"). In a table where two symbols
hold one code, which no derived table is, it is the lowest: DESIGN CHOICE (log entry 20). -/
def symbolOfCode (t : CodeTable) (buf : List Digit) : Option Symbol :=
  allSymbols.find? fun s => storedCode t s == some buf

/-- The decoder loop with candidate buffer `buf` (R163): the bytes decoded and what is left in the buffer. -/
def decodeFrom (t : CodeTable) : List Digit → List Digit → List Byte × List Digit
  | [], buf => ([], buf)
  | d :: ds, buf =>
    match symbolOfCode t (buf ++ [d]) with
    | some s => let r := decodeFrom t ds []; (s :: r.1, r.2)
    | none => decodeFrom t ds (buf ++ [d])

/-- `decode(bit_sequence, code_table)` (R163), with the buffer left at the end. What it answers for a sequence that is no
concatenation of codes is the model's choice (log entry 20). -/
def decodeDigits (t : CodeTable) (ds : List Digit) : List Byte × List Digit := decodeFrom t ds []

/-- The child a digit leads to: 0 LEFT, 1 RIGHT (R164). -/
def childOf (n : Node) (d : Digit) : NodeIdx := if d then n.right else n.left

/-- The equivalent decoder (R164) from node `cur` of a tree the host keeps: none when a digit leads to NONE or the stream
ends inside a code. -/
def treeDecodeFrom (t : HuffTree) : List Digit → NodeIdx → Option (List Byte)
  | [], cur => if cur = t.root then some [] else none
  | d :: ds, cur =>
    match t.nodes[cur.toNat]? with
    | none => none
    | some n =>
      match t.nodes[(childOf n d).toNat]? with
      | none => none
      | some c =>
        match c.kind with
        | .leaf => (treeDecodeFrom t ds t.root).map (c.sym :: ·)
        | .internal => treeDecodeFrom t ds (childOf n d)

/-- Decoding by walking the tree from its root (R164); none is the model's answer to an ill-formed stream (log entry 20). -/
def treeDecode (t : HuffTree) (ds : List Digit) : Option (List Byte) := treeDecodeFrom t ds t.root

/-! ## Container format (R165 to R167) -/

/-- HEADER_BYTE_ORDER, a parameter of the host model (R167). -/
inductive ByteOrder where
  | little
  | big
  deriving DecidableEq, Repr

/-- The default of HEADER_BYTE_ORDER (R167). -/
def ByteOrder.default : ByteOrder := .little

/-- The four bytes of a header integer. -/
def wordBytes (o : ByteOrder) (v : Word) : List Byte :=
  let le := [v.extractLsb' 0 8, v.extractLsb' 8 8, v.extractLsb' 16 8, v.extractLsb' 24 8]
  match o with
  | .little => le
  | .big => le.reverse

/-- The header integer of four bytes. -/
def bytesWord (o : ByteOrder) (b0 b1 b2 b3 : Byte) : Word :=
  match o with
  | .little => b3 ++ b2 ++ b1 ++ b0
  | .big => b0 ++ b1 ++ b2 ++ b3

/-- The header record: the bit count, then the 256 counts, no padding (R165). -/
def headerBytes (o : ByteOrder) (c : Word) (f : FreqTable) : List Byte :=
  (c :: allSymbols.map (freqAt f)).flatMap (wordBytes o)

/-- Cut a byte sequence into header integers; bytes left over, which 1028 bytes have none of, are log entry 22. -/
def bytesWords (o : ByteOrder) : List Byte → List Word
  | b0 :: b1 :: b2 :: b3 :: rest => bytesWord o b0 b1 b2 b3 :: bytesWords o rest
  | _ => []

/-- Read a header record of exactly 1028 bytes (R165, R170 a). -/
def parseHeader (o : ByteOrder) (bytes : List Byte) : Option (Word × FreqTable) :=
  if bytes.length = 1028 then
    match bytesWords o bytes with
    | c :: ws => if h : ws.length = 256 then some (c, ⟨ws.toArray, by simpa using h⟩) else none
    | [] => none
  else none

/-! ## The flows (R168, R169) -/

/-- Why a flow fails. -/
inductive HostError where
  /-- an input file cannot be opened (R171) -/
  | inputNotFound
  /-- a symbol occurs more than 2^31 - 1 times (R161) -/
  | inputTooLarge
  /-- the header file is not exactly 1028 bytes (R170 a) -/
  | headerSize
  /-- a negative bit count or frequency count (R170 b) -/
  | negativeCount
  /-- the data file has not exactly ceil(c / 8) bytes (R170 c) -/
  | dataLength
  /-- the bit count is not the sum of F[s] * CODE[s].LEN (R170 d) -/
  | bitCountMismatch
  /-- digits left over, or a wrong number of bytes decoded (R170 e) -/
  | decodedMismatch
  /-- STATUS did not read ERR = 0 (and MODE = IDLE) at the end (R168, R169) -/
  | blockFault
  deriving DecidableEq, Repr

/-- STATUS.ERR = 0 in a word read (R37). -/
def statusNoErr (v : Word) : Bool := v.extractLsb' 8 4 == 0#4

/-- STATUS.MODE = IDLE in a word read (R37). -/
def statusIdle (v : Word) : Bool := v.extractLsb' 2 2 == 0#2

/-- The transactions of the compress flow (R168). -/
def compressTxns (bytes : List Byte) : List Txn :=
  [encode .clr] ++ loadTable (freqScan bytes) ++ [encode .build, encode .derive, encode .packBegin]
    ++ pushpText bytes ++ [encode .packEnd, encode .rdpbc, encode .rdstatus]

/-- The artifacts of a compress call: header file and data file. -/
structure Artifacts where
  header : List Byte
  data : List Byte
  deriving DecidableEq, Repr

/-- The compress flow over the block (R168); the state is the block's after the flow. The order of its checks is that of log
entry 21. -/
def compress (o : ByteOrder) (input : Option (List Byte)) (s : State) : Except HostError (Artifacts × State) :=
  match input with
  | none => .error .inputNotFound
  | some bytes =>
    if countsFit bytes then
      match runTxns (compressTxns bytes) s with
      | .next s' =>
        match s'.rdata.drop s.rdata.length with
        | [c, status] =>
          if statusNoErr status then
            .ok (⟨headerBytes o c (freqScan bytes), s'.pout.drop s.pout.length⟩, s')
          else .error .blockFault
        | _ => .error .blockFault
      | .fault _ => .error .blockFault
      | .refused _ => .error .blockFault
    else .error .inputTooLarge

/-- The nine reads of one Code Table entry: LEN, then BITS low word first (R169). -/
def readEntry (s : Symbol) : List Txn := (List.range 9).map fun w => encode (.rdcode s (BitVec.ofNat 4 w))

/-- The first part of the decompress flow (R169): load the table, build, derive, read the Code Table. -/
def tableTxns (f : FreqTable) : List Txn :=
  [encode .clr] ++ loadTable f ++ [encode .build, encode .derive] ++ allSymbols.flatMap readEntry

/-- The second part (R169): the bit count, the unpack session, STATUS. -/
def unpackTxns (c : Word) (data : List Byte) : List Txn := unpackSeq c ++ pushuAll data ++ [encode .rdstatus]

/-- A Code Table entry from the nine words read (R46); any other number of words, which no flow makes, is log entry 22. -/
def entryOfWords : List Word → CodeEntry
  | [l, w1, w2, w3, w4, w5, w6, w7, w8] => ⟨l.extractLsb' 0 8, w8 ++ w7 ++ w6 ++ w5 ++ w4 ++ w3 ++ w2 ++ w1⟩
  | _ => CodeEntry.noCode

/-- The Code Table from all the words read, nine a symbol. -/
def tableOfWords (ws : List Word) : CodeTable :=
  ⟨((List.range 256).map fun k => entryOfWords ((ws.drop (9 * k)).take 9)).toArray, by simp⟩

/-- The sum of F[s] * CODE[s].LEN (R170 d). -/
def encodedLength (f : FreqTable) (t : CodeTable) : Nat :=
  (allSymbols.map fun s => (freqAt f s).toNat * (codeAt t s).len.toNat).sum

/-- The unpack session of the decompress flow and the decoding of its digits, with check e of R170. -/
def unpackAndDecode (c : Word) (f : FreqTable) (t : CodeTable) (data : List Byte) (s : State) :
    Except HostError (List Byte × State) :=
  match runTxns (unpackTxns c data) s with
  | .next s' =>
    match s'.rdata.drop s.rdata.length with
    | [status] =>
      if statusNoErr status && statusIdle status then
        let r := decodeDigits t (s'.uout.drop s.uout.length)
        if r.2 = [] ∧ r.1.length = freqSum f then .ok (r.1, s') else .error .decodedMismatch
      else .error .blockFault
    | _ => .error .blockFault
  | .fault _ => .error .blockFault
  | .refused _ => .error .blockFault

/-- The decompress flow over the block (R169), with the checks of R170. Where several checks fail at once the one reported is
the first in the order written here, files, a, b, c, then d, then the fault, then e: DESIGN CHOICE (log entry 21). -/
def decompress (o : ByteOrder) (header data : Option (List Byte)) (s : State) : Except HostError (List Byte × State) :=
  match header, data with
  | some hb, some db =>
    match parseHeader o hb with
    | none => .error .headerSize
    | some (c, f) =>
      if legalCount c && allSymbols.all (fun x => legalCount (freqAt f x)) then
        if db.length = (c.toNat + 7) / 8 then
          match runTxns (tableTxns f) s with
          | .next s1 =>
            let t := tableOfWords (s1.rdata.drop s.rdata.length)
            if encodedLength f t = c.toNat then unpackAndDecode c f t db s1 else .error .bitCountMismatch
          | .fault _ => .error .blockFault
          | .refused _ => .error .blockFault
        else .error .dataLength
      else .error .negativeCount
  | _, _ => .error .inputNotFound

end Sys2Proof.Machine
end

