-- ==== Sys2Proof/Safety.lean ====
section
/-! DEFINITION. The terms claims are stated in: the invariants of R47 and R23, the fault table of R197, complete and
waiting runs (R14, R207), and the transactions a session may be interleaved with (R132, R150). -/

namespace Sys2Proof.Machine

/-! ## Trees and codes -/

/-- Every entry is a legal count, the condition BUILD checks (R100). -/
def LegalTable (f : FreqTable) : Prop := ∀ s, (freqAt f s).toNat ≤ Config.freqMax

/-- The arena entries in use, index 0 first (R22, R24). -/
def Block.inUse (b : Block) : List Node := b.node.toList.take b.nnode.toNat

/-- How many links of a node lead to index `i`. -/
def Node.linksTo (i : NodeIdx) (n : Node) : Nat :=
  (if n.left = i then 1 else 0) + (if n.right = i then 1 else 0)

/-- The invariants of an arena that holds the tree of the Frequency Table `f` (R22, R23, R93, R96, R97). -/
structure TreeOk (f : FreqTable) (nodes : List Node) (root : NodeIdx) : Prop where
  /-- NNODE is at most 511 (R24) -/
  size : nodes.length ≤ Config.nnodeMax
  /-- a Leaf has no children (R22) -/
  leafLinks : ∀ n : Node, n ∈ nodes → n.kind = .leaf → n.left = Config.none ∧ n.right = Config.none
  /-- R23 (a): a Leaf's weight is its Frequency Table entry -/
  leafWeight : ∀ n : Node, n ∈ nodes → n.kind = .leaf → n.weight.toNat = (freqAt f n.sym).toNat
  /-- R23 (b): an Internal node's weight is the sum of the weights of its present children; SYM is 0 (R22) -/
  internalWeight : ∀ n : Node, n ∈ nodes → n.kind = .internal →
    n.weight.toNat = weightAt nodes n.left.toNat + weightAt nodes n.right.toNat ∧ n.sym = 0
  /-- R23 (c): only the root of the single-symbol tree lacks a child, and it lacks RIGHT -/
  children : ∀ n : Node, n ∈ nodes → n.kind = .internal →
    n.left ≠ Config.none ∧ (n.right = Config.none → nodes.length = 2 ∧ root = 1)
  /-- R23 (d): a child's index is smaller than its parent's -/
  childBelow : ∀ (i : Nat) (n : Node), nodes[i]? = some n →
    (n.left ≠ Config.none → n.left.toNat < i) ∧ (n.right ≠ Config.none → n.right.toNat < i)
  /-- R23 (e): one Leaf for each symbol with a non-zero entry and no other Leaf -/
  leafOnce : ∀ s, nodes.countP (fun n => n.kind == .leaf && n.sym == s) = if freqAt f s = 0 then 0 else 1
  /-- R22: every index in use other than ROOT is the child of exactly one node, and ROOT of none -/
  owned : ∀ i < nodes.length,
    (nodes.map (Node.linksTo (BitVec.ofNat 9 i))).sum = if BitVec.ofNat 9 i = root then 0 else 1
  /-- ROOT is NONE for the empty tree (R97) and the last node created otherwise (R93, R96) -/
  rootLast : root = if nodes = [] then Config.none else BitVec.ofNat 9 (nodes.length - 1)

/-- Follow a path from a node: digit 0 to LEFT, digit 1 to RIGHT (R111, R112). -/
def follow (a : Arena) : NodeIdx → List Digit → Option Node
  | i, [] => nodeAt a i
  | i, d :: ds =>
    match nodeAt a i with
    | some n => if n.kind = .internal ∧ childOf n d ≠ Config.none then follow a (childOf n d) ds else none
    | none => none

/-- The Code Table that BUILD and then DERIVE make of a Frequency Table. -/
def tableFor (f : FreqTable) : CodeTable := deriveTable (arenaOf (build f).nodes) (build f).root

/-- The codes that BUILD and then DERIVE assign, as sequences (R110). -/
def codesFor (f : FreqTable) (s : Symbol) : Option (List Digit) :=
  codeOf (treeCodes (arenaOf (build f).nodes) (build f).root) s

/-- No code of the table is a prefix of the code of another symbol (R114). -/
def PrefixFree (t : CodeTable) : Prop :=
  ∀ s s' ds ds', s ≠ s' → storedCode t s = some ds → storedCode t s' = some ds' → ¬ ds <+: ds'

/-- The digits waiting in ACC, oldest first (R30). -/
def accDigits (acc : BitVec 8) (n : BitVec 3) : List Digit := (List.range n.toNat).map acc.getLsbD

/-- The invariants of R47, with the tree and the table each tied to the Frequency Table it came from. Clauses (a) and (k)
of R47 hold by the types `Mode` and `ErrCode`. -/
structure Block.Inv (b : Block) : Prop where
  /-- (b) -/
  unpackOpen : b.mode = .unpack ↔ b.urem ≠ 0
  /-- (c) -/
  packHasTable : b.mode = .pack → b.codeValid = true
  /-- (d) -/
  accIdle : b.mode ≠ .pack → b.acc = 0 ∧ b.accN = 0
  /-- (e) -/
  accPadding : ∀ i, b.accN.toNat ≤ i → b.acc.getLsbD i = false
  /-- (f) -/
  pbitcntLegal : b.pbitcnt.toNat ≤ Config.bitcntMax
  /-- (f) -/
  uremLegal : b.urem.toNat ≤ Config.bitcntMax
  /-- (g) -/
  pbitcntDigits : b.mode = .pack → b.pbitcnt.toNat % 8 = b.accN.toNat
  /-- (h) -/
  notBoth : ¬ (b.empty = true ∧ b.single = true)
  /-- (i), no tree -/
  noTree : b.treeValid = false → b.nnode = 0 ∧ b.root = Config.none
  /-- (i), a tree: it is what BUILD makes of some legal table, and R23 holds of it -/
  tree : b.treeValid = true → ∃ f, LegalTable f ∧ b.node = arenaOf (build f).nodes ∧
    b.nnode.toNat = (build f).nodes.length ∧ b.root = (build f).root ∧ TreeOk f b.inUse b.root
  /-- (i): NNODE = 0 exactly when EMPTY, NNODE = 2 exactly when SINGLE -/
  treeFlags : b.treeValid = true → (b.nnode = 0 ↔ b.empty = true) ∧ (b.nnode = 2 ↔ b.single = true)
  /-- (j): bits LEN to 255 of BITS are 0 -/
  codeBits : ∀ s i, (codeAt b.code s).len.toNat ≤ i → (codeAt b.code s).bits.getLsbD i = false
  /-- R27, R65: a valid Code Table is what BUILD and DERIVE make of some legal table -/
  table : b.codeValid = true → ∃ f, LegalTable f ∧ b.code = tableFor f
  /-- R196: ERRINFO is 0 while there is no fault -/
  noErrInfo : b.err = .none → b.errinfo = 0

/-! ## Faults -/

/-- The faults an instruction can raise, in order of precedence, each with the condition under which it holds (R197); a
frequency check per symbol, ascending, since the lowest offending symbol is reported (R198). -/
def faultChecks : Instr → State → List (Bool × ErrCode × Byte)
  | .build, s =>
    (s.mode != .idle, .badSeq, 0x01) :: allSymbols.map fun x => ((freqAt s.freq x).getLsbD 31, .badFreq, x)
  | .derive, s => [(s.mode != .idle || !s.treeValid, .badSeq, 0x02)]
  | .packBegin, s => [(s.mode != .idle || !s.codeValid, .badSeq, 0x03)]
  | .packEnd, s => [(s.mode != .pack, .badSeq, 0x04)]
  | .unpackBegin, s => [(s.mode != .idle, .badSeq, 0x05), (s.ubitcnt.getLsbD 31, .badCount, 0x05)]
  | .pushp v, s =>
    [(s.mode != .pack, .badSeq, dataByte v), ((codeAt s.code (dataByte v)).len == 0, .noCode, dataByte v),
     (decide (s.pbitcnt.toNat + (codeAt s.code (dataByte v)).len.toNat > 0x7FFFFFFF), .countOvf, dataByte v)]
  | .pushu v, s => [(s.mode != .unpack, .badSeq, dataByte v)]
  | .clr, _ => []
  | .wrubc _, _ => []
  | .wrfreq _ _, _ => []
  | .rdfreq _, _ => []
  | .rdstatus, _ => []
  | .rdpbc, _ => []
  | .rdubc, _ => []
  | .rdurem, _ => []
  | .rdcode _ _, _ => []

/-- The fault an instruction raises: the first that holds (R198). -/
def faultOf (i : Instr) (s : State) : Option (ErrCode × Byte) := ((faultChecks i s).find? (·.1)).map (·.2)

/-! ## Runs -/

/-- The block waits in a pack session, without a fault: PACK_END was not yet written (R207 b). -/
def Block.packOpen (b : Block) : Prop := b.mode = .pack ∧ b.err = .none

/-- The block waits in an unpack session, without a fault: payload bytes are still to come (R207 a). -/
def Block.unpackOpenSession (b : Block) : Prop := b.mode = .unpack ∧ b.urem ≠ 0 ∧ b.err = .none

/-- An unpack run is complete (R14, R154). -/
def Block.unpackComplete (b : Block) : Prop := b.mode = .idle ∧ b.urem = 0 ∧ b.err = .none

/-- A transaction that may stand between those of a session: any read, and any write but to CMD, PIN or UIN (R132, R150). -/
def isNeutral : Txn → Bool
  | .read _ => true
  | .write a _ => a != addrCmd && a != addrPin && a != addrUin

/-- The reserved addresses of the register map (R36). -/
def reservedAddr (a : Addr) : Prop := (7 ≤ a.toNat ∧ a.toNat ≤ 0xFF) ∨ (0x200 ≤ a.toNat ∧ a.toNat ≤ 0xFFF)

/-- A word that is none of the six command words of R73. -/
def illegalCommandWord (v : Word) : Prop := v.toNat = 0 ∨ 7 ≤ v.toNat

/-- The byte a transaction pushes into register `reg` (PIN or UIN). -/
def pushedByte (reg : Addr) : Txn → Option Byte
  | .write a v => if a = reg then some (dataByte v) else none
  | .read _ => none

/-- The host offers exactly these transactions. -/
def State.offering (s : State) (ts : List Txn) : State := { s with pending := ts.map .txn }

/-- Perform `n` steps. -/
abbrev runSteps (n : Nat) (s : State) : Result := Host.Core.run Sys2Proof.core n s

/-- An input the format can carry (R161): no count and no encoded length above 2^31 - 1. -/
def WithinFormat (bytes : List Byte) : Prop :=
  (∀ s, symbolCount bytes s ≤ Config.freqMax) ∧
    (codeDigits (tableFor (freqScan bytes)) bytes).length ≤ Config.bitcntMax

end Sys2Proof.Machine
end

