-- ==== Sys2Proof/Certificates/Slice0/Obligations.lean ====
section
/-! DEFINITION. The statements for the provers. A statement whose docstring names a log entry rests, there, on a choice of
the model and not on a rule of the spec. -/

open Sys2Proof Sys2Proof.Machine

/-! ## Encoding -/

/-- Decoding what the encoder writes gives the instruction back, every operand at every value, as a transaction and as a
46-bit tuple, and the tuple is canonical (R70, R71, R84). -/
def Obligations.DecodeInvertsEncode : Prop :=
  ∀ i : Instr, i.wellFormed = true →
    decode (encode i) = .ok i ∧ decodeBits (encodeBits i) = .ok i ∧ tupleWellFormed (encodeBits i).toNat = true

/-- Each decoded transaction is the encoding of what it decodes to (R70, R73, R84): no bit of a transaction is dropped by the
decoder. For PUSHP and PUSHU that is the model's choice (log entry 12): their operand here is the whole DATA word, where the
spec names DATA[7:0] as the operand and has the other bits ignored. -/
def Obligations.EncodeInvertsDecode : Prop :=
  ∀ (t : Txn) (i : Instr), decode t = .ok i → encode i = t

/-- The decoder agrees with `opcode_table.json`: a tuple matches a row exactly when it decodes to an instruction of that
row (R84). -/
def Obligations.DecodeAgreesWithOpcodeTable : Prop :=
  ∀ (w : TxnWord) (r : TableRow), r ∈ opcodeTable →
    (r.matches w = true ↔ ∃ i, decodeBits w = .ok i ∧ i.row = r)

/-- What is no row of the table: the no-operation reads, the no-operation writes and the illegal command words, by address
and value (R36, R57, R71, R75). -/
def Obligations.UndecodedTransactionsAreNamed : Prop :=
  ∀ t : Txn,
    (decode t = .error .noOperationRead ↔
      ∃ a : Addr, t = .read a ∧ (a.toNat = 0 ∨ a.toNat = 5 ∨ a.toNat = 6 ∨ reservedAddr a)) ∧
    (decode t = .error .noOperationWrite ↔
      ∃ (a : Addr) (v : Word), t = .write a v ∧
        (a.toNat = 1 ∨ a.toNat = 2 ∨ a.toNat = 4 ∨ 0x1000 ≤ a.toNat ∨ reservedAddr a)) ∧
    (∀ info : Byte, decode t = .error (.illegalCommand info) ↔
      ∃ v : Word, t = .write addrCmd v ∧ illegalCommandWord v ∧ info = v.extractLsb' 0 8)

/-- Tuples written out in the programs of `95_test_vectors.md` part 8 decode to the transactions they stand for there. That the
write of 0x141 to PIN carries the operand 0x141, of which PUSHP uses the low byte, is the model's choice (log entry 12). -/
def Obligations.SampleWordsDecode : Prop :=
  decodeTableWord 46 0x200000000001 = some .build ∧
  decodeTableWord 46 0x200000000005 = some .unpackBegin ∧
  decodeTableWord 46 0x200500000141 = some (.pushp 0x141) ∧
  decodeTableWord 46 0x2006000000F7 = some (.pushu 0xF7) ∧
  decodeTableWord 46 0x200300000009 = some (.wrubc 9) ∧
  decodeTableWord 46 0x21F0FFFFFFFF = some (.wrfreq 0xF0 0xFFFFFFFF) ∧
  decodeTableWord 46 0x016100000000 = some (.rdfreq 0x61) ∧
  decodeTableWord 46 0x162100000000 = some (.rdcode 0x62 1) ∧
  decodeTableWord 46 0x000100000000 = some .rdstatus ∧
  decodeTableWord 46 0x200000000007 = none

/-! ## The step -/

/-- A step runs the decoded instruction on the state with that transaction taken off the queue. That transactions wait in a
queue of the state is the model's choice (log entry 1). -/
def Obligations.StepRunsDecodedInstruction : Prop :=
  ∀ (s : State) (t : Txn) (rest : List Event) (i : Instr),
    s.pending = .txn t :: rest → decode t = .ok i → step s = exec i { s with pending := rest }

/-- An instruction's own tuple, offered as the next transaction, is what the next step runs (log entry 1). -/
def Obligations.OfferedInstructionRunsNext : Prop :=
  ∀ (s : State) (i : Instr), step (s.withFetchWord 46 (encodeBits i).toNat) = exec i s

/-- Every step and every instruction completes: none faults the machine, none is refused, whatever the state. It rests on the
model's choices that the sink always takes a beat (log entry 3, unsafe for this claim: R63, R236), that with nothing offered
the block waits as it is (log entry 1), and that no step of the hardware stops (log entry 18). -/
def Obligations.EveryTransactionCompletes : Prop :=
  (∀ s : State, ∃ t, step s = .next t) ∧ ∀ (i : Instr) (s : State), ∃ t, exec i s = .next t

/-- R188: the no-operation transactions, and every write but CLR while ERR is not 0, change nothing; a no-operation read
returns 0; reads go on while ERR is not 0. -/
def Obligations.NoOperationsChangeNothing : Prop :=
  ∀ (s : State) (rest : List Event) (a : Addr) (v : Word),
    (s.pending = .txn (.read a) :: rest → a.toNat = 0 ∨ a.toNat = 5 ∨ a.toNat = 6 ∨ reservedAddr a →
      step s = .next { s with pending := rest, rdata := s.rdata ++ [0] }) ∧
    (s.pending = .txn (.write a v) :: rest →
      a.toNat = 1 ∨ a.toNat = 2 ∨ a.toNat = 4 ∨ 0x1000 ≤ a.toNat ∨ reservedAddr a →
      step s = .next { s with pending := rest }) ∧
    (s.err ≠ .none → s.pending = .txn (.write a v) :: rest → ¬ (a = addrCmd ∧ v = 0x00000006) →
      step s = .next { s with pending := rest }) ∧
    (s.err ≠ .none → s.pending = .txn (.read a) :: rest →
      step s = .next { s with pending := rest, rdata := s.rdata ++ [portRead s.toBlock a] })

/-- R75: a write to CMD of any word but the six raises ILLEGAL_CMD with DATA[7:0] and does nothing else. -/
def Obligations.IllegalCommandWordFaults : Prop :=
  ∀ (s : State) (rest : List Event) (v : Word),
    s.pending = .txn (.write addrCmd v) :: rest → s.err = .none → illegalCommandWord v →
    step s = .next { s with pending := rest, err := .illegalCmd, errinfo := v.extractLsb' 0 8 }

/-- The reset input puts the block in its reset state and withdraws nothing from the streams (R220, R223). That a reset
arrives as one event of the queue is the model's choice (log entry 4). -/
def Obligations.ResetInputKeepsTheStreams : Prop :=
  ∀ (s : State) (rest : List Event), s.pending = .reset :: rest →
    step s = .next { toBlock := Block.reset, pending := rest, rdata := s.rdata, pout := s.pout, uout := s.uout }

/-! ## Reset and CLR -/

/-- R48: the value of each state element after reset and after CLR, and STATUS as read. -/
def Obligations.ResetAndClrValues : Prop :=
  ∀ s t : State, (t = State.reset ∨ exec .clr s = .next t) →
    (∀ x, freqAt t.freq x = 0) ∧ t.nnode = 0 ∧ t.root = 0x1FF#9 ∧ t.treeValid = false ∧ t.empty = false ∧
    t.single = false ∧ (∀ x, (codeAt t.code x).len = 0 ∧ (codeAt t.code x).bits = 0) ∧ t.codeValid = false ∧
    t.acc = 0 ∧ t.accN = 0 ∧ t.pbitcnt = 0 ∧ t.ubitcnt = 0 ∧ t.urem = 0 ∧ t.mode = .idle ∧ t.err = .none ∧
    t.errinfo = 0 ∧ statusWord t.toBlock = 0

/-- R222: CLR, in any state, leaves the block as reset leaves it; the host's queue and the streams are as before. -/
def Obligations.ClrGivesTheResetState : Prop :=
  ∀ s : State, exec .clr s = .next { s with toBlock := State.reset.toBlock }

/-! ## Reads and plain writes -/

/-- R55: a read of any address, in any state, returns the word the register map gives there and changes no state of the
block, so a second read of the address returns the same word. -/
def Obligations.ReadsReturnThePortWord : Prop :=
  ∀ (s : State) (a : Addr) (rest : List Event), s.pending = .txn (.read a) :: rest →
    ∃ t, step s = .next t ∧ t = { s with pending := rest, rdata := s.rdata ++ [portRead s.toBlock a] } ∧
      portRead t.toBlock a = portRead s.toBlock a

/-- The register map by word address (R36, R45, R46, R57). -/
def Obligations.RegisterMapWords : Prop :=
  ∀ (b : Block) (a : Addr),
    (a.toNat = 1 → portRead b a = statusWord b) ∧ (a.toNat = 2 → portRead b a = b.pbitcnt) ∧
    (a.toNat = 3 → portRead b a = b.ubitcnt) ∧ (a.toNat = 4 → portRead b a = b.urem) ∧
    (∀ x : Symbol, a.toNat = 0x100 + x.toNat → portRead b a = freqAt b.freq x) ∧
    (∀ (x : Symbol) (w : BitVec 4), a.toNat = 0x1000 + 16 * x.toNat + w.toNat →
      portRead b a = codeEntryWord (codeAt b.code x) w) ∧
    (a.toNat = 0 ∨ a.toNat = 5 ∨ a.toNat = 6 ∨ reservedAddr a → portRead b a = 0)

/-- RDSTATUS returns the fields of STATUS, reserved bits 0, and changes nothing (R37, R185, R196). -/
def Obligations.RdstatusReturnsTheFields : Prop :=
  ∀ s : State, ∃ v : Word, exec .rdstatus s = .next { s with rdata := s.rdata ++ [v] } ∧
    v.getLsbD 0 = s.treeValid ∧ v.getLsbD 1 = s.codeValid ∧
    (v.extractLsb' 2 2).toNat = (match s.mode with | .idle => 0 | .pack => 1 | .unpack => 2) ∧
    v.getLsbD 4 = s.empty ∧ v.getLsbD 5 = s.single ∧ v.extractLsb' 6 2 = 0 ∧
    (v.extractLsb' 8 4).toNat = (match s.err with
      | .none => 0 | .illegalCmd => 1 | .badSeq => 2 | .badFreq => 3 | .noCode => 4 | .countOvf => 5 | .badCount => 6) ∧
    v.extractLsb' 12 4 = 0 ∧ v.extractLsb' 16 8 = s.errinfo ∧ v.extractLsb' 24 8 = 0

/-- RDCODE returns LEN, one word of BITS, or 0, in any state, and changes nothing (R46, R187). -/
def Obligations.RdcodeReturnsTheEntryWord : Prop :=
  ∀ (s : State) (x : Symbol) (w : BitVec 4), ∃ v : Word,
    exec (.rdcode x w) s = .next { s with rdata := s.rdata ++ [v] } ∧
    (w.toNat = 0 → v.toNat = (codeAt s.code x).len.toNat) ∧
    (1 ≤ w.toNat ∧ w.toNat ≤ 8 → ∀ j < 32, v.getLsbD j = (codeAt s.code x).bits.getLsbD (32 * (w.toNat - 1) + j)) ∧
    (9 ≤ w.toNat → v = 0)

/-- RDPBC and RDUREM return PBITCNT and UREM and change nothing; writes to the two addresses are ignored (R186). -/
def Obligations.RdpbcRduremReturnTheCounts : Prop :=
  ∀ s : State,
    exec .rdpbc s = .next { s with rdata := s.rdata ++ [s.pbitcnt] } ∧
    exec .rdurem s = .next { s with rdata := s.rdata ++ [s.urem] } ∧
    ∀ (a : Addr) (v : Word) (rest : List Event), a = addrPbitcnt ∨ a = addrUrem →
      s.pending = .txn (.write a v) :: rest → step s = .next { s with pending := rest }

/-- R184: WRUBC stores all 32 bits when ERR = 0 and nothing otherwise, and a stored word with bit 31 set is rejected by a
later UNPACK_BEGIN; RDUBC returns UBITCNT. Both are at word address 0x0003. -/
def Obligations.UbitcntReadWrite : Prop :=
  ∀ (s : State) (v : Word),
    decode (.write 0x0003#13 v) = .ok (.wrubc v) ∧ decode (.read 0x0003#13) = .ok .rdubc ∧
    (s.err = .none → exec (.wrubc v) s = .next { s with ubitcnt := v }) ∧
    (s.err ≠ .none → exec (.wrubc v) s = .next s) ∧
    exec .rdubc s = .next { s with rdata := s.rdata ++ [s.ubitcnt] } ∧
    (s.err = .none → s.mode = .idle → v.getLsbD 31 = true →
      exec .unpackBegin { s with ubitcnt := v } = .next { s with ubitcnt := v, err := .badCount, errinfo := 0x05 })

/-- R182: WRFREQ stores the word in one entry when ERR = 0, in every MODE, and changes nothing else: of the whole register
port only the word at 0x0100 + x reads differently. While ERR is not 0 it is ignored. A word with bit 31 set is stored as it
is and rejected only by a later BUILD. -/
def Obligations.WrfreqStoresOneEntry : Prop :=
  ∀ (s : State) (x : Symbol) (v : Word),
    (∀ a : Addr, a.toNat = 0x100 + x.toNat → decode (.write a v) = .ok (.wrfreq x v)) ∧
    (s.err = .none → ∃ t, exec (.wrfreq x v) s = .next t ∧ t = { s with freq := t.freq } ∧
      (∀ y, freqAt t.freq y = if y = x then v else freqAt s.freq y) ∧
      (∀ a : Addr, portRead t.toBlock a = if a.toNat = 0x100 + x.toNat then v else portRead s.toBlock a) ∧
      (s.mode = .idle → v.getLsbD 31 = true → (∀ y, y ≠ x → (freqAt s.freq y).getLsbD 31 = false) →
        exec .build t = .next { t with err := .badFreq, errinfo := x })) ∧
    (s.err ≠ .none → exec (.wrfreq x v) s = .next s)

/-- R183: RDFREQ returns the whole entry, whatever MODE and ERR are, without side effect; after WRFREQ it returns what was
written. -/
def Obligations.RdfreqReturnsTheEntry : Prop :=
  ∀ (s : State) (x : Symbol),
    (∀ a : Addr, a.toNat = 0x100 + x.toNat → decode (.read a) = .ok (.rdfreq x)) ∧
    exec (.rdfreq x) s = .next { s with rdata := s.rdata ++ [freqAt s.freq x] } ∧
    ∀ (v : Word) (t : State), s.err = .none → exec (.wrfreq x v) s = .next t →
      exec (.rdfreq x) t = .next { t with rdata := t.rdata ++ [v] }

/-! ## The Tree Builder -/

/-- BUILD with no session open and a legal table completes: it installs the tree of FREQ and its flags and changes nothing
else (R99). What arena entries beyond NNODE hold is left open here. -/
def Obligations.BuildInstallsTheTree : Prop :=
  ∀ s : State, s.err = .none → s.mode = .idle → LegalTable s.freq →
    ∃ t, exec .build s = .next t ∧
      t = { s with node := t.node, nnode := t.nnode, root := t.root, treeValid := true, codeValid := false,
                   empty := t.empty, single := t.single } ∧
      t.toBlock.inUse = (build s.freq).nodes ∧ t.nnode.toNat = (build s.freq).nodes.length ∧
      t.root = (build s.freq).root ∧
      (t.empty = true ↔ ∀ x, freqAt s.freq x = 0) ∧
      (t.single = true ↔ ∃ x, freqAt s.freq x ≠ 0 ∧ ∀ y, freqAt s.freq y ≠ 0 → y = x)

/-- R100: BUILD reports the lowest symbol whose entry has bit 31 set, and changes nothing else. -/
def Obligations.BuildRejectsNegativeCounts : Prop :=
  ∀ (s : State) (x : Symbol), s.err = .none → s.mode = .idle → (freqAt s.freq x).getLsbD 31 = true →
    (∀ y, y.toNat < x.toNat → (freqAt s.freq y).getLsbD 31 = false) →
    exec .build s = .next { s with err := .badFreq, errinfo := x }

/-- The priority order is by weight and then by arena index, and it is a strict total order; "remove the lowest" takes the
element that is first in it off the queue (R92); and a pass of the merge loop removes two that way and appends the node whose
LEFT is the one removed first and RIGHT the one removed second (R93, R94). A pass is not made only on a queue of fewer than
two. -/
def Obligations.QueueRemovesTheFirstInOrder : Prop :=
  ∀ nodes : List Node,
    (∀ i j, before nodes i j = true ↔
      weightAt nodes i < weightAt nodes j ∨ (weightAt nodes i = weightAt nodes j ∧ i < j)) ∧
    (∀ i, before nodes i i = false) ∧
    (∀ i j k, before nodes i j = true → before nodes j k = true → before nodes i k = true) ∧
    (∀ i j, i ≠ j → before nodes i j = true ∨ before nodes j i = true) ∧
    ∀ q : List Nat,
      (∀ a, firstOf nodes q = some a ↔ a ∈ q ∧ ∀ b ∈ q, b ≠ a → before nodes a b = true) ∧
      (∀ a q', removeFirst nodes q = some (a, q') ↔
        (a ∈ q ∧ ∀ b ∈ q, b ≠ a → before nodes a b = true) ∧ q' = q.erase a) ∧
      (mergePass nodes q = none ↔ q.length < 2) ∧
      ∀ nodes' q', mergePass nodes q = some (nodes', q') → ∃ a b,
        removeFirst nodes q = some (a, q.erase a) ∧
        removeFirst nodes (q.erase a) = some (b, (q.erase a).erase b) ∧
        nodes' = nodes ++ [⟨.internal, 0, BitVec.ofNat 40 (weightAt nodes a + weightAt nodes b),
                            BitVec.ofNat 9 a, BitVec.ofNat 9 b⟩] ∧
        q' = (q.erase a).erase b ++ [nodes.length] ∧
        weightAt nodes a ≤ weightAt nodes b ∧ (q.Nodup → before nodes a b = true)

/-- Where the nodes of a built tree stand: leaf number `i` at index `i`, ascending by symbol, internal nodes after them;
how many there are; and ROOT (R91, R93). -/
def Obligations.BuiltTreeNumbering : Prop :=
  ∀ f : FreqTable,
    (∀ x, freqAt f x ≠ 0 →
      (build f).nodes[allSymbols.countP (fun y => decide (y.toNat < x.toNat) && freqAt f y != 0)]? =
        some ⟨.leaf, x, (freqAt f x).setWidth 40, 0x1FF#9, 0x1FF#9⟩) ∧
    (∀ (i : Nat) (n : Node), (build f).nodes[i]? = some n → (n.kind = .leaf ↔ i < presentCount f)) ∧
    (2 ≤ presentCount f →
      (build f).nodes.length = 2 * presentCount f - 1 ∧ (build f).root.toNat = 2 * presentCount f - 2)

/-- R96: exactly one symbol present gives a one-child Internal root over the leaf, and the code "0". -/
def Obligations.SingleSymbolTree : Prop :=
  ∀ (f : FreqTable) (x : Symbol), freqAt f x ≠ 0 → (∀ y, y ≠ x → freqAt f y = 0) →
    build f = ⟨[⟨.leaf, x, (freqAt f x).setWidth 40, 0x1FF#9, 0x1FF#9⟩,
                ⟨.internal, 0, (freqAt f x).setWidth 40, 0, 0x1FF#9⟩], 1⟩ ∧
    codesFor f x = some [false]

/-- R97: the all-zero table gives the empty tree, a table with no code, and an empty payload for the empty input. -/
def Obligations.EmptyTree : Prop :=
  ∀ f : FreqTable, (∀ x, freqAt f x = 0) →
    build f = ⟨[], 0x1FF#9⟩ ∧ (∀ x, codeAt (tableFor f) x = ⟨0, 0⟩) ∧ pack [] (tableFor f) = ([], 0)

/-- A built tree has the invariants of R22 and R23. -/
def Obligations.BuiltTreeSatisfiesTheArenaInvariants : Prop :=
  ∀ f : FreqTable, LegalTable f → TreeOk f (build f).nodes (build f).root

/-- R95 (c): the weights of the Internal nodes never decrease in creation order, and in every pass the node that becomes LEFT
is no heavier than the one that becomes RIGHT. More than that, the merges of a built tree take the nodes in the order of R92,
ties by arena index included: LEFT before RIGHT in each Internal node (R94), and both before those of every later one. -/
def Obligations.InternalWeightsNondecreasing : Prop :=
  ∀ f : FreqTable, LegalTable f →
    (∀ i, presentCount f ≤ i → i + 1 < (build f).nodes.length →
      weightAt (build f).nodes i ≤ weightAt (build f).nodes (i + 1)) ∧
    (2 ≤ presentCount f → ∀ (i : Nat) (n : Node), (build f).nodes[i]? = some n → n.kind = .internal →
      weightAt (build f).nodes n.left.toNat ≤ weightAt (build f).nodes n.right.toNat ∧
      before (build f).nodes n.left.toNat n.right.toNat = true ∧
      ∀ (j : Nat) (m : Node), i < j → (build f).nodes[j]? = some m → m.kind = .internal →
        before (build f).nodes n.right.toNat m.left.toNat = true)

/-- ROOT's weight is the sum of all counts, below 2^39, so no addition of weights overflows (R95 b, R98). -/
def Obligations.RootWeightIsTheTotalCount : Prop :=
  ∀ f : FreqTable, LegalTable f → (∃ x, freqAt f x ≠ 0) →
    weightAt (build f).nodes (build f).root.toNat = freqSum f ∧ freqSum f < 2 ^ 39

/-! ## The Code Table Deriver -/

/-- DERIVE with a valid tree and no session open completes: it stores every symbol's code, or no code, releases the tree
and changes nothing else (R119, R120). What arena entries hold afterwards is left open here. The invariant of R47 is a
premise, because the spec gives DERIVE a result only on a tree that BUILD makes (log entry 6). -/
def Obligations.DeriveStoresEveryCode : Prop :=
  ∀ s : State, s.toBlock.Inv → s.err = .none → s.mode = .idle → s.treeValid = true →
    ∃ t, exec .derive s = .next t ∧
      t = { s with node := t.node, nnode := 0, root := 0x1FF#9, treeValid := false, code := t.code, codeValid := true } ∧
      ∀ x, match codeOf (treeCodes s.node s.root) x with
        | none => codeAt t.code x = ⟨0, 0⟩
        | some ds => (codeAt t.code x).len.toNat = ds.length ∧ (codeAt t.code x).bits.toNat = digitsValue ds

/-- The code of a symbol is the path from ROOT to its leaf, 0 for left and 1 for right (R111, R112). -/
def Obligations.CodesAreRootToLeafPaths : Prop :=
  ∀ f : FreqTable, LegalTable f → ∀ (x : Symbol) (ds : List Digit),
    codesFor f x = some ds ↔
      ∃ n, follow (arenaOf (build f).nodes) (build f).root ds = some n ∧ n.kind = .leaf ∧ n.sym = x

/-- R113: a present symbol is assigned a code exactly once, an absent one never. -/
def Obligations.EveryPresentSymbolGetsOneCode : Prop :=
  ∀ f : FreqTable, LegalTable f → ∀ x : Symbol,
    (treeCodes (arenaOf (build f).nodes) (build f).root).countP (fun c => c.1 == x) =
      if freqAt f x = 0 then 0 else 1

/-- The code table of any legal Frequency Table is prefix-free (R114). -/
def Obligations.DerivedTableIsPrefixFree : Prop :=
  ∀ f : FreqTable, LegalTable f → PrefixFree (tableFor f)

/-- Code lengths: at least 1, at most n - 1 for n >= 2 symbols and never above 255, and the stored entry holds exactly the
code, bits LEN to 255 zero (R28, R115, R116). -/
def Obligations.CodeLengthBounds : Prop :=
  ∀ f : FreqTable, LegalTable f → ∀ (x : Symbol) (ds : List Digit), codesFor f x = some ds →
    1 ≤ ds.length ∧ (2 ≤ presentCount f → ds.length ≤ presentCount f - 1) ∧ ds.length ≤ 255 ∧
    (codeAt (tableFor f) x).len.toNat = ds.length ∧ (codeAt (tableFor f) x).digits = ds ∧
    ∀ i, ds.length ≤ i → (codeAt (tableFor f) x).bits.getLsbD i = false

/-- A symbol that occurs more often never has the longer code (R118, which the spec marks as general knowledge on which no
rule depends). -/
def Obligations.MoreFrequentSymbolsHaveNoLongerCodes : Prop :=
  ∀ f : FreqTable, LegalTable f → ∀ (x y : Symbol) (dx dy : List Digit),
    codesFor f x = some dx → codesFor f y = some dy → (freqAt f y).toNat < (freqAt f x).toNat → dx.length ≤ dy.length

/-! ## The Bit Packer -/

/-- R131: PACK_BEGIN is the command word 3; with no session open and a valid table it opens one with an empty buffer; else
it raises BAD_SEQ. -/
def Obligations.PackBeginOpensASession : Prop :=
  decodeTableWord 46 0x200000000003 = some .packBegin ∧
  ∀ s : State, s.err = .none →
    (s.mode = .idle → s.codeValid = true →
      exec .packBegin s = .next { s with acc := 0, accN := 0, pbitcnt := 0, mode := .pack }) ∧
    (s.mode ≠ .idle ∨ s.codeValid = false →
      exec .packBegin s = .next { s with err := .badSeq, errinfo := 0x03 })

/-- R137, and what the beats are: PUSHP of a byte with a code appends the code's digits to those waiting in ACC; whole
bytes leave on POUT, digit 0 in bit 0, and the rest waits in ACC; PBITCNT grows by the code's length; nothing else
changes. The upper bits of ACC stay 0. -/
def Obligations.PushpAppendsTheCode : Prop :=
  ∀ (s : State) (v : Word), s.err = .none → s.mode = .pack → (codeAt s.code (v.extractLsb' 0 8)).len ≠ 0 →
    s.pbitcnt.toNat + (codeAt s.code (v.extractLsb' 0 8)).len.toNat ≤ 0x7FFFFFFF →
    ∃ (t : State) (beats : List Byte), exec (.pushp v) s = .next t ∧
      t = { s with acc := t.acc, accN := t.accN, pbitcnt := t.pbitcnt, pout := s.pout ++ beats } ∧
      t.pbitcnt.toNat = s.pbitcnt.toNat + (codeAt s.code (v.extractLsb' 0 8)).len.toNat ∧
      beats.length = (s.accN.toNat + (codeAt s.code (v.extractLsb' 0 8)).len.toNat) / 8 ∧ beats.length ≤ 32 ∧
      t.accN.toNat = (s.accN.toNat + (codeAt s.code (v.extractLsb' 0 8)).len.toNat) % 8 ∧
      (beats.flatMap fun y => (List.range 8).map y.getLsbD) ++ accDigits t.acc t.accN =
        accDigits s.acc s.accN ++ (codeAt s.code (v.extractLsb' 0 8)).digits ∧
      ((∀ i, s.accN.toNat ≤ i → s.acc.getLsbD i = false) → ∀ i, t.accN.toNat ≤ i → t.acc.getLsbD i = false)

/-- R134, R136, and NO_CODE: a PUSHP outside a pack session, of a byte without a code, or past the largest bit count is
refused whole, in this order of precedence. -/
def Obligations.PushpRefusals : Prop :=
  ∀ (s : State) (v : Word), s.err = .none →
    (s.mode ≠ .pack → exec (.pushp v) s = .next { s with err := .badSeq, errinfo := v.extractLsb' 0 8 }) ∧
    (s.mode = .pack → (codeAt s.code (v.extractLsb' 0 8)).len = 0 →
      exec (.pushp v) s = .next { s with err := .noCode, errinfo := v.extractLsb' 0 8 }) ∧
    (s.mode = .pack → (codeAt s.code (v.extractLsb' 0 8)).len ≠ 0 →
      s.pbitcnt.toNat + (codeAt s.code (v.extractLsb' 0 8)).len.toNat > 0x7FFFFFFF →
      exec (.pushp v) s = .next { s with err := .countOvf, errinfo := v.extractLsb' 0 8 })

/-- R138: PACK_END is the command word 4; in a pack session it emits the partial byte, if any, and closes the session,
PBITCNT unchanged; else it raises BAD_SEQ. -/
def Obligations.PackEndClosesTheSession : Prop :=
  decodeTableWord 46 0x200000000004 = some .packEnd ∧
  ∀ s : State, s.err = .none →
    (s.mode = .pack → s.accN.toNat > 0 →
      exec .packEnd s = .next { s with acc := 0, accN := 0, mode := .idle, pout := s.pout ++ [s.acc] }) ∧
    (s.mode = .pack → s.accN = 0 → exec .packEnd s = .next { s with acc := 0, accN := 0, mode := .idle }) ∧
    (s.mode ≠ .pack → exec .packEnd s = .next { s with err := .badSeq, errinfo := 0x04 })

/-- The bits of a payload: digit `j` in bit `j mod 8` of byte `j div 8`, ceil(bit_count / 8) bytes, padding 0 (R59, R126,
R127, R129, R130). For an input with a byte without a code it rests on the model's choice (log entry 19). -/
def Obligations.PayloadBitsAreTheDigits : Prop :=
  ∀ (bytes : List Byte) (c : CodeTable),
    (pack bytes c).1.length = ((pack bytes c).2 + 7) / 8 ∧
    ∀ j, j < 8 * (pack bytes c).1.length →
      ((pack bytes c).1.getD (j / 8) 0).getLsbD (j % 8) = (codeDigits c bytes).getD j false

/-- The bit count is the sum of the code lengths over the input, and, counted by symbol, the sum of count times code length
(R128). For an input with a byte without a code it rests on the model's choice (log entry 19). -/
def Obligations.BitCountIsTheSumOfCodeLengths : Prop :=
  ∀ (bytes : List Byte) (c : CodeTable),
    (pack bytes c).2 = (bytes.map fun b => (codeAt c b).len.toNat).sum ∧
    (pack bytes c).2 = (allSymbols.map fun x => bytes.count x * (codeAt c x).len.toNat).sum

/-- R132, the session law of the Packer: PACK_BEGIN, PIN writes and PACK_END with any neutral transactions between emit
exactly the payload of `pack` and leave PBITCNT at its bit count; before PACK_END the session waits without a fault (R207 b),
the whole bytes so far have left and ACC holds the digits that are waiting. -/
def Obligations.PackSessionComputesPack : Prop :=
  ∀ (s : State) (ts : List Txn), s.err = .none → s.mode = .idle → s.codeValid = true →
    (∀ t ∈ ts, isNeutral t = true ∨ (pushedByte addrPin t).isSome = true) →
    (∀ b ∈ ts.filterMap (pushedByte addrPin), (codeAt s.code b).len ≠ 0) →
    (pack (ts.filterMap (pushedByte addrPin)) s.code).2 ≤ 0x7FFFFFFF →
    (∃ t, runSteps (ts.length + 1) (s.offering (encode .packBegin :: ts)) = .next t ∧
      t.toBlock.packOpen ∧ t.code = s.code ∧ t.uout = s.uout ∧
      t.pbitcnt.toNat = (pack (ts.filterMap (pushedByte addrPin)) s.code).2 ∧
      t.pout = s.pout ++ (pack (ts.filterMap (pushedByte addrPin)) s.code).1.take (t.pbitcnt.toNat / 8) ∧
      accDigits t.acc t.accN =
        (codeDigits s.code (ts.filterMap (pushedByte addrPin))).drop (8 * (t.pbitcnt.toNat / 8))) ∧
    (∃ t, runSteps (ts.length + 2) (s.offering (encode .packBegin :: ts ++ [encode .packEnd])) = .next t ∧
      t.err = .none ∧ t.mode = .idle ∧ t.code = s.code ∧ t.uout = s.uout ∧
      t.pout = s.pout ++ (pack (ts.filterMap (pushedByte addrPin)) s.code).1 ∧
      t.pbitcnt.toNat = (pack (ts.filterMap (pushedByte addrPin)) s.code).2)

/-! ## The Bit Unpacker -/

/-- R152, R151: UNPACK_BEGIN is the command word 5; with no session open and a non-negative count it opens a session of
that many digits, or none for 0; else it raises BAD_SEQ, or BAD_COUNT. -/
def Obligations.UnpackBeginOpensASession : Prop :=
  decodeTableWord 46 0x200000000005 = some .unpackBegin ∧
  ∀ s : State, s.err = .none →
    (s.mode = .idle → s.ubitcnt.getLsbD 31 = false →
      exec .unpackBegin s =
        .next { s with urem := s.ubitcnt, mode := if s.ubitcnt = 0 then .idle else .unpack }) ∧
    (s.mode ≠ .idle → exec .unpackBegin s = .next { s with err := .badSeq, errinfo := 0x05 }) ∧
    (s.mode = .idle → s.ubitcnt.getLsbD 31 = true →
      exec .unpackBegin s = .next { s with err := .badCount, errinfo := 0x05 })

/-- R153 to R155: PUSHU in an unpack session delivers min(8, UREM) digits, bit 0 of the byte first, and the session ends
with the last; outside one it raises BAD_SEQ. It is any write to word address 0x0006; DATA[31:8] is ignored. -/
def Obligations.PushuDeliversDigits : Prop :=
  ∀ (s : State) (v : Word), decode (.write 0x0006#13 v) = .ok (.pushu v) ∧ (s.err = .none →
    (s.mode = .unpack → ∃ t, exec (.pushu v) s = .next t ∧
      t = { s with urem := t.urem, mode := t.mode, uout := t.uout } ∧
      t.uout = s.uout ++ (List.range (min 8 s.urem.toNat)).map v.getLsbD ∧
      t.urem.toNat = s.urem.toNat - min 8 s.urem.toNat ∧
      t.mode = if t.urem.toNat = 0 then .idle else .unpack) ∧
    (s.mode ≠ .unpack → exec (.pushu v) s = .next { s with err := .badSeq, errinfo := v.extractLsb' 0 8 }))

/-- R150, the session law of the Unpacker: UNPACK_BEGIN and UIN writes, with any neutral transactions between (writes of
UBITCNT among them), deliver exactly the digits of `unpack`; after the k-th byte UREM is c - min(c, 8k), and MODE is back
at IDLE with the last byte needed and not before: the run is then complete (R14, R154), and until then the session waits
without a fault (R207 a). -/
def Obligations.UnpackSessionComputesUnpack : Prop :=
  ∀ (s : State) (ts : List Txn), s.err = .none → s.mode = .idle → s.ubitcnt.toNat ≤ 0x7FFFFFFF →
    (∀ t ∈ ts, isNeutral t = true ∨ (pushedByte addrUin t).isSome = true) →
    (ts.filterMap (pushedByte addrUin)).length ≤ (s.ubitcnt.toNat + 7) / 8 →
    ∃ t, runSteps (ts.length + 1) (s.offering (encode .unpackBegin :: ts)) = .next t ∧
      t.err = .none ∧ t.pout = s.pout ∧
      t.uout = s.uout ++ unpack (ts.filterMap (pushedByte addrUin))
        (min s.ubitcnt.toNat (8 * (ts.filterMap (pushedByte addrUin)).length)) ∧
      t.urem.toNat = s.ubitcnt.toNat - min s.ubitcnt.toNat (8 * (ts.filterMap (pushedByte addrUin)).length) ∧
      t.mode = (if (ts.filterMap (pushedByte addrUin)).length = (s.ubitcnt.toNat + 7) / 8 then .idle else .unpack) ∧
      if (ts.filterMap (pushedByte addrUin)).length = (s.ubitcnt.toNat + 7) / 8 then t.toBlock.unpackComplete
      else t.toBlock.unpackOpenSession

/-- Unpacking what was packed gives the concatenation of the codes, whatever the padding bits have become (R148). For an input
with a byte without a code it rests on the model's choice (log entry 19). -/
def Obligations.UnpackInvertsPack : Prop :=
  ∀ (bytes : List Byte) (c : CodeTable),
    unpack (pack bytes c).1 (pack bytes c).2 = codeDigits c bytes ∧
    ∀ p : List Byte, p.length = (pack bytes c).1.length →
      (∀ j, j < (pack bytes c).2 → (p.getD (j / 8) 0).getLsbD (j % 8) = ((pack bytes c).1.getD (j / 8) 0).getLsbD (j % 8)) →
      unpack p (pack bytes c).2 = codeDigits c bytes

/-! ## Faults -/

/-- R201: while ERR is not 0, CLR is performed, every other write changes nothing, and reads return the state. -/
def Obligations.FaultedBlockIsQuiescent : Prop :=
  ∀ (s : State) (rest : List Event), s.err ≠ .none →
    (s.pending = .txn (.write addrCmd 0x00000006) :: rest →
      step s = .next { s with toBlock := Block.reset, pending := rest }) ∧
    (∀ (a : Addr) (v : Word), s.pending = .txn (.write a v) :: rest → ¬ (a = addrCmd ∧ v = 0x00000006) →
      step s = .next { s with pending := rest }) ∧
    (∀ a : Addr, s.pending = .txn (.read a) :: rest →
      step s = .next { s with pending := rest, rdata := s.rdata ++ [portRead s.toBlock a] })

/-- R200: whatever step raises a fault, it changes ERR and ERRINFO and nothing else of the block or the streams. -/
def Obligations.AFaultChangesOnlyErr : Prop :=
  ∀ s t : State, s.err = .none → step s = .next t → t.err ≠ .none →
    t = { s with pending := s.pending.tail, err := t.err, errinfo := t.errinfo }

/-- R203, R204: a standing fault and its information stay until CLR or reset, which put every element at its reset
value. -/
def Obligations.AFaultStandsUntilClrOrReset : Prop :=
  ∀ s t : State, s.err ≠ .none → step s = .next t →
    (t.err = s.err ∧ t.errinfo = s.errinfo) ∨
    (t.toBlock = Block.reset ∧
      ∃ rest, s.pending = .reset :: rest ∨ s.pending = .txn (encode .clr) :: rest)

/-- R197, R198: which fault an instruction raises, the first cause in the order of precedence; an instruction none of whose
causes holds raises none. -/
def Obligations.FaultsFollowTheTable : Prop :=
  ∀ (i : Instr) (s : State), s.err = .none →
    (∀ code info, faultOf i s = some (code, info) → exec i s = .next { s with err := code, errinfo := info }) ∧
    (faultOf i s = none → ∃ t, exec i s = .next t ∧ t.err = .none)

/-! ## The whole machine -/

/-- R47 holds after reset. -/
def Obligations.ResetSatisfiesTheInvariant : Prop := State.reset.toBlock.Inv

/-- R47, with R23: every step keeps the invariants of the state. -/
def Obligations.EveryStepKeepsTheInvariant : Prop :=
  ∀ s t : State, s.toBlock.Inv → step s = .next t → t.toBlock.Inv

/-- Who may write the arrays and the degenerate-alphabet flags (R21, R22, R26, R27, R65): FREQ only WRFREQ, CODE only
DERIVE, NODE only BUILD and DERIVE, EMPTY and SINGLE only BUILD, and CLR and reset each of them. -/
def Obligations.OnlyTheNamedStepsWriteTheTables : Prop :=
  ∀ s t : State, step s = .next t →
    (t.freq ≠ s.freq → ∃ e rest, s.pending = e :: rest ∧
      (e = .reset ∨ e = .txn (encode .clr) ∨ ∃ x v, e = .txn (encode (.wrfreq x v)))) ∧
    (t.code ≠ s.code → ∃ e rest, s.pending = e :: rest ∧
      (e = .reset ∨ e = .txn (encode .clr) ∨ e = .txn (encode .derive))) ∧
    (t.node ≠ s.node → ∃ e rest, s.pending = e :: rest ∧
      (e = .reset ∨ e = .txn (encode .clr) ∨ e = .txn (encode .build) ∨ e = .txn (encode .derive))) ∧
    (t.empty ≠ s.empty ∨ t.single ≠ s.single → ∃ e rest, s.pending = e :: rest ∧
      (e = .reset ∨ e = .txn (encode .clr) ∨ e = .txn (encode .build)))

/-- The streams are append-only, and only the transactions the spec names append to them: POUT only PUSHP and PACK_END,
UOUT only PUSHU, and read data only reads (R55, R62). That read data is kept as a history is the model's choice (log
entry 2). -/
def Obligations.StreamsOnlyGrow : Prop :=
  ∀ s t : State, step s = .next t →
    s.pout <+: t.pout ∧ s.uout <+: t.uout ∧ s.rdata <+: t.rdata ∧
    (t.pout ≠ s.pout → ∃ e rest, s.pending = e :: rest ∧
      (e = .txn (encode .packEnd) ∨ ∃ v, e = .txn (encode (.pushp v)))) ∧
    (t.uout ≠ s.uout → ∃ rest v, s.pending = .txn (encode (.pushu v)) :: rest) ∧
    (t.rdata ≠ s.rdata → ∃ rest a, s.pending = .txn (.read a) :: rest)

/-! ## Block and host together -/

/-- With a prefix-free table the decoder recovers the bytes from the concatenation of their codes (R163). -/
def Obligations.DecoderRecoversTheBytes : Prop :=
  ∀ (c : CodeTable) (bytes : List Byte), PrefixFree c → (∀ b ∈ bytes, (codeAt c b).len ≠ 0) →
    decodeDigits c (codeDigits c bytes) = (bytes, [])

/-- Walking the tree decodes the same digits to the same bytes (R164). -/
def Obligations.TreeWalkDecoderRecoversTheBytes : Prop :=
  ∀ (f : FreqTable) (bytes : List Byte), LegalTable f → (∀ b ∈ bytes, freqAt f b ≠ 0) →
    treeDecode (build f) (codeDigits (tableFor f) bytes) = some bytes

/-- A header is 1028 bytes, the bit count in bytes 0 to 3 and the count of symbol x in bytes 4 + 4x to 7 + 4x, and reading
it back gives what was written, in either byte order (R165, R167). Byte `k` of a little-endian integer is its bits 8k + 7 to
8k, and the big-endian bytes are those in reverse. That little-endian is the default is log entry 14. -/
def Obligations.HeaderReadsBack : Prop :=
  ∀ (o : ByteOrder) (c : Word) (f : FreqTable),
    (∀ v : Word, (wordBytes o v).length = 4 ∧ ∀ k < 4,
      (wordBytes .little v)[k]? = some (v.extractLsb' (8 * k) 8) ∧
      (wordBytes .big v)[k]? = some (v.extractLsb' (8 * (3 - k)) 8)) ∧
    (headerBytes o c f).length = 1028 ∧ (headerBytes o c f).take 4 = wordBytes o c ∧
    (∀ x : Symbol, ((headerBytes o c f).drop (4 + 4 * x.toNat)).take 4 = wordBytes o (freqAt f x)) ∧
    parseHeader o (headerBytes o c f) = some (c, f)

/-- The entries of a scanned table add up to the length of the input (R160, R161). -/
def Obligations.ScannedCountsSumToTheLength : Prop :=
  ∀ bytes : List Byte, (∀ x, symbolCount bytes x ≤ 0x7FFFFFFF) →
    (∀ x, (freqAt (freqScan bytes) x).toNat = symbolCount bytes x) ∧ freqSum (freqScan bytes) = bytes.length

/-- Compressing any input the format can carry (R161) succeeds, from any state of the block, and decompressing the artifacts,
on a block in any state, gives the input back (R168, R169, R172). That each flow starts with CLR, where the spec also allows a known
clean state, is the model's choice (log entry 15), and it is why the state before does not matter. -/
def Obligations.DecompressInvertsCompress : Prop :=
  ∀ (o : ByteOrder) (bytes : List Byte), WithinFormat bytes → ∀ s1 s2 : State,
    ∃ (a : Artifacts) (t1 t2 : State), compress o (some bytes) s1 = .ok (a, t1) ∧
      decompress o (some a.header) (some a.data) s2 = .ok (bytes, t2)
end

