-- ==== Sys2Proof/Laws/State.lean ====
section
/-! SUPPORT. What each named update of the state does to each field: one lemma per field and update, true by `rfl`. -/

namespace Sys2Proof.Machine

variable (s : State)

/-! ## raiseFault -/

@[simp] theorem raiseFault_freq (c : ErrCode) (i : Byte) : (raiseFault c i s).freq = s.freq := rfl
@[simp] theorem raiseFault_node (c : ErrCode) (i : Byte) : (raiseFault c i s).node = s.node := rfl
@[simp] theorem raiseFault_nnode (c : ErrCode) (i : Byte) : (raiseFault c i s).nnode = s.nnode := rfl
@[simp] theorem raiseFault_root (c : ErrCode) (i : Byte) : (raiseFault c i s).root = s.root := rfl
@[simp] theorem raiseFault_treeValid (c : ErrCode) (i : Byte) : (raiseFault c i s).treeValid = s.treeValid := rfl
@[simp] theorem raiseFault_empty (c : ErrCode) (i : Byte) : (raiseFault c i s).empty = s.empty := rfl
@[simp] theorem raiseFault_single (c : ErrCode) (i : Byte) : (raiseFault c i s).single = s.single := rfl
@[simp] theorem raiseFault_code (c : ErrCode) (i : Byte) : (raiseFault c i s).code = s.code := rfl
@[simp] theorem raiseFault_codeValid (c : ErrCode) (i : Byte) : (raiseFault c i s).codeValid = s.codeValid := rfl
@[simp] theorem raiseFault_acc (c : ErrCode) (i : Byte) : (raiseFault c i s).acc = s.acc := rfl
@[simp] theorem raiseFault_accN (c : ErrCode) (i : Byte) : (raiseFault c i s).accN = s.accN := rfl
@[simp] theorem raiseFault_pbitcnt (c : ErrCode) (i : Byte) : (raiseFault c i s).pbitcnt = s.pbitcnt := rfl
@[simp] theorem raiseFault_ubitcnt (c : ErrCode) (i : Byte) : (raiseFault c i s).ubitcnt = s.ubitcnt := rfl
@[simp] theorem raiseFault_urem (c : ErrCode) (i : Byte) : (raiseFault c i s).urem = s.urem := rfl
@[simp] theorem raiseFault_mode (c : ErrCode) (i : Byte) : (raiseFault c i s).mode = s.mode := rfl
@[simp] theorem raiseFault_err (c : ErrCode) (i : Byte) : (raiseFault c i s).err = c := rfl
@[simp] theorem raiseFault_errinfo (c : ErrCode) (i : Byte) : (raiseFault c i s).errinfo = i := rfl
@[simp] theorem raiseFault_pending (c : ErrCode) (i : Byte) : (raiseFault c i s).pending = s.pending := rfl
@[simp] theorem raiseFault_rdata (c : ErrCode) (i : Byte) : (raiseFault c i s).rdata = s.rdata := rfl
@[simp] theorem raiseFault_pout (c : ErrCode) (i : Byte) : (raiseFault c i s).pout = s.pout := rfl
@[simp] theorem raiseFault_uout (c : ErrCode) (i : Byte) : (raiseFault c i s).uout = s.uout := rfl

/-! ## clearBlock -/

@[simp] theorem clearBlock_freq : (clearBlock s).freq = Block.reset.freq := rfl
@[simp] theorem clearBlock_node : (clearBlock s).node = Block.reset.node := rfl
@[simp] theorem clearBlock_nnode : (clearBlock s).nnode = Block.reset.nnode := rfl
@[simp] theorem clearBlock_root : (clearBlock s).root = Block.reset.root := rfl
@[simp] theorem clearBlock_treeValid : (clearBlock s).treeValid = Block.reset.treeValid := rfl
@[simp] theorem clearBlock_empty : (clearBlock s).empty = Block.reset.empty := rfl
@[simp] theorem clearBlock_single : (clearBlock s).single = Block.reset.single := rfl
@[simp] theorem clearBlock_code : (clearBlock s).code = Block.reset.code := rfl
@[simp] theorem clearBlock_codeValid : (clearBlock s).codeValid = Block.reset.codeValid := rfl
@[simp] theorem clearBlock_acc : (clearBlock s).acc = Block.reset.acc := rfl
@[simp] theorem clearBlock_accN : (clearBlock s).accN = Block.reset.accN := rfl
@[simp] theorem clearBlock_pbitcnt : (clearBlock s).pbitcnt = Block.reset.pbitcnt := rfl
@[simp] theorem clearBlock_ubitcnt : (clearBlock s).ubitcnt = Block.reset.ubitcnt := rfl
@[simp] theorem clearBlock_urem : (clearBlock s).urem = Block.reset.urem := rfl
@[simp] theorem clearBlock_mode : (clearBlock s).mode = Block.reset.mode := rfl
@[simp] theorem clearBlock_err : (clearBlock s).err = Block.reset.err := rfl
@[simp] theorem clearBlock_errinfo : (clearBlock s).errinfo = Block.reset.errinfo := rfl
@[simp] theorem clearBlock_pending : (clearBlock s).pending = s.pending := rfl
@[simp] theorem clearBlock_rdata : (clearBlock s).rdata = s.rdata := rfl
@[simp] theorem clearBlock_pout : (clearBlock s).pout = s.pout := rfl
@[simp] theorem clearBlock_uout : (clearBlock s).uout = s.uout := rfl

/-! ## respond -/

@[simp] theorem respond_freq (v : Word) : (respond v s).freq = s.freq := rfl
@[simp] theorem respond_node (v : Word) : (respond v s).node = s.node := rfl
@[simp] theorem respond_nnode (v : Word) : (respond v s).nnode = s.nnode := rfl
@[simp] theorem respond_root (v : Word) : (respond v s).root = s.root := rfl
@[simp] theorem respond_treeValid (v : Word) : (respond v s).treeValid = s.treeValid := rfl
@[simp] theorem respond_empty (v : Word) : (respond v s).empty = s.empty := rfl
@[simp] theorem respond_single (v : Word) : (respond v s).single = s.single := rfl
@[simp] theorem respond_code (v : Word) : (respond v s).code = s.code := rfl
@[simp] theorem respond_codeValid (v : Word) : (respond v s).codeValid = s.codeValid := rfl
@[simp] theorem respond_acc (v : Word) : (respond v s).acc = s.acc := rfl
@[simp] theorem respond_accN (v : Word) : (respond v s).accN = s.accN := rfl
@[simp] theorem respond_pbitcnt (v : Word) : (respond v s).pbitcnt = s.pbitcnt := rfl
@[simp] theorem respond_ubitcnt (v : Word) : (respond v s).ubitcnt = s.ubitcnt := rfl
@[simp] theorem respond_urem (v : Word) : (respond v s).urem = s.urem := rfl
@[simp] theorem respond_mode (v : Word) : (respond v s).mode = s.mode := rfl
@[simp] theorem respond_err (v : Word) : (respond v s).err = s.err := rfl
@[simp] theorem respond_errinfo (v : Word) : (respond v s).errinfo = s.errinfo := rfl
@[simp] theorem respond_pending (v : Word) : (respond v s).pending = s.pending := rfl
@[simp] theorem respond_rdata (v : Word) : (respond v s).rdata = s.rdata ++ [v] := rfl
@[simp] theorem respond_pout (v : Word) : (respond v s).pout = s.pout := rfl
@[simp] theorem respond_uout (v : Word) : (respond v s).uout = s.uout := rfl

/-! ## emitPout -/

@[simp] theorem emitPout_freq (ys : List Byte) : (emitPout ys s).freq = s.freq := rfl
@[simp] theorem emitPout_node (ys : List Byte) : (emitPout ys s).node = s.node := rfl
@[simp] theorem emitPout_nnode (ys : List Byte) : (emitPout ys s).nnode = s.nnode := rfl
@[simp] theorem emitPout_root (ys : List Byte) : (emitPout ys s).root = s.root := rfl
@[simp] theorem emitPout_treeValid (ys : List Byte) : (emitPout ys s).treeValid = s.treeValid := rfl
@[simp] theorem emitPout_empty (ys : List Byte) : (emitPout ys s).empty = s.empty := rfl
@[simp] theorem emitPout_single (ys : List Byte) : (emitPout ys s).single = s.single := rfl
@[simp] theorem emitPout_code (ys : List Byte) : (emitPout ys s).code = s.code := rfl
@[simp] theorem emitPout_codeValid (ys : List Byte) : (emitPout ys s).codeValid = s.codeValid := rfl
@[simp] theorem emitPout_acc (ys : List Byte) : (emitPout ys s).acc = s.acc := rfl
@[simp] theorem emitPout_accN (ys : List Byte) : (emitPout ys s).accN = s.accN := rfl
@[simp] theorem emitPout_pbitcnt (ys : List Byte) : (emitPout ys s).pbitcnt = s.pbitcnt := rfl
@[simp] theorem emitPout_ubitcnt (ys : List Byte) : (emitPout ys s).ubitcnt = s.ubitcnt := rfl
@[simp] theorem emitPout_urem (ys : List Byte) : (emitPout ys s).urem = s.urem := rfl
@[simp] theorem emitPout_mode (ys : List Byte) : (emitPout ys s).mode = s.mode := rfl
@[simp] theorem emitPout_err (ys : List Byte) : (emitPout ys s).err = s.err := rfl
@[simp] theorem emitPout_errinfo (ys : List Byte) : (emitPout ys s).errinfo = s.errinfo := rfl
@[simp] theorem emitPout_pending (ys : List Byte) : (emitPout ys s).pending = s.pending := rfl
@[simp] theorem emitPout_rdata (ys : List Byte) : (emitPout ys s).rdata = s.rdata := rfl
@[simp] theorem emitPout_pout (ys : List Byte) : (emitPout ys s).pout = s.pout ++ ys := rfl
@[simp] theorem emitPout_uout (ys : List Byte) : (emitPout ys s).uout = s.uout := rfl

/-! ## emitUout -/

@[simp] theorem emitUout_freq (ds : List Digit) : (emitUout ds s).freq = s.freq := rfl
@[simp] theorem emitUout_node (ds : List Digit) : (emitUout ds s).node = s.node := rfl
@[simp] theorem emitUout_nnode (ds : List Digit) : (emitUout ds s).nnode = s.nnode := rfl
@[simp] theorem emitUout_root (ds : List Digit) : (emitUout ds s).root = s.root := rfl
@[simp] theorem emitUout_treeValid (ds : List Digit) : (emitUout ds s).treeValid = s.treeValid := rfl
@[simp] theorem emitUout_empty (ds : List Digit) : (emitUout ds s).empty = s.empty := rfl
@[simp] theorem emitUout_single (ds : List Digit) : (emitUout ds s).single = s.single := rfl
@[simp] theorem emitUout_code (ds : List Digit) : (emitUout ds s).code = s.code := rfl
@[simp] theorem emitUout_codeValid (ds : List Digit) : (emitUout ds s).codeValid = s.codeValid := rfl
@[simp] theorem emitUout_acc (ds : List Digit) : (emitUout ds s).acc = s.acc := rfl
@[simp] theorem emitUout_accN (ds : List Digit) : (emitUout ds s).accN = s.accN := rfl
@[simp] theorem emitUout_pbitcnt (ds : List Digit) : (emitUout ds s).pbitcnt = s.pbitcnt := rfl
@[simp] theorem emitUout_ubitcnt (ds : List Digit) : (emitUout ds s).ubitcnt = s.ubitcnt := rfl
@[simp] theorem emitUout_urem (ds : List Digit) : (emitUout ds s).urem = s.urem := rfl
@[simp] theorem emitUout_mode (ds : List Digit) : (emitUout ds s).mode = s.mode := rfl
@[simp] theorem emitUout_err (ds : List Digit) : (emitUout ds s).err = s.err := rfl
@[simp] theorem emitUout_errinfo (ds : List Digit) : (emitUout ds s).errinfo = s.errinfo := rfl
@[simp] theorem emitUout_pending (ds : List Digit) : (emitUout ds s).pending = s.pending := rfl
@[simp] theorem emitUout_rdata (ds : List Digit) : (emitUout ds s).rdata = s.rdata := rfl
@[simp] theorem emitUout_pout (ds : List Digit) : (emitUout ds s).pout = s.pout := rfl
@[simp] theorem emitUout_uout (ds : List Digit) : (emitUout ds s).uout = s.uout ++ ds := rfl

/-! ## installTree -/

@[simp] theorem installTree_freq (t : HuffTree) (n : Nat) : (installTree t n s).freq = s.freq := rfl
@[simp] theorem installTree_node (t : HuffTree) (n : Nat) : (installTree t n s).node = arenaOf t.nodes := rfl
@[simp] theorem installTree_nnode (t : HuffTree) (n : Nat) : (installTree t n s).nnode = BitVec.ofNat 10 t.nodes.length := rfl
@[simp] theorem installTree_root (t : HuffTree) (n : Nat) : (installTree t n s).root = t.root := rfl
@[simp] theorem installTree_treeValid (t : HuffTree) (n : Nat) : (installTree t n s).treeValid = true := rfl
@[simp] theorem installTree_empty (t : HuffTree) (n : Nat) : (installTree t n s).empty = (n == 0) := rfl
@[simp] theorem installTree_single (t : HuffTree) (n : Nat) : (installTree t n s).single = (n == 1) := rfl
@[simp] theorem installTree_code (t : HuffTree) (n : Nat) : (installTree t n s).code = s.code := rfl
@[simp] theorem installTree_codeValid (t : HuffTree) (n : Nat) : (installTree t n s).codeValid = false := rfl
@[simp] theorem installTree_acc (t : HuffTree) (n : Nat) : (installTree t n s).acc = s.acc := rfl
@[simp] theorem installTree_accN (t : HuffTree) (n : Nat) : (installTree t n s).accN = s.accN := rfl
@[simp] theorem installTree_pbitcnt (t : HuffTree) (n : Nat) : (installTree t n s).pbitcnt = s.pbitcnt := rfl
@[simp] theorem installTree_ubitcnt (t : HuffTree) (n : Nat) : (installTree t n s).ubitcnt = s.ubitcnt := rfl
@[simp] theorem installTree_urem (t : HuffTree) (n : Nat) : (installTree t n s).urem = s.urem := rfl
@[simp] theorem installTree_mode (t : HuffTree) (n : Nat) : (installTree t n s).mode = s.mode := rfl
@[simp] theorem installTree_err (t : HuffTree) (n : Nat) : (installTree t n s).err = s.err := rfl
@[simp] theorem installTree_errinfo (t : HuffTree) (n : Nat) : (installTree t n s).errinfo = s.errinfo := rfl
@[simp] theorem installTree_pending (t : HuffTree) (n : Nat) : (installTree t n s).pending = s.pending := rfl
@[simp] theorem installTree_rdata (t : HuffTree) (n : Nat) : (installTree t n s).rdata = s.rdata := rfl
@[simp] theorem installTree_pout (t : HuffTree) (n : Nat) : (installTree t n s).pout = s.pout := rfl
@[simp] theorem installTree_uout (t : HuffTree) (n : Nat) : (installTree t n s).uout = s.uout := rfl

/-! ## installCodes -/

@[simp] theorem installCodes_freq (t : CodeTable) : (installCodes t s).freq = s.freq := rfl
@[simp] theorem installCodes_node (t : CodeTable) : (installCodes t s).node = arenaOf [] := rfl
@[simp] theorem installCodes_nnode (t : CodeTable) : (installCodes t s).nnode = 0 := rfl
@[simp] theorem installCodes_root (t : CodeTable) : (installCodes t s).root = Config.none := rfl
@[simp] theorem installCodes_treeValid (t : CodeTable) : (installCodes t s).treeValid = false := rfl
@[simp] theorem installCodes_empty (t : CodeTable) : (installCodes t s).empty = s.empty := rfl
@[simp] theorem installCodes_single (t : CodeTable) : (installCodes t s).single = s.single := rfl
@[simp] theorem installCodes_code (t : CodeTable) : (installCodes t s).code = t := rfl
@[simp] theorem installCodes_codeValid (t : CodeTable) : (installCodes t s).codeValid = true := rfl
@[simp] theorem installCodes_acc (t : CodeTable) : (installCodes t s).acc = s.acc := rfl
@[simp] theorem installCodes_accN (t : CodeTable) : (installCodes t s).accN = s.accN := rfl
@[simp] theorem installCodes_pbitcnt (t : CodeTable) : (installCodes t s).pbitcnt = s.pbitcnt := rfl
@[simp] theorem installCodes_ubitcnt (t : CodeTable) : (installCodes t s).ubitcnt = s.ubitcnt := rfl
@[simp] theorem installCodes_urem (t : CodeTable) : (installCodes t s).urem = s.urem := rfl
@[simp] theorem installCodes_mode (t : CodeTable) : (installCodes t s).mode = s.mode := rfl
@[simp] theorem installCodes_err (t : CodeTable) : (installCodes t s).err = s.err := rfl
@[simp] theorem installCodes_errinfo (t : CodeTable) : (installCodes t s).errinfo = s.errinfo := rfl
@[simp] theorem installCodes_pending (t : CodeTable) : (installCodes t s).pending = s.pending := rfl
@[simp] theorem installCodes_rdata (t : CodeTable) : (installCodes t s).rdata = s.rdata := rfl
@[simp] theorem installCodes_pout (t : CodeTable) : (installCodes t s).pout = s.pout := rfl
@[simp] theorem installCodes_uout (t : CodeTable) : (installCodes t s).uout = s.uout := rfl

/-! ## packCode -/

@[simp] theorem packCode_freq (e : CodeEntry) : (packCode e s).freq = s.freq := rfl
@[simp] theorem packCode_node (e : CodeEntry) : (packCode e s).node = s.node := rfl
@[simp] theorem packCode_nnode (e : CodeEntry) : (packCode e s).nnode = s.nnode := rfl
@[simp] theorem packCode_root (e : CodeEntry) : (packCode e s).root = s.root := rfl
@[simp] theorem packCode_treeValid (e : CodeEntry) : (packCode e s).treeValid = s.treeValid := rfl
@[simp] theorem packCode_empty (e : CodeEntry) : (packCode e s).empty = s.empty := rfl
@[simp] theorem packCode_single (e : CodeEntry) : (packCode e s).single = s.single := rfl
@[simp] theorem packCode_code (e : CodeEntry) : (packCode e s).code = s.code := rfl
@[simp] theorem packCode_codeValid (e : CodeEntry) : (packCode e s).codeValid = s.codeValid := rfl
@[simp] theorem packCode_acc (e : CodeEntry) : (packCode e s).acc = (packDigits e.digits s.acc s.accN).acc := rfl
@[simp] theorem packCode_accN (e : CodeEntry) : (packCode e s).accN = (packDigits e.digits s.acc s.accN).accN := rfl
@[simp] theorem packCode_pbitcnt (e : CodeEntry) : (packCode e s).pbitcnt = s.pbitcnt + e.len.setWidth 32 := rfl
@[simp] theorem packCode_ubitcnt (e : CodeEntry) : (packCode e s).ubitcnt = s.ubitcnt := rfl
@[simp] theorem packCode_urem (e : CodeEntry) : (packCode e s).urem = s.urem := rfl
@[simp] theorem packCode_mode (e : CodeEntry) : (packCode e s).mode = s.mode := rfl
@[simp] theorem packCode_err (e : CodeEntry) : (packCode e s).err = s.err := rfl
@[simp] theorem packCode_errinfo (e : CodeEntry) : (packCode e s).errinfo = s.errinfo := rfl
@[simp] theorem packCode_pending (e : CodeEntry) : (packCode e s).pending = s.pending := rfl
@[simp] theorem packCode_rdata (e : CodeEntry) : (packCode e s).rdata = s.rdata := rfl
@[simp] theorem packCode_pout (e : CodeEntry) : (packCode e s).pout = s.pout ++ (packDigits e.digits s.acc s.accN).out := rfl
@[simp] theorem packCode_uout (e : CodeEntry) : (packCode e s).uout = s.uout := rfl

/-! ## deliverDigits -/

@[simp] theorem deliverDigits_freq (y : Byte) (k : Nat) : (deliverDigits y k s).freq = s.freq := rfl
@[simp] theorem deliverDigits_node (y : Byte) (k : Nat) : (deliverDigits y k s).node = s.node := rfl
@[simp] theorem deliverDigits_nnode (y : Byte) (k : Nat) : (deliverDigits y k s).nnode = s.nnode := rfl
@[simp] theorem deliverDigits_root (y : Byte) (k : Nat) : (deliverDigits y k s).root = s.root := rfl
@[simp] theorem deliverDigits_treeValid (y : Byte) (k : Nat) : (deliverDigits y k s).treeValid = s.treeValid := rfl
@[simp] theorem deliverDigits_empty (y : Byte) (k : Nat) : (deliverDigits y k s).empty = s.empty := rfl
@[simp] theorem deliverDigits_single (y : Byte) (k : Nat) : (deliverDigits y k s).single = s.single := rfl
@[simp] theorem deliverDigits_code (y : Byte) (k : Nat) : (deliverDigits y k s).code = s.code := rfl
@[simp] theorem deliverDigits_codeValid (y : Byte) (k : Nat) : (deliverDigits y k s).codeValid = s.codeValid := rfl
@[simp] theorem deliverDigits_acc (y : Byte) (k : Nat) : (deliverDigits y k s).acc = s.acc := rfl
@[simp] theorem deliverDigits_accN (y : Byte) (k : Nat) : (deliverDigits y k s).accN = s.accN := rfl
@[simp] theorem deliverDigits_pbitcnt (y : Byte) (k : Nat) : (deliverDigits y k s).pbitcnt = s.pbitcnt := rfl
@[simp] theorem deliverDigits_ubitcnt (y : Byte) (k : Nat) : (deliverDigits y k s).ubitcnt = s.ubitcnt := rfl
@[simp] theorem deliverDigits_urem (y : Byte) (k : Nat) : (deliverDigits y k s).urem = s.urem - BitVec.ofNat 32 k := rfl
@[simp] theorem deliverDigits_mode (y : Byte) (k : Nat) : (deliverDigits y k s).mode = if s.urem - BitVec.ofNat 32 k = 0 then .idle else s.mode := rfl
@[simp] theorem deliverDigits_err (y : Byte) (k : Nat) : (deliverDigits y k s).err = s.err := rfl
@[simp] theorem deliverDigits_errinfo (y : Byte) (k : Nat) : (deliverDigits y k s).errinfo = s.errinfo := rfl
@[simp] theorem deliverDigits_pending (y : Byte) (k : Nat) : (deliverDigits y k s).pending = s.pending := rfl
@[simp] theorem deliverDigits_rdata (y : Byte) (k : Nat) : (deliverDigits y k s).rdata = s.rdata := rfl
@[simp] theorem deliverDigits_pout (y : Byte) (k : Nat) : (deliverDigits y k s).pout = s.pout := rfl
@[simp] theorem deliverDigits_uout (y : Byte) (k : Nat) : (deliverDigits y k s).uout = s.uout ++ lowBits y k := rfl

/-! ## Updates that leave the block as it is, or reset it -/

@[simp] theorem clearBlock_toBlock : (clearBlock s).toBlock = Block.reset := rfl
@[simp] theorem respond_toBlock (v : Word) : (respond v s).toBlock = s.toBlock := rfl
@[simp] theorem emitPout_toBlock (ys : List Byte) : (emitPout ys s).toBlock = s.toBlock := rfl
@[simp] theorem emitUout_toBlock (ds : List Digit) : (emitUout ds s).toBlock = s.toBlock := rfl
@[simp] theorem performReset_eq : performReset s = clearBlock s := rfl
@[simp] theorem emitPout_nil : emitPout [] s = s := by simp [emitPout]
@[simp] theorem emitUout_nil : emitUout [] s = s := by simp [emitUout]

/-! ## The reset values of R48 -/

@[simp] theorem Block.reset_freq : Block.reset.freq = Vector.replicate 256 0 := rfl
@[simp] theorem Block.reset_node : Block.reset.node = Vector.replicate 511 Node.unused := rfl
@[simp] theorem Block.reset_nnode : Block.reset.nnode = 0 := rfl
@[simp] theorem Block.reset_root : Block.reset.root = Config.none := rfl
@[simp] theorem Block.reset_treeValid : Block.reset.treeValid = false := rfl
@[simp] theorem Block.reset_empty : Block.reset.empty = false := rfl
@[simp] theorem Block.reset_single : Block.reset.single = false := rfl
@[simp] theorem Block.reset_code : Block.reset.code = Vector.replicate 256 CodeEntry.noCode := rfl
@[simp] theorem Block.reset_codeValid : Block.reset.codeValid = false := rfl
@[simp] theorem Block.reset_acc : Block.reset.acc = 0 := rfl
@[simp] theorem Block.reset_accN : Block.reset.accN = 0 := rfl
@[simp] theorem Block.reset_pbitcnt : Block.reset.pbitcnt = 0 := rfl
@[simp] theorem Block.reset_ubitcnt : Block.reset.ubitcnt = 0 := rfl
@[simp] theorem Block.reset_urem : Block.reset.urem = 0 := rfl
@[simp] theorem Block.reset_mode : Block.reset.mode = .idle := rfl
@[simp] theorem Block.reset_err : Block.reset.err = .none := rfl
@[simp] theorem Block.reset_errinfo : Block.reset.errinfo = 0 := rfl
@[simp] theorem State.reset_toBlock : State.reset.toBlock = Block.reset := rfl
@[simp] theorem State.reset_pending : State.reset.pending = [] := rfl
@[simp] theorem State.reset_rdata : State.reset.rdata = [] := rfl
@[simp] theorem State.reset_pout : State.reset.pout = [] := rfl
@[simp] theorem State.reset_uout : State.reset.uout = [] := rfl

end Sys2Proof.Machine
end

