-- ==== Sys2Proof/Laws/Ops.lean ====
section
/-! SUPPORT. One specification lemma per shared operation, the tables' read and write laws, and one inversion lemma per
meaning: if it answers `next s'`, then `s'` is one of these. -/

namespace Sys2Proof.Machine

/-! ## Symbols and tables -/

theorem mem_allSymbols (s : Symbol) : s ∈ allSymbols := by
  refine List.mem_map.2 ⟨s.toNat, List.mem_range.2 s.isLt, ?_⟩
  simp

@[simp] theorem allSymbols_length : allSymbols.length = 256 := by simp [allSymbols]

theorem allSymbols_nodup : allSymbols.Nodup := by
  refine List.Nodup.map_on ?_ List.nodup_range
  intro a ha b hb h
  have := congrArg BitVec.toNat h
  simp only [List.mem_range] at ha hb
  simpa [BitVec.toNat_ofNat, Nat.mod_eq_of_lt ha, Nat.mod_eq_of_lt hb] using this

@[simp] theorem freqAt_setFreqAt_self (f : FreqTable) (s : Symbol) (v : Word) : freqAt (setFreqAt f s v) s = v := by
  simp [freqAt, setFreqAt]

theorem freqAt_setFreqAt_of_ne (f : FreqTable) {s t : Symbol} (v : Word) (h : t ≠ s) :
    freqAt (setFreqAt f s v) t = freqAt f t := by
  have : s.toNat ≠ t.toNat := fun e => h (BitVec.eq_of_toNat_eq e.symm)
  simp [freqAt, setFreqAt, this]

@[simp] theorem codeAt_setCodeAt_self (t : CodeTable) (s : Symbol) (e : CodeEntry) : codeAt (setCodeAt t s e) s = e := by
  simp [codeAt, setCodeAt]

theorem codeAt_setCodeAt_of_ne (t : CodeTable) {s x : Symbol} (e : CodeEntry) (h : x ≠ s) :
    codeAt (setCodeAt t s e) x = codeAt t x := by
  have : s.toNat ≠ x.toNat := fun q => h (BitVec.eq_of_toNat_eq q.symm)
  simp [codeAt, setCodeAt, this]

@[simp] theorem freqAt_replicate (v : Word) (s : Symbol) : freqAt (Vector.replicate 256 v) s = v := by
  simp [freqAt]

@[simp] theorem codeAt_replicate (e : CodeEntry) (s : Symbol) : codeAt (Vector.replicate 256 e) s = e := by
  simp [codeAt]

/-- A table is legal when the check over the 256 symbols finds no illegal entry. -/
theorem legalTable_of_all {f : FreqTable} (h : allSymbols.all (fun x => legalCount (freqAt f x)) = true) : LegalTable f :=
  fun s => by simpa [legalCount] using List.all_eq_true.1 h s (mem_allSymbols s)

/-- An arena entry in use holds its node; every other entry holds `Node.unused`; there is no entry NONE. -/
theorem nodeAt_arenaOf (nodes : List Node) (i : NodeIdx) :
    nodeAt (arenaOf nodes) i = if i = Config.none then none else some (nodes.getD i.toNat Node.unused) := by
  have hi : i.toNat < 512 := i.isLt
  by_cases h : i = Config.none
  · subst h
    simp [nodeAt]
  · have h' : i.toNat < 511 := by
      have : i.toNat ≠ 511 := fun e => h (BitVec.eq_of_toNat_eq e)
      omega
    simp only [nodeAt, h, if_false]
    rw [Vector.getElem?_eq_getElem h']
    simp only [arenaOf, Vector.getElem_mk, List.getElem_toArray, List.getElem_take, Option.some.injEq]
    by_cases hl : i.toNat < nodes.length
    · rw [List.getElem_append_left hl, List.getD_eq_getElem _ _ hl]
    · rw [List.getElem_append_right (by omega), List.getElem_replicate, List.getD_eq_default _ _ (by omega)]

/-! ## The queue -/

theorem firstOf_eq_none (nodes : List Node) (q : List Nat) : firstOf nodes q = none ↔ q = [] := by
  cases q with
  | nil => simp [firstOf]
  | cons i q =>
    simp only [firstOf, reduceCtorEq, iff_false]
    split
    · simp
    · split <;> simp

theorem firstOf_mem (nodes : List Node) : ∀ (q : List Nat) (a : Nat), firstOf nodes q = some a → a ∈ q
  | [], a, h => by simp [firstOf] at h
  | i :: q, a, h => by
    simp only [firstOf] at h
    split at h
    · simp_all
    · rename_i j hj
      split at h
      · obtain rfl : j = a := by simpa using h
        exact List.mem_cons_of_mem _ (firstOf_mem nodes q j hj)
      · simp_all

/-- Removing the first takes one element off the queue. -/
theorem removeFirst_length {nodes : List Node} {q q' : List Nat} {a : Nat} (h : removeFirst nodes q = some (a, q')) :
    a ∈ q ∧ q'.length + 1 = q.length := by
  unfold removeFirst at h
  split at h
  · cases h
  · rename_i b hb
    obtain ⟨rfl, rfl⟩ : b = a ∧ q.erase b = q' := by simpa using h
    have hm := firstOf_mem nodes q b hb
    exact ⟨hm, by rw [List.length_erase_of_mem hm]; have := List.length_pos_of_mem hm; omega⟩

/-- A pass adds one node and takes one index off the queue. -/
theorem mergePass_length {nodes nodes' : List Node} {q q' : List Nat} (h : mergePass nodes q = some (nodes', q')) :
    nodes'.length = nodes.length + 1 ∧ q'.length + 1 = q.length := by
  unfold mergePass at h
  split at h
  · cases h
  · rename_i a q1 h1
    split at h
    · cases h
    · rename_i b q2 h2
      obtain ⟨rfl, rfl⟩ := by simpa using h
      have := (removeFirst_length h1).2
      have := (removeFirst_length h2).2
      simp; omega

/-! ## Shared operations -/

/-- Quiescence, once for all: the write is performed, or the block is faulted and nothing changes. -/
theorem whenUnfaulted_next {s s' : State} {r : Result} (h : whenUnfaulted s r = .next s') :
    (s.err = .none ∧ r = .next s') ∨ (s.err ≠ .none ∧ s' = s) := by
  unfold whenUnfaulted at h
  split at h
  · exact .inl ⟨‹_›, h⟩
  · exact .inr ⟨‹_›, by injection h with h; exact h.symm⟩

@[simp] theorem whenUnfaulted_of_none {s : State} (r : Result) (h : s.err = .none) : whenUnfaulted s r = r := if_pos h

@[simp] theorem whenUnfaulted_of_fault {s : State} (r : Result) (h : s.err ≠ .none) : whenUnfaulted s r = .next s :=
  if_neg h

theorem performReject_next {r : Reject} {s s' : State} (h : performReject r s = .next s') :
    (r = .noOperationRead ∧ s' = respond 0 s) ∨ (r = .noOperationWrite ∧ s' = s) ∨
    (∃ info, r = .illegalCommand info ∧ s.err = .none ∧ s' = raiseFault .illegalCmd info s) ∨
    (∃ info, r = .illegalCommand info ∧ s.err ≠ .none ∧ s' = s) := by
  cases r with
  | noOperationRead => exact .inl ⟨rfl, by injection h with h; exact h.symm⟩
  | noOperationWrite => exact .inr (.inl ⟨rfl, by injection h with h; exact h.symm⟩)
  | illegalCommand info =>
    rcases whenUnfaulted_next h with ⟨h1, h2⟩ | ⟨h1, h2⟩
    · exact .inr (.inr (.inl ⟨info, rfl, h1, by injection h2 with h2; exact h2.symm⟩))
    · exact .inr (.inr (.inr ⟨info, rfl, h1, h2⟩))

/-! ## Inversion of the meanings -/

theorem execBuild_cases {s s' : State} (h : execBuild s = .next s') :
    (s.err ≠ .none ∧ s' = s) ∨ (s.err = .none ∧ s.mode ≠ .idle ∧ s' = raiseFault .badSeq 0x01#8 s) ∨
    (∃ sym, s.err = .none ∧ s.mode = .idle ∧ firstBadFreq s.freq = some sym ∧ s' = raiseFault .badFreq sym s) ∨
    (s.err = .none ∧ s.mode = .idle ∧ firstBadFreq s.freq = none ∧
      s' = installTree (build s.freq) (presentCount s.freq) s) := by
  rcases whenUnfaulted_next h with ⟨he, h⟩ | ⟨he, h⟩
  · split at h
    · exact .inr (.inl ⟨he, ‹_›, by injection h with h; exact h.symm⟩)
    · rename_i hm
      have hm : s.mode = .idle := by simpa using hm
      split at h
      · exact .inr (.inr (.inl ⟨_, he, hm, ‹_›, by injection h with h; exact h.symm⟩))
      · exact .inr (.inr (.inr ⟨he, hm, ‹_›, by injection h with h; exact h.symm⟩))
  · exact .inl ⟨he, h⟩

theorem execDerive_cases {s s' : State} (h : execDerive s = .next s') :
    (s.err ≠ .none ∧ s' = s) ∨
    (s.err = .none ∧ (s.mode ≠ .idle ∨ s.treeValid = false) ∧ s' = raiseFault .badSeq 0x02#8 s) ∨
    (s.err = .none ∧ s.mode = .idle ∧ s.treeValid = true ∧ s' = installCodes (deriveTable s.node s.root) s) := by
  rcases whenUnfaulted_next h with ⟨he, h⟩ | ⟨he, h⟩
  · split at h
    · exact .inr (.inl ⟨he, .inl ‹_›, by injection h with h; exact h.symm⟩)
    · rename_i hm
      have hm : s.mode = .idle := by simpa using hm
      split at h
      · exact .inr (.inl ⟨he, .inr ‹_›, by injection h with h; exact h.symm⟩)
      · rename_i ht
        exact .inr (.inr ⟨he, hm, by simpa using ht, by injection h with h; exact h.symm⟩)
  · exact .inl ⟨he, h⟩

theorem execPackBegin_cases {s s' : State} (h : execPackBegin s = .next s') :
    (s.err ≠ .none ∧ s' = s) ∨
    (s.err = .none ∧ (s.mode ≠ .idle ∨ s.codeValid = false) ∧ s' = raiseFault .badSeq 0x03#8 s) ∨
    (s.err = .none ∧ s.mode = .idle ∧ s.codeValid = true ∧
      s' = { s with acc := 0, accN := 0, pbitcnt := 0, mode := .pack }) := by
  rcases whenUnfaulted_next h with ⟨he, h⟩ | ⟨he, h⟩
  · split at h
    · exact .inr (.inl ⟨he, .inl ‹_›, by injection h with h; exact h.symm⟩)
    · rename_i hm
      have hm : s.mode = .idle := by simpa using hm
      split at h
      · exact .inr (.inl ⟨he, .inr ‹_›, by injection h with h; exact h.symm⟩)
      · rename_i ht
        exact .inr (.inr ⟨he, hm, by simpa using ht, by injection h with h; exact h.symm⟩)
  · exact .inl ⟨he, h⟩

theorem execPushp_cases {data : Word} {s s' : State} (h : execPushp data s = .next s') :
    (s.err ≠ .none ∧ s' = s) ∨
    (s.err = .none ∧ s.mode ≠ .pack ∧ s' = raiseFault .badSeq (dataByte data) s) ∨
    (s.err = .none ∧ s.mode = .pack ∧ (codeAt s.code (dataByte data)).len = 0 ∧
      s' = raiseFault .noCode (dataByte data) s) ∨
    (s.err = .none ∧ s.mode = .pack ∧ (codeAt s.code (dataByte data)).len ≠ 0 ∧
      s.pbitcnt.toNat + (codeAt s.code (dataByte data)).len.toNat > Config.bitcntMax ∧
      s' = raiseFault .countOvf (dataByte data) s) ∨
    (s.err = .none ∧ s.mode = .pack ∧ (codeAt s.code (dataByte data)).len ≠ 0 ∧
      s.pbitcnt.toNat + (codeAt s.code (dataByte data)).len.toNat ≤ Config.bitcntMax ∧
      s' = packCode (codeAt s.code (dataByte data)) s) := by
  rcases whenUnfaulted_next h with ⟨he, h⟩ | ⟨he, h⟩
  · dsimp only at h
    split at h
    · exact .inr (.inl ⟨he, ‹_›, by injection h with h; exact h.symm⟩)
    · rename_i hm
      have hm : s.mode = .pack := by simpa using hm
      split at h
      · exact .inr (.inr (.inl ⟨he, hm, ‹_›, by injection h with h; exact h.symm⟩))
      · split at h
        · exact .inr (.inr (.inr (.inl ⟨he, hm, ‹_›, ‹_›, by injection h with h; exact h.symm⟩)))
        · exact .inr (.inr (.inr (.inr ⟨he, hm, ‹_›, by omega, by injection h with h; exact h.symm⟩)))
  · exact .inl ⟨he, h⟩

theorem execPackEnd_cases {s s' : State} (h : execPackEnd s = .next s') :
    (s.err ≠ .none ∧ s' = s) ∨ (s.err = .none ∧ s.mode ≠ .pack ∧ s' = raiseFault .badSeq 0x04#8 s) ∨
    (s.err = .none ∧ s.mode = .pack ∧
      s' = emitPout (if s.accN = 0 then [] else [s.acc]) { s with acc := 0, accN := 0, mode := .idle }) := by
  rcases whenUnfaulted_next h with ⟨he, h⟩ | ⟨he, h⟩
  · split at h
    · exact .inr (.inl ⟨he, ‹_›, by injection h with h; exact h.symm⟩)
    · rename_i hm
      exact .inr (.inr ⟨he, by simpa using hm, by injection h with h; exact h.symm⟩)
  · exact .inl ⟨he, h⟩

theorem execUnpackBegin_cases {s s' : State} (h : execUnpackBegin s = .next s') :
    (s.err ≠ .none ∧ s' = s) ∨ (s.err = .none ∧ s.mode ≠ .idle ∧ s' = raiseFault .badSeq 0x05#8 s) ∨
    (s.err = .none ∧ s.mode = .idle ∧ legalCount s.ubitcnt = false ∧ s' = raiseFault .badCount 0x05#8 s) ∨
    (s.err = .none ∧ s.mode = .idle ∧ legalCount s.ubitcnt = true ∧
      s' = { s with urem := s.ubitcnt, mode := if s.ubitcnt = 0 then .idle else .unpack }) := by
  rcases whenUnfaulted_next h with ⟨he, h⟩ | ⟨he, h⟩
  · split at h
    · exact .inr (.inl ⟨he, ‹_›, by injection h with h; exact h.symm⟩)
    · rename_i hm
      have hm : s.mode = .idle := by simpa using hm
      split at h
      · rename_i hc
        exact .inr (.inr (.inl ⟨he, hm, by simpa using hc, by injection h with h; exact h.symm⟩))
      · rename_i hc
        exact .inr (.inr (.inr ⟨he, hm, by simpa using hc, by injection h with h; exact h.symm⟩))
  · exact .inl ⟨he, h⟩

theorem execPushu_cases {data : Word} {s s' : State} (h : execPushu data s = .next s') :
    (s.err ≠ .none ∧ s' = s) ∨
    (s.err = .none ∧ s.mode ≠ .unpack ∧ s' = raiseFault .badSeq (dataByte data) s) ∨
    (s.err = .none ∧ s.mode = .unpack ∧ s' = deliverDigits (dataByte data) (min 8 s.urem.toNat) s) := by
  rcases whenUnfaulted_next h with ⟨he, h⟩ | ⟨he, h⟩
  · split at h
    · exact .inr (.inl ⟨he, ‹_›, by injection h with h; exact h.symm⟩)
    · rename_i hm
      exact .inr (.inr ⟨he, by simpa using hm, by injection h with h; exact h.symm⟩)
  · exact .inl ⟨he, h⟩

theorem execWrubc_cases {v : Word} {s s' : State} (h : execWrubc v s = .next s') :
    (s.err ≠ .none ∧ s' = s) ∨ (s.err = .none ∧ s' = { s with ubitcnt := v }) := by
  rcases whenUnfaulted_next h with ⟨he, h⟩ | ⟨he, h⟩
  · exact .inr ⟨he, by injection h with h; exact h.symm⟩
  · exact .inl ⟨he, h⟩

theorem execWrfreq_cases {sym : Symbol} {v : Word} {s s' : State} (h : execWrfreq sym v s = .next s') :
    (s.err ≠ .none ∧ s' = s) ∨ (s.err = .none ∧ s' = { s with freq := setFreqAt s.freq sym v }) := by
  rcases whenUnfaulted_next h with ⟨he, h⟩ | ⟨he, h⟩
  · exact .inr ⟨he, by injection h with h; exact h.symm⟩
  · exact .inl ⟨he, h⟩

end Sys2Proof.Machine
end

