-- ==== Sys2Proof/Laws/PerInstr.lean ====
section
/-! SUPPORT. Statements for all instructions, one lemma per constructor. Family `TableRow`: the tuple the encoder gives an
instruction has the bits its row of `opcode_table.json` fixes. -/

/-- The encoded tuple matches the instruction's row of the opcode table. -/
def Sys2Proof.Laws.TableRow.Statement (i : Sys2Proof.Instr) : Prop :=
  Sys2Proof.TableRow.matches (Sys2Proof.Instr.row i) (Sys2Proof.encodeBits i) = true

namespace Sys2Proof.Laws.TableRow

/-- Masking a tuple that fixes all of RW and ADDR and none of DATA. -/
theorem mask_addr (x : BitVec 1) (a : Addr) (v : Word) :
    (x ++ a ++ v) &&& 0x3FFF00000000#46 = x ++ a ++ 0#32 := by
  have hm : 0x3FFF00000000#46 = BitVec.allOnes 14 ++ 0#32 := by decide
  rw [hm, BitVec.and_append, BitVec.and_allOnes, BitVec.and_zero]

/-- Masking a tuple that fixes RW and ADDR[12:8]. -/
theorem mask_window (x : BitVec 1) (s : Symbol) (v : Word) :
    (x ++ (0b00001#5 ++ s) ++ v) &&& 0x3F0000000000#46 = x ++ (0b00001#5 ++ 0#8) ++ 0#32 := by
  have hm : 0x3F0000000000#46 = BitVec.allOnes 1 ++ (BitVec.allOnes 5 ++ 0#8) ++ 0#32 := by decide
  rw [hm, BitVec.and_append, BitVec.and_append, BitVec.and_append, BitVec.and_allOnes, BitVec.and_allOnes,
    BitVec.and_zero, BitVec.and_zero]

/-- Masking a tuple that fixes RW and ADDR[12]. -/
theorem mask_code (x : BitVec 1) (s : Symbol) (w : BitVec 4) (v : Word) :
    (x ++ (1#1 ++ s ++ w) ++ v) &&& 0x300000000000#46 = x ++ (1#1 ++ 0#8 ++ 0#4) ++ 0#32 := by
  have hm : 0x300000000000#46 = BitVec.allOnes 1 ++ (BitVec.allOnes 1 ++ 0#8 ++ 0#4) ++ 0#32 := by decide
  rw [hm, BitVec.and_append, BitVec.and_append, BitVec.and_append, BitVec.and_append, BitVec.and_allOnes,
    BitVec.and_allOnes, BitVec.and_zero, BitVec.and_zero, BitVec.and_zero]

theorem build : Statement .build := by unfold Statement; decide
theorem derive : Statement .derive := by unfold Statement; decide
theorem packBegin : Statement .packBegin := by unfold Statement; decide
theorem packEnd : Statement .packEnd := by unfold Statement; decide
theorem unpackBegin : Statement .unpackBegin := by unfold Statement; decide
theorem clr : Statement .clr := by unfold Statement; decide

theorem pushp (data : Word) : Statement (.pushp data) := by
  simp only [Statement, TableRow.matches, Instr.row, encodeBits, encode, Txn.toBits, mask_addr]; decide

theorem pushu (data : Word) : Statement (.pushu data) := by
  simp only [Statement, TableRow.matches, Instr.row, encodeBits, encode, Txn.toBits, mask_addr]; decide

theorem wrubc (count : Word) : Statement (.wrubc count) := by
  simp only [Statement, TableRow.matches, Instr.row, encodeBits, encode, Txn.toBits, mask_addr]; decide

theorem wrfreq (sym : Symbol) (count : Word) : Statement (.wrfreq sym count) := by
  simp only [Statement, TableRow.matches, Instr.row, encodeBits, encode, freqAddr, Txn.toBits, mask_window]; decide

theorem rdfreq (sym : Symbol) : Statement (.rdfreq sym) := by
  simp only [Statement, TableRow.matches, Instr.row, encodeBits, encode, freqAddr, Txn.toBits, mask_window]; decide

theorem rdstatus : Statement .rdstatus := by unfold Statement; decide
theorem rdpbc : Statement .rdpbc := by unfold Statement; decide
theorem rdubc : Statement .rdubc := by unfold Statement; decide
theorem rdurem : Statement .rdurem := by unfold Statement; decide

theorem rdcode (sym : Symbol) (w : BitVec 4) : Statement (.rdcode sym w) := by
  simp only [Statement, TableRow.matches, Instr.row, encodeBits, encode, codeAddr, Txn.toBits, mask_code]; decide

end Sys2Proof.Laws.TableRow
end

