-- ==== Sys2Proof/Tests/Slice0.lean ====
section
/-! SUPPORT. The model's own tests: decoding of words written out from the spec, one step of each instruction with the value
the spec gives (`95_test_vectors.md` or the rule named), and a witness for the hypotheses of each statement. -/

-- One test at a time: many waiting kernel checks, each on a thread with its own large stack, would exhaust the address space.
set_option Elab.async false

namespace Sys2Proof.Tests.Slice0

open Sys2Proof.Machine

/-! ## Small states -/

/-- The state after one step with the tuple `w` offered. -/
def after (s : State) (w : Nat) : State :=
  match step (s.withFetchWord 46 w) with
  | .next t => t
  | .fault _ => s
  | .refused _ => s

/-- FREQ['a'] = 3, FREQ['b'] = 1. -/
def abFreq : FreqTable := setFreqAt (setFreqAt Block.reset.freq 0x61 3) 0x62 1

/-- The Code Table of S1: 'a' = "1", 'b' = "0". -/
def abCode : CodeTable := setCodeAt (setCodeAt Block.reset.code 0x61 ⟨1, 1⟩) 0x62 ⟨1, 0⟩

/-- FREQ loaded, nothing built. -/
def loaded : State := { State.reset with freq := abFreq }

/-- The tree of S1 as BUILD leaves it. -/
def built : State :=
  { loaded with
    node := arenaOf [⟨.leaf, 0x61, 3, 0x1FF, 0x1FF⟩, ⟨.leaf, 0x62, 1, 0x1FF, 0x1FF⟩, ⟨.internal, 0, 4, 1, 0⟩]
    nnode := 3, root := 2, treeValid := true }

/-- A valid Code Table. -/
def derived : State := { loaded with code := abCode, codeValid := true }

/-- An open pack session. -/
def packing : State := { derived with mode := .pack }

/-- An open unpack session with `u` digits to come. -/
def unpacking (u : Word) : State := { State.reset with mode := .unpack, ubitcnt := u, urem := u }

/-- A faulted block (F1). -/
def faulted : State := { State.reset with err := .illegalCmd }

/-- The same state with one thing offered. -/
def offer (s : State) (e : Event) : State := { s with pending := [e] }

/-! ## Well-formedness: each check refuses an ill-formed tuple -/

theorem test_wellFormed_accepts : tupleWellFormed 0x200500000061 = true ∧ tupleWellFormed 0x000100000000 = true := by decide
theorem test_wellFormed_refuses_47_bits : tupleWellFormed (2 ^ 46 + 0x200000000001) = false := by decide
theorem test_wellFormed_refuses_read_with_data : tupleWellFormed 0x000100000005 = false := by decide
theorem test_wellFormed_instr : Instr.wellFormed (.rdcode 0 15) = true := by decide

/-! ## Decoding: a word of every row, from `opcode_table.json`, R71, R73 and the encodings of `95_test_vectors.md` -/

theorem test_decode_build : decodeTableWord 48 0x200000000001 = some .build := by rfl
theorem test_decode_derive : decodeTableWord 48 0x200000000002 = some .derive := by rfl
theorem test_decode_packBegin : decodeTableWord 48 0x200000000003 = some .packBegin := by rfl
theorem test_decode_packEnd : decodeTableWord 48 0x200000000004 = some .packEnd := by rfl
theorem test_decode_unpackBegin : decodeTableWord 48 0x200000000005 = some .unpackBegin := by rfl
theorem test_decode_clr : decodeTableWord 48 0x200000000006 = some .clr := by rfl
theorem test_decode_pushp : decodeTableWord 48 0x200500000061 = some (.pushp 0x61) := by rfl
theorem test_decode_pushu : decodeTableWord 48 0x2006000000F7 = some (.pushu 0xF7) := by rfl
theorem test_decode_wrubc : decodeTableWord 48 0x200300000009 = some (.wrubc 9) := by rfl
theorem test_decode_wrfreq : decodeTableWord 48 0x21F0FFFFFFFF = some (.wrfreq 0xF0 0xFFFFFFFF) := by rfl
theorem test_decode_rdfreq : decodeTableWord 48 0x016100000000 = some (.rdfreq 0x61) := by rfl
theorem test_decode_rdstatus : decodeTableWord 48 0x000100000000 = some .rdstatus := by rfl
theorem test_decode_rdpbc : decodeTableWord 48 0x000200000000 = some .rdpbc := by rfl
theorem test_decode_rdubc : decodeTableWord 48 0x000300000000 = some .rdubc := by rfl
theorem test_decode_rdurem : decodeTableWord 48 0x000400000000 = some .rdurem := by rfl
theorem test_decode_rdcode : decodeTableWord 48 0x162100000000 = some (.rdcode 0x62 1) := by rfl

/-- The edges of the windows: 0x00FF and 0x0200 are reserved, 0x01FF is FREQ[255] (A1). -/
theorem test_decode_window_edges :
    decodeTableWord 48 0x00FF00000000 = none ∧ decodeTableWord 48 0x020000000000 = none ∧
    decodeTableWord 48 0x01FF00000000 = some (.rdfreq 0xFF) ∧ decodeTableWord 48 0x0FFF00000000 = none ∧
    decodeTableWord 48 0x1FFF00000000 = some (.rdcode 0xFF 15) := by decide

/-- F1 to F5: the illegal command words, with DATA[7:0]. -/
theorem test_decode_illegal :
    [0x0, 0x7, 0x101, 0xFFFFFFFF, 0x80000001].map (fun v => decode (.write 0 (BitVec.ofNat 32 v))) =
      [0x0, 0x7, 0x01, 0xFF, 0x01].map (fun b => .error (.illegalCommand (BitVec.ofNat 8 b))) := by decide +kernel

/-! ## One step of each instruction -/

/-- S1: the tree of "aaab". -/
theorem test_build_tree :
    (after loaded 0x200000000001).toBlock.inUse =
      [⟨.leaf, 0x61, 3, 0x1FF, 0x1FF⟩, ⟨.leaf, 0x62, 1, 0x1FF, 0x1FF⟩, ⟨.internal, 0, 4, 1, 0⟩] := by decide +kernel

/-- S3: the empty tree from reset, STATUS 0x11, ROOT NONE. -/
theorem test_build_empty :
    statusWord (after State.reset 0x200000000001).toBlock = 0x11 ∧
      (after State.reset 0x200000000001).root = 0x1FF := by decide +kernel

/-- R103: a leaf comes before an internal node of the same weight. -/
theorem test_build_tie :
    (build (setFreqAt (setFreqAt (setFreqAt Block.reset.freq 0x61 1) 0x62 1) 0x63 2)).nodes.drop 3 =
      [⟨.internal, 0, 2, 0, 1⟩, ⟨.internal, 0, 4, 2, 3⟩] := by decide +kernel

/-- F20: the lowest offending symbol is reported. -/
theorem test_build_badFreq :
    statusWord (after { State.reset with
      freq := setFreqAt (setFreqAt Block.reset.freq 0xF0 0xFFFFFFFF) 5 0x80000000 } 0x200000000001).toBlock =
        0x00050300 := by decide +kernel

/-- S1: the codes of "aaab", STATUS 2. -/
theorem test_derive_codes :
    codeAt (after built 0x200000000002).code 0x61 = ⟨1, 1⟩ ∧ codeAt (after built 0x200000000002).code 0x62 = ⟨1, 0⟩ ∧
      statusWord (after built 0x200000000002).toBlock = 2 := by decide +kernel

/-- F6: no tree. -/
theorem test_derive_no_tree : statusWord (after State.reset 0x200000000002).toBlock = 0x00020200 := by decide +kernel

/-- R131's example and F7. -/
theorem test_packBegin : statusWord (after derived 0x200000000003).toBlock = 6 ∧
    statusWord (after State.reset 0x200000000003).toBlock = 0x00030200 := by decide +kernel

/-- R133's example. -/
theorem test_pushp_example :
    (after { packing with acc := 3, accN := 2, pbitcnt := 2 } 0x200500000061).acc = 7 ∧
      (after { packing with acc := 3, accN := 2, pbitcnt := 2 } 0x200500000061).accN = 3 := by decide +kernel

/-- A code of 39 digits on top of one waiting digit, V9: five beats in one transaction. -/
theorem test_pushp_long_code :
    (after { packing with code := setCodeAt abCode 0 ⟨39, 0x3FFFFFFFFF⟩, accN := 1, pbitcnt := 1 }
      0x200500000000).pout = [0xFE, 0xFF, 0xFF, 0xFF, 0x7F] := by decide +kernel

/-- R138's example. -/
theorem test_packEnd :
    (after { packing with acc := 7, accN := 4, pbitcnt := 4 } 0x200000000004).pout = [7] ∧
      statusWord (after { packing with acc := 7, accN := 4 } 0x200000000004).toBlock = 2 := by decide +kernel

/-- K1: nothing is emitted for the empty input. -/
theorem test_packEnd_empty : (after packing 0x200000000004).pout = [] := by decide +kernel

/-- R152's example and U10. -/
theorem test_unpackBegin :
    statusWord (after { derived with ubitcnt := 4 } 0x200000000005).toBlock = 0xA ∧
      statusWord (after { State.reset with ubitcnt := 0x80000000 } 0x200000000005).toBlock = 0x00050600 := by
  decide +kernel

/-- U1: four digits of 0xF7, the rest discarded, the session over. -/
theorem test_pushu :
    (after (unpacking 4) 0x2006000000F7).uout = [true, true, true, false] ∧
      statusWord (after (unpacking 4) 0x2006000000F7).toBlock = 0 := by decide +kernel

/-- U4: a whole byte, bit 0 first, leaves one digit to come. -/
theorem test_pushu_whole_byte :
    (after (unpacking 9) 0x2006000000A5).uout = [true, false, true, false, false, true, false, true] ∧
      (after (unpacking 9) 0x2006000000A5).urem = 1 := by decide +kernel

/-- R189's example: a faulted block with a table is cleared, UOUT keeps what was sent. -/
theorem test_clr :
    statusWord (after { derived with err := .badSeq, errinfo := 0x55, uout := [true] } 0x200000000006).toBlock = 0 ∧
      (after { derived with err := .badSeq, errinfo := 0x55, uout := [true] } 0x200000000006).uout = [true] := by
  decide +kernel

/-- A1: all 32 bits are stored. -/
theorem test_wrfreq : freqAt (after State.reset 0x21FFDEADBEEF).freq 0xFF = 0xDEADBEEF := by decide +kernel

/-- A7: ignored while faulted. -/
theorem test_wrfreq_faulted : freqAt (after faulted 0x210500000001).freq 5 = 0 := by decide +kernel

/-- A2. -/
theorem test_wrubc : (after State.reset 0x2003CAFEF00D).ubitcnt = 0xCAFEF00D := by decide +kernel

/-- R183's example. -/
theorem test_rdfreq : (after loaded 0x016100000000).rdata = [3] := by decide +kernel

/-- R189's start state reads 0x00550202. -/
theorem test_rdstatus :
    (after { derived with err := .badSeq, errinfo := 0x55 } 0x000100000000).rdata = [0x00550202] := by decide +kernel

/-- R186's example. -/
theorem test_rdpbc : (after { derived with pbitcnt := 4 } 0x000200000000).rdata = [4] := by decide +kernel

/-- R184's example. -/
theorem test_rdubc : (after { State.reset with ubitcnt := 23 } 0x000300000000).rdata = [0x17] := by decide +kernel

/-- U7: one digit to come. -/
theorem test_rdurem : (after (unpacking 1) 0x000400000000).rdata = [1] := by decide +kernel

/-- A6: the second BITS word of a code of 39 digits, and word 9 of an entry. -/
theorem test_rdcode :
    (after { derived with code := setCodeAt abCode 0 ⟨39, 0x3FFFFFFFFF⟩ } 0x100200000000).rdata = [0x3F] ∧
      (after { derived with code := setCodeAt abCode 0 ⟨39, 0x3FFFFFFFFF⟩ } 0x100900000000).rdata = [0] := by
  decide +kernel

/-- A4: a read of PIN returns 0 and is no push. -/
theorem test_read_pin : (after packing 0x000500000000).rdata = [0] ∧ (after packing 0x000500000000).accN = 0 := by
  decide +kernel

/-- R122: BITS is the path with digit 0 in bit 0. -/
theorem test_ofDigits : CodeEntry.ofDigits [true, true, false] = ⟨3, 3⟩ := by decide +kernel

/-- R158: `unpack` of the payload of V7 with its padding bit set, last seven digits. -/
theorem test_unpack : (unpack [0x76, 0x51, 0xBB] 23).drop 16 = [true, true, false, true, true, true, false] := by
  decide +kernel

/-- H6: a candidate buffer that is no code stays at the end. -/
theorem test_decodeDigits :
    decodeDigits (setCodeAt abCode 0x62 ⟨2, 2⟩) [true, false, true, false] = ([0x61, 0x62], [false]) := by decide +kernel

/-! ## Witnesses: the hypotheses of each statement hold together somewhere -/

theorem witness_legal : LegalTable abFreq := legalTable_of_all (by decide +kernel)

theorem witness_legal_largest : LegalTable (Vector.replicate 256 0x7FFFFFFF) := fun s => by simp

theorem witness_decode_ok : decode (.read 0x1FFF) = .ok (.rdcode 0xFF 15) := by decide

theorem witness_row : Instr.build.row ∈ opcodeTable := by decide

theorem witness_step : (offer derived (.txn (encode .packBegin))).pending = [.txn (encode .packBegin)] ∧
    decode (encode .packBegin) = .ok .packBegin := ⟨rfl, by decide⟩

theorem witness_noOperation_read :
    (offer packing (.txn (.read addrUin))).pending = [.txn (.read addrUin)] ∧ addrUin.toNat = 6 := ⟨rfl, by decide⟩

theorem witness_noOperation_reserved_edges :
    reservedAddr 7 ∧ reservedAddr 0xFF ∧ reservedAddr 0x200 ∧ reservedAddr 0xFFF := by simp [reservedAddr]

theorem witness_noOperation_write :
    (offer packing (.txn (.write 0x1000 9))).pending = [.txn (.write 0x1000 9)] ∧ 0x1000 ≤ (0x1000#13).toNat :=
  ⟨rfl, by decide⟩

theorem witness_noOperation_faulted_write : (offer faulted (.txn (.write addrCmd 7))).err ≠ .none ∧
    (offer faulted (.txn (.write addrCmd 7))).pending = [.txn (.write addrCmd 7)] ∧
    ¬ (addrCmd = addrCmd ∧ (7 : Word) = 0x00000006) := ⟨by decide, rfl, by decide⟩

theorem witness_noOperation_faulted_read : (offer faulted (.txn (.read addrStatus))).err ≠ .none ∧
    (offer faulted (.txn (.read addrStatus))).pending = [.txn (.read addrStatus)] := ⟨by decide, rfl⟩

theorem witness_illegal_low : (offer State.reset (.txn (.write addrCmd 0))).pending = [.txn (.write addrCmd 0)] ∧
    State.reset.err = .none ∧ illegalCommandWord 0 := ⟨rfl, rfl, .inl rfl⟩

theorem witness_illegal_high : illegalCommandWord 7 ∧ illegalCommandWord 0xFFFFFFFF := by simp [illegalCommandWord]

theorem witness_resetInput : (offer packing .reset).pending = [.reset] := rfl

theorem witness_resetAndClr : State.reset = State.reset := rfl

theorem witness_clr_next : exec .clr faulted = .next { faulted with toBlock := Block.reset } := rfl

theorem witness_read : (offer loaded (.txn (.read 0x0161))).pending = [.txn (.read 0x0161)] := rfl

theorem witness_registerMap :
    (0x0100#13).toNat = 0x100 + (0x00#8).toNat ∧ (0x01FF#13).toNat = 0x100 + (0xFF#8).toNat ∧
    (0x1000#13).toNat = 0x1000 + 16 * (0x00#8).toNat + (0#4).toNat ∧
    (0x1FFF#13).toNat = 0x1000 + 16 * (0xFF#8).toNat + (15#4).toNat := by decide

theorem witness_rdcode_words : (0#4).toNat = 0 ∧ 1 ≤ (1#4).toNat ∧ (8#4).toNat ≤ 8 ∧ 9 ≤ (9#4).toNat := by decide

theorem witness_countWrite : (offer packing (.txn (.write addrUrem 5))).pending = [.txn (.write addrUrem 5)] := rfl

theorem witness_ubitcnt : State.reset.err = .none ∧ State.reset.mode = .idle ∧ (0x80000000#32).getLsbD 31 = true ∧
    faulted.err ≠ .none := by decide

theorem witness_wrfreq : packing.err = .none ∧ faulted.err ≠ .none ∧ State.reset.mode = .idle ∧
    (0x80000000#32).getLsbD 31 = true ∧ ∀ y, y ≠ 0xFF#8 → (freqAt State.reset.freq y).getLsbD 31 = false :=
  ⟨by decide, by decide, rfl, by decide, fun y _ => by simp⟩

theorem witness_rdfreq : State.reset.err = .none ∧
    exec (.wrfreq 0x61 3) State.reset = .next { State.reset with freq := setFreqAt Block.reset.freq 0x61 3 } := ⟨rfl, rfl⟩

theorem witness_build : loaded.err = .none ∧ loaded.mode = .idle ∧ LegalTable loaded.freq := ⟨rfl, rfl, witness_legal⟩

theorem witness_badFreq :
    (freqAt (setFreqAt Block.reset.freq 5 0x80000000) 5).getLsbD 31 = true ∧
    ∀ y : Symbol, y.toNat < (5#8).toNat → (freqAt (setFreqAt Block.reset.freq 5 0x80000000) y).getLsbD 31 = false := by
  refine ⟨by simp, fun y hy => ?_⟩
  have : y ≠ 5 := fun h => by simp [h] at hy
  rw [freqAt_setFreqAt_of_ne _ _ this]
  simp

/-- Equal weights: the lower index goes first and becomes LEFT. -/
theorem witness_queue :
    removeFirst [Node.mkLeaf 0 5, Node.mkLeaf 1 2, Node.mkLeaf 2 2] [0, 1, 2] = some (1, [0, 2]) ∧
    [0, 1, 2].Nodup ∧
    mergePass [Node.mkLeaf 0 5, Node.mkLeaf 1 2, Node.mkLeaf 2 2] [0, 1, 2] =
      some ([Node.mkLeaf 0 5, Node.mkLeaf 1 2, Node.mkLeaf 2 2, ⟨.internal, 0, 4, 1, 2⟩], [0, 3]) := by decide +kernel

theorem witness_numbering : 2 ≤ presentCount abFreq ∧ freqAt abFreq 0x61 ≠ 0 := by decide +kernel

theorem witness_singleSymbol : freqAt (setFreqAt Block.reset.freq 0x41 9) 0x41 ≠ 0 ∧
    ∀ y, y ≠ 0x41 → freqAt (setFreqAt Block.reset.freq 0x41 9) y = 0 :=
  ⟨by simp, fun y hy => by rw [freqAt_setFreqAt_of_ne _ _ hy]; simp⟩

theorem witness_empty : ∀ x, freqAt Block.reset.freq x = 0 := fun x => by simp

/-- Three symbols, so that there are two Internal nodes. -/
theorem witness_internalWeights : presentCount (setFreqAt abFreq 0x63 7) = 3 ∧
    3 + 1 < (build (setFreqAt abFreq 0x63 7)).nodes.length := by decide +kernel

theorem witness_rootWeight : ∃ x, freqAt abFreq x ≠ 0 := ⟨0x61, by decide +kernel⟩

theorem abFreq_build : build abFreq =
    ⟨[⟨.leaf, 0x61, 3, 0x1FF, 0x1FF⟩, ⟨.leaf, 0x62, 1, 0x1FF, 0x1FF⟩, ⟨.internal, 0, 4, 1, 0⟩], 2⟩ := by decide +kernel

theorem abFreq_of_ne {s : Symbol} (ha : s ≠ 0x61) (hb : s ≠ 0x62) : freqAt abFreq s = 0 := by
  rw [abFreq, freqAt_setFreqAt_of_ne _ _ hb, freqAt_setFreqAt_of_ne _ _ ha]
  simp

theorem abFreq_tree : TreeOk abFreq (build abFreq).nodes (build abFreq).root := by
  rw [abFreq_build]
  constructor
  case leafOnce =>
    intro s
    by_cases ha : s = 0x61
    · subst ha; decide +kernel
    · by_cases hb : s = 0x62
      · subst hb; decide +kernel
      · rw [abFreq_of_ne ha hb]
        simp [List.countP_cons]
        exact ⟨Ne.symm hb, Ne.symm ha⟩
  case childBelow =>
    intro i n h
    match i with
    | 0 => simp at h; subst h; decide
    | 1 => simp at h; subst h; decide
    | 2 => simp at h; subst h; decide
    | i + 3 => simp at h
  all_goals decide +kernel

theorem witness_derive : built.toBlock.Inv ∧ built.err = .none ∧ built.mode = .idle ∧ built.treeValid = true := by
  refine ⟨?_, rfl, rfl, rfl⟩
  constructor
  case tree =>
    have hn : built.toBlock.inUse = (build abFreq).nodes := by decide +kernel
    have hr : built.root = (build abFreq).root := by decide +kernel
    refine fun _ => ⟨abFreq, witness_legal, ?_, ?_, hr, ?_⟩
    · rw [abFreq_build]; rfl
    · rw [abFreq_build]; rfl
    · rw [hn, hr]; exact abFreq_tree
  all_goals simp [built, loaded, CodeEntry.noCode, Config.bitcntMax]

theorem witness_codeLength : codesFor abFreq 0x61 = some [true] := by decide +kernel

/-- "aaab": 'a' is more frequent than 'b', and each has a code. -/
theorem witness_moreFrequent : codesFor abFreq 0x61 = some [true] ∧ codesFor abFreq 0x62 = some [false] ∧
    (freqAt abFreq 0x62).toNat < (freqAt abFreq 0x61).toNat := by decide +kernel

theorem witness_packBegin : derived.err = .none ∧ derived.mode = .idle ∧ derived.codeValid = true ∧
    State.reset.codeValid = false ∧ packing.mode ≠ .idle := by decide

theorem witness_pushp : packing.err = .none ∧ packing.mode = .pack ∧
    (codeAt packing.code ((0x141#32).extractLsb' 0 8)).len = 0 ∧
    (codeAt packing.code ((0x161#32).extractLsb' 0 8)).len ≠ 0 ∧ derived.mode ≠ .pack := by decide +kernel

/-- K6 and K7: the largest PBITCNT from which a one-digit code still fits, and the first from which it does not. -/
theorem witness_pushp_count : (0x7FFFFFFE#32).toNat + (1#8).toNat ≤ 0x7FFFFFFF ∧
    (0x7FFFFFFF#32).toNat + (1#8).toNat > 0x7FFFFFFF := by decide

theorem witness_packEnd : ({ packing with accN := 1 } : State).accN.toNat > 0 ∧ packing.accN = 0 ∧ packing.mode = .pack ∧
    derived.mode ≠ .pack := by decide

theorem witness_payload : 7 < 8 * (pack [0x61, 0x62] abCode).1.length := by decide +kernel

/-- A session with a read, a UBITCNT write and a FREQ write between its PIN writes. -/
def packTxns : List Txn := [.write addrPin 0x61, .read addrPbitcnt, .write addrUbitcnt 5, .write 0x01FF 1, .write addrPin 0x162]

theorem witness_packSession : derived.err = .none ∧ derived.mode = .idle ∧ derived.codeValid = true ∧
    (∀ t ∈ packTxns, isNeutral t = true ∨ (pushedByte addrPin t).isSome = true) ∧
    packTxns.filterMap (pushedByte addrPin) = [0x61, 0x62] ∧
    (∀ b ∈ packTxns.filterMap (pushedByte addrPin), (codeAt derived.code b).len ≠ 0) ∧
    (pack (packTxns.filterMap (pushedByte addrPin)) derived.code).2 ≤ 0x7FFFFFFF := by decide +kernel

theorem witness_unpackBegin : State.reset.err = .none ∧ State.reset.mode = .idle ∧ packing.mode ≠ .idle ∧
    (0x7FFFFFFF#32).getLsbD 31 = false ∧ (0x80000000#32).getLsbD 31 = true := by decide

theorem witness_pushu : (unpacking 9).err = .none ∧ (unpacking 9).mode = .unpack ∧ State.reset.mode ≠ .unpack := by decide

/-- U7: UBITCNT is rewritten during the session. -/
def unpackTxnsU7 : List Txn := [.write addrUin 0xA5, .write addrUbitcnt 100, .read addrUrem, .write addrUin 0xFF]

theorem witness_unpackSession : ({ State.reset with ubitcnt := 9 } : State).ubitcnt.toNat ≤ 0x7FFFFFFF ∧
    (∀ t ∈ unpackTxnsU7, isNeutral t = true ∨ (pushedByte addrUin t).isSome = true) ∧
    (unpackTxnsU7.filterMap (pushedByte addrUin)).length ≤ (9 + 7) / 8 := by decide +kernel

/-- Another payload with the same digits: 0x07 with its padding set. -/
theorem witness_unpackInvertsPack : (pack [0x61, 0x61, 0x61, 0x62] abCode) = ([0x07], 4) ∧
    ∀ j, j < 4 → (([0xF7] : List Byte).getD (j / 8) 0).getLsbD (j % 8) =
      (([0x07] : List Byte).getD (j / 8) 0).getLsbD (j % 8) := by decide +kernel

theorem witness_quiescent : faulted.err ≠ .none ∧
    (offer faulted (.txn (.write addrCmd 6))).pending = [.txn (.write addrCmd 0x00000006)] ∧
    (offer faulted (.txn (.write addrPin 6))).pending = [.txn (.write addrPin 6)] ∧ addrPin ≠ addrCmd :=
  ⟨by decide, rfl, rfl, by decide⟩

theorem witness_faultChanges : step (offer State.reset (.txn (encode .packEnd))) =
    .next { State.reset with err := .badSeq, errinfo := 0x04 } ∧
    (raiseFault .badSeq 4 State.reset).err ≠ .none := ⟨rfl, by decide⟩

theorem witness_faultStands : (offer faulted (.txn (encode .build))).err ≠ .none ∧
    step (offer faulted (.txn (encode .build))) = .next faulted := ⟨by decide, rfl⟩

theorem witness_faultTable : faultOf .packEnd State.reset = some (.badSeq, 0x04) ∧ faultOf .packBegin derived = none := by
  decide +kernel

theorem witness_someStep : step (offer loaded (.txn (.read 0x0161))) =
    .next { loaded with rdata := [freqAt loaded.freq 0x61] } := rfl

/-- An open unpack session meets the invariant, and a step leads on from it. -/
theorem witness_invariant : (offer (unpacking 4) (.txn (encode (.pushu 0xF7)))).toBlock.Inv ∧
    step (offer (unpacking 4) (.txn (encode (.pushu 0xF7)))) = exec (.pushu 0xF7) (unpacking 4) := by
  refine ⟨?_, rfl⟩
  constructor <;> simp [offer, unpacking, CodeEntry.noCode, Config.bitcntMax]

theorem witness_decoder : PrefixFree (setCodeAt Block.reset.code 0x61 ⟨1, 0⟩) ∧
    ∀ b ∈ ([0x61] : List Byte), (codeAt (setCodeAt Block.reset.code 0x61 ⟨1, 0⟩) b).len ≠ 0 := by
  have none_of_ne : ∀ s : Symbol, s ≠ 0x61 → storedCode (setCodeAt Block.reset.code 0x61 ⟨1, 0⟩) s = none := by
    intro s hs
    rw [storedCode, codeAt_setCodeAt_of_ne _ _ hs]
    simp [CodeEntry.noCode]
  refine ⟨fun s s' ds ds' hne h h' => ?_, by simp⟩
  by_cases hs : s = 0x61
  · have : s' ≠ 0x61 := fun e => hne (hs.trans e.symm)
    exact absurd ((none_of_ne s' this).symm.trans h') (by simp)
  · exact absurd ((none_of_ne s hs).symm.trans h) (by simp)

theorem witness_treeWalk : ∀ b ∈ ([0x61, 0x62] : List Byte), freqAt abFreq b ≠ 0 := by decide +kernel

theorem witness_scan : ∀ x, symbolCount [0x61, 0x61] x ≤ 0x7FFFFFFF := fun x =>
  (List.count_le_length).trans (by decide)

theorem witness_roundTrip : WithinFormat [0x61] :=
  ⟨fun _ => (List.count_le_length).trans (by decide), by decide +kernel⟩

end Sys2Proof.Tests.Slice0
end

/-! PROOFS. The register map's addresses as numbers, and the decoder's other direction. -/

namespace Sys2Proof

/-! ## The windows of the register map, by number (R36, R180) -/

@[simp] theorem freqAddr_toNat (s : Symbol) : (freqAddr s).toNat = 0x100 + s.toNat := by
  have := s.isLt
  simp only [freqAddr, BitVec.toNat_append, BitVec.toNat_ofNat]
  rw [← Nat.shiftLeft_add_eq_or_of_lt this]
  omega

@[simp] theorem codeAddr_toNat (s : Symbol) (w : BitVec 4) :
    (codeAddr s w).toNat = 0x1000 + 16 * s.toNat + w.toNat := by
  have hs := s.isLt
  have hw := w.isLt
  simp only [codeAddr, BitVec.toNat_append, BitVec.toNat_ofNat]
  rw [← Nat.shiftLeft_add_eq_or_of_lt hw, ← Nat.shiftLeft_add_eq_or_of_lt hs]
  omega

theorem inFreqWindow_iff (a : Addr) : inFreqWindow a = true ↔ 0x100 ≤ a.toNat ∧ a.toNat < 0x200 := by
  have := a.isLt
  simp only [inFreqWindow, beq_iff_eq, ← BitVec.toNat_inj, BitVec.extractLsb'_toNat, Nat.shiftRight_eq_div_pow,
    BitVec.toNat_ofNat]
  omega

theorem inCodeWindow_iff (a : Addr) : inCodeWindow a = true ↔ 0x1000 ≤ a.toNat := by
  have := a.isLt
  simp only [inCodeWindow, beq_iff_eq, ← BitVec.toNat_inj, BitVec.extractLsb'_toNat, Nat.shiftRight_eq_div_pow,
    BitVec.toNat_ofNat]
  omega

@[simp] theorem freqWindowSym_freqAddr (s : Symbol) : freqWindowSym (freqAddr s) = s := by
  have := s.isLt
  apply BitVec.eq_of_toNat_eq
  simp only [freqWindowSym, BitVec.extractLsb'_toNat, freqAddr_toNat]
  omega

@[simp] theorem codeWindowSym_codeAddr (s : Symbol) (w : BitVec 4) : codeWindowSym (codeAddr s w) = s := by
  have hs := s.isLt
  have hw := w.isLt
  apply BitVec.eq_of_toNat_eq
  simp only [codeWindowSym, BitVec.extractLsb'_toNat, codeAddr_toNat, Nat.shiftRight_eq_div_pow]
  omega

@[simp] theorem codeWindowWord_codeAddr (s : Symbol) (w : BitVec 4) : codeWindowWord (codeAddr s w) = w := by
  have hw := w.isLt
  apply BitVec.eq_of_toNat_eq
  simp only [codeWindowWord, BitVec.extractLsb'_toNat, codeAddr_toNat]
  omega

/-- An address in the FREQ window is the address of the entry its low byte names. -/
theorem freqAddr_freqWindowSym {a : Addr} (h : inFreqWindow a = true) : freqAddr (freqWindowSym a) = a := by
  have := (inFreqWindow_iff a).1 h
  apply BitVec.eq_of_toNat_eq
  simp only [freqAddr_toNat, freqWindowSym, BitVec.extractLsb'_toNat]
  omega

/-- An address in the CODE window is the address of the word its low twelve bits name. -/
theorem codeAddr_codeWindow {a : Addr} (h : inCodeWindow a = true) :
    codeAddr (codeWindowSym a) (codeWindowWord a) = a := by
  have h1 := (inCodeWindow_iff a).1 h
  have h2 := a.isLt
  apply BitVec.eq_of_toNat_eq
  simp only [codeAddr_toNat, codeWindowSym, codeWindowWord, BitVec.extractLsb'_toNat, Nat.shiftRight_eq_div_pow]
  omega

/-! ## What decodes is the encoding of what it decodes to (R70, R84) -/

theorem encode_of_decodeCommand {v : Word} {i : Instr} (h : decodeCommand v = .ok i) : encode i = .write addrCmd v := by
  unfold decodeCommand at h
  split_ifs at h with h1 h2 h3 h4 h5 h6 <;> (injection h with h; subst h; simp [encode, *])

theorem encode_of_decodeWrite {a : Addr} {v : Word} {i : Instr} (h : decodeWrite a v = .ok i) :
    encode i = .write a v := by
  unfold decodeWrite at h
  split_ifs at h with h0 h3 h5 h6 hf
  · rw [h0]; exact encode_of_decodeCommand h
  all_goals injection h with h; subst h
  · rw [h3]; rfl
  · rw [h5]; rfl
  · rw [h6]; rfl
  · exact congrArg (Txn.write · v) (freqAddr_freqWindowSym hf)

theorem encode_of_decodeRead {a : Addr} {i : Instr} (h : decodeRead a = .ok i) : encode i = .read a := by
  unfold decodeRead at h
  split_ifs at h with h1 h2 h3 h4 hf hc
  all_goals injection h with h; subst h
  · rw [h1]; rfl
  · rw [h2]; rfl
  · rw [h3]; rfl
  · rw [h4]; rfl
  · exact congrArg Txn.read (freqAddr_freqWindowSym hf)
  · exact congrArg Txn.read (codeAddr_codeWindow hc)

theorem encode_of_decode {t : Txn} {i : Instr} (h : decode t = .ok i) : encode i = t := by
  cases t with
  | read a => exact encode_of_decodeRead h
  | write a v => exact encode_of_decodeWrite h

end Sys2Proof

/-! PROOFS. What an instruction and a step can do: one inversion each, from which the statements over all steps follow. -/

namespace Sys2Proof.Machine

/-- Everything an instruction can do to a state, one constructor for each outcome, with the conditions under which it
happens. `exec_effect` ties it to `exec`. -/
inductive Effect (s : State) : Instr → State → Prop
  /-- a write while ERR is not 0 (R201) -/
  | ignored {i : Instr} (faulted : s.err ≠ .none) : Effect s i s
  /-- fault entry (R200) -/
  | fault {i : Instr} {c : ErrCode} (info : Byte) (ok : s.err = .none) (code : c ≠ .none) :
      Effect s i (raiseFault c info s)
  /-- a read (R55) -/
  | read {i : Instr} {a : Addr} (v : Word) (isRead : encode i = .read a) : Effect s i (respond v s)
  | clr : Effect s .clr (clearBlock s)
  | build (ok : s.err = .none) (idle : s.mode = .idle) (legal : firstBadFreq s.freq = none) :
      Effect s .build (installTree (build s.freq) (presentCount s.freq) s)
  | derive (ok : s.err = .none) (idle : s.mode = .idle) (valid : s.treeValid = true) :
      Effect s .derive (installCodes (deriveTable s.node s.root) s)
  | packBegin (ok : s.err = .none) (idle : s.mode = .idle) (valid : s.codeValid = true) :
      Effect s .packBegin { s with acc := 0, accN := 0, pbitcnt := 0, mode := .pack }
  | pushp {data : Word} (ok : s.err = .none) (inSession : s.mode = .pack) (coded : (codeAt s.code (dataByte data)).len ≠ 0)
      (fits : s.pbitcnt.toNat + (codeAt s.code (dataByte data)).len.toNat ≤ Config.bitcntMax) :
      Effect s (.pushp data) (packCode (codeAt s.code (dataByte data)) s)
  | packEnd (ok : s.err = .none) (inSession : s.mode = .pack) :
      Effect s .packEnd
        (emitPout (if s.accN = 0 then [] else [s.acc]) { s with acc := 0, accN := 0, mode := .idle })
  | unpackBegin (ok : s.err = .none) (idle : s.mode = .idle) (legal : legalCount s.ubitcnt = true) :
      Effect s .unpackBegin { s with urem := s.ubitcnt, mode := if s.ubitcnt = 0 then .idle else .unpack }
  | pushu {data : Word} (ok : s.err = .none) (inSession : s.mode = .unpack) :
      Effect s (.pushu data) (deliverDigits (dataByte data) (min 8 s.urem.toNat) s)
  | wrubc {v : Word} (ok : s.err = .none) : Effect s (.wrubc v) { s with ubitcnt := v }
  | wrfreq {x : Symbol} {v : Word} (ok : s.err = .none) :
      Effect s (.wrfreq x v) { s with freq := setFreqAt s.freq x v }

/-- What a state answered by `next` is. -/
theorem eq_of_next {s t : State} (h : (.next s : Result) = .next t) : t = s := by injection h with h; exact h.symm

/-- The inversion of `exec`: each instruction that answers a state has one of the effects above. -/
theorem exec_effect {i : Instr} {s t : State} (h : exec i s = .next t) : Effect s i t := by
  cases i with
  | build =>
    obtain ⟨he, rfl⟩ | ⟨he, -, rfl⟩ | ⟨x, he, -, -, rfl⟩ | ⟨he, hm, hf, rfl⟩ := execBuild_cases h
    · exact .ignored he
    · exact .fault _ he (by decide)
    · exact .fault _ he (by decide)
    · exact .build he hm hf
  | derive =>
    obtain ⟨he, rfl⟩ | ⟨he, -, rfl⟩ | ⟨he, hm, hv, rfl⟩ := execDerive_cases h
    · exact .ignored he
    · exact .fault _ he (by decide)
    · exact .derive he hm hv
  | packBegin =>
    obtain ⟨he, rfl⟩ | ⟨he, -, rfl⟩ | ⟨he, hm, hv, rfl⟩ := execPackBegin_cases h
    · exact .ignored he
    · exact .fault _ he (by decide)
    · exact .packBegin he hm hv
  | packEnd =>
    obtain ⟨he, rfl⟩ | ⟨he, -, rfl⟩ | ⟨he, hm, rfl⟩ := execPackEnd_cases h
    · exact .ignored he
    · exact .fault _ he (by decide)
    · exact .packEnd he hm
  | unpackBegin =>
    obtain ⟨he, rfl⟩ | ⟨he, -, rfl⟩ | ⟨he, -, -, rfl⟩ | ⟨he, hm, hc, rfl⟩ := execUnpackBegin_cases h
    · exact .ignored he
    · exact .fault _ he (by decide)
    · exact .fault _ he (by decide)
    · exact .unpackBegin he hm hc
  | clr => obtain rfl := eq_of_next h; exact .clr
  | pushp data =>
    obtain ⟨he, rfl⟩ | ⟨he, -, rfl⟩ | ⟨he, -, -, rfl⟩ | ⟨he, -, -, -, rfl⟩ | ⟨he, hm, hl, hc, rfl⟩ := execPushp_cases h
    · exact .ignored he
    · exact .fault _ he (by decide)
    · exact .fault _ he (by decide)
    · exact .fault _ he (by decide)
    · exact .pushp he hm hl hc
  | pushu data =>
    obtain ⟨he, rfl⟩ | ⟨he, -, rfl⟩ | ⟨he, hm, rfl⟩ := execPushu_cases h
    · exact .ignored he
    · exact .fault _ he (by decide)
    · exact .pushu he hm
  | wrubc v =>
    obtain ⟨he, rfl⟩ | ⟨he, rfl⟩ := execWrubc_cases h
    · exact .ignored he
    · exact .wrubc he
  | wrfreq x v =>
    obtain ⟨he, rfl⟩ | ⟨he, rfl⟩ := execWrfreq_cases h
    · exact .ignored he
    · exact .wrfreq he
  | rdfreq x => obtain rfl := eq_of_next h; exact .read _ rfl
  | rdstatus => obtain rfl := eq_of_next h; exact .read _ rfl
  | rdpbc => obtain rfl := eq_of_next h; exact .read _ rfl
  | rdubc => obtain rfl := eq_of_next h; exact .read _ rfl
  | rdurem => obtain rfl := eq_of_next h; exact .read _ rfl
  | rdcode x w => obtain rfl := eq_of_next h; exact .read _ rfl

/-- The inversion of `step`: it waits, takes a reset, runs an instruction, or gives a transaction that decodes to none the
effect of its rejection. -/
theorem step_cases {s t : State} (h : step s = .next t) :
    (s.pending = [] ∧ t = s) ∨
    (∃ rest, s.pending = .reset :: rest ∧ t = clearBlock { s with pending := rest }) ∨
    (∃ i rest, s.pending = .txn (encode i) :: rest ∧ Effect { s with pending := rest } i t) ∨
    (∃ tx r rest, s.pending = .txn tx :: rest ∧ decode tx = .error r ∧
      performReject r { s with pending := rest } = .next t) := by
  unfold step at h
  split at h
  · exact .inl ⟨‹_›, eq_of_next h⟩
  · exact .inr (.inl ⟨_, ‹_›, eq_of_next h⟩)
  · rename_i tx rest hp
    unfold perform at h
    split at h
    · rename_i i hd
      exact .inr (.inr (.inl ⟨i, rest, by rw [encode_of_decode hd, hp], exec_effect h⟩))
    · exact .inr (.inr (.inr ⟨tx, _, rest, hp, ‹_›, h⟩))

/-- A transaction that decodes to no instruction leaves the block as it is, unless it raises ILLEGAL_CMD. -/
theorem performReject_toBlock {r : Reject} {s t : State} (h : performReject r s = .next t) :
    t.toBlock = s.toBlock ∨
    ∃ info, s.err = .none ∧ t = raiseFault .illegalCmd info s := by
  obtain ⟨-, rfl⟩ | ⟨-, rfl⟩ | ⟨info, -, he, rfl⟩ | ⟨-, -, -, rfl⟩ := performReject_next h
  · exact .inl rfl
  · exact .inl rfl
  · exact .inr ⟨info, he, rfl⟩
  · exact .inl rfl

/-! ## Who writes the tables -/

/-- The tables and flags of R21, R22, R26 and R27 that differ between two states are among those instruction `i` may write. -/
structure WritesOnlyItsTables (i : Instr) (s t : State) : Prop where
  freq : t.freq ≠ s.freq → i = .clr ∨ ∃ x v, i = .wrfreq x v
  code : t.code ≠ s.code → i = .clr ∨ i = .derive
  node : t.node ≠ s.node → i = .clr ∨ i = .build ∨ i = .derive
  flags : t.empty ≠ s.empty ∨ t.single ≠ s.single → i = .clr ∨ i = .build

theorem Effect.writesOnlyItsTables {i : Instr} {s t : State} (h : Effect s i t) : WritesOnlyItsTables i s t := by
  cases h with
  | clr => exact ⟨fun _ => .inl rfl, fun _ => .inl rfl, fun _ => .inl rfl, fun _ => .inl rfl⟩
  | build => exact ⟨absurd rfl, absurd rfl, fun _ => .inr (.inl rfl), fun _ => .inr rfl⟩
  | derive => exact ⟨absurd rfl, fun _ => .inr rfl, fun _ => .inr (.inr rfl), by simp⟩
  | wrfreq => exact ⟨fun _ => .inr ⟨_, _, rfl⟩, absurd rfl, absurd rfl, by simp⟩
  | _ => exact ⟨absurd rfl, absurd rfl, absurd rfl, by simp⟩

/-- A step is a reset, runs an instruction that writes only its tables, or leaves tables and flags alone. -/
theorem step_tables {s t : State} (h : step s = .next t) :
    (∃ rest, s.pending = .reset :: rest) ∨
    (∃ i rest, s.pending = .txn (encode i) :: rest ∧ WritesOnlyItsTables i s t) ∨
    (t.freq = s.freq ∧ t.code = s.code ∧ t.node = s.node ∧ t.empty = s.empty ∧ t.single = s.single) := by
  obtain ⟨-, rfl⟩ | ⟨rest, hp, -⟩ | ⟨i, rest, hp, he⟩ | ⟨tx, r, rest, -, -, hr⟩ := step_cases h
  · exact .inr (.inr ⟨rfl, rfl, rfl, rfl, rfl⟩)
  · exact .inl ⟨rest, hp⟩
  · obtain ⟨hf, hc, hn, hfl⟩ := he.writesOnlyItsTables
    exact .inr (.inl ⟨i, rest, hp, hf, hc, hn, hfl⟩)
  · obtain hb | ⟨info, -, rfl⟩ := performReject_toBlock hr
    · exact .inr (.inr (by simp [hb]))
    · exact .inr (.inr ⟨rfl, rfl, rfl, rfl, rfl⟩)

/-- Settles O53, from what each instruction may write. -/
theorem onlyTheNamedStepsWriteTheTables : Obligations.OnlyTheNamedStepsWriteTheTables := by
  unfold Obligations.OnlyTheNamedStepsWriteTheTables
  intro s t h
  obtain ⟨rest, hp⟩ | ⟨i, rest, hp, hfreq, hcode, hnode, hflags⟩ | ⟨hfreq, hcode, hnode, hempty, hsingle⟩ :=
    step_tables h
  · exact ⟨fun _ => ⟨_, _, hp, .inl rfl⟩, fun _ => ⟨_, _, hp, .inl rfl⟩, fun _ => ⟨_, _, hp, .inl rfl⟩,
      fun _ => ⟨_, _, hp, .inl rfl⟩⟩
  · have enc {j : Instr} (hij : i = j) : Event.txn (encode i) = .txn (encode j) := by rw [hij]
    exact ⟨fun hne => ⟨_, _, hp, .inr ((hfreq hne).imp enc fun ⟨x, v, hi⟩ => ⟨x, v, enc hi⟩)⟩,
      fun hne => ⟨_, _, hp, .inr ((hcode hne).imp enc enc)⟩,
      fun hne => ⟨_, _, hp, .inr ((hnode hne).imp enc (Or.imp enc enc))⟩,
      fun hne => ⟨_, _, hp, .inr ((hflags hne).imp enc enc)⟩⟩
  · exact ⟨absurd hfreq, absurd hcode, absurd hnode, fun hne => (hne.elim (· hempty) (· hsingle)).elim⟩
end Sys2Proof.Machine

/-! PROOFS. The register port: the word at each address, the STATUS word, and the values after reset. -/

namespace Sys2Proof.Machine

/-! ## The register map (R36, R45, R46, R57) -/

theorem portRead_freqAddr (b : Block) (s : Symbol) : portRead b (freqAddr s) = freqAt b.freq s := by
  have hw : inFreqWindow (freqAddr s) = true := (inFreqWindow_iff _).2 (by have := s.isLt; rw [freqAddr_toNat]; omega)
  have hne (n : Nat) (h : n < 0x100) : freqAddr s ≠ BitVec.ofNat 13 n := fun e => by
    have := congrArg BitVec.toNat e
    rw [freqAddr_toNat, BitVec.toNat_ofNat] at this
    omega
  simp [portRead, hw, hne 1, hne 2, hne 3, hne 4]

theorem portRead_codeAddr (b : Block) (s : Symbol) (w : BitVec 4) :
    portRead b (codeAddr s w) = codeEntryWord (codeAt b.code s) w := by
  have hw : inCodeWindow (codeAddr s w) = true := (inCodeWindow_iff _).2 (by rw [codeAddr_toNat]; omega)
  have hf : inFreqWindow (codeAddr s w) = false := by
    rw [← Bool.not_eq_true, inFreqWindow_iff, codeAddr_toNat]; omega
  have hne (n : Nat) (h : n < 0x100) : codeAddr s w ≠ BitVec.ofNat 13 n := fun e => by
    have := congrArg BitVec.toNat e
    rw [codeAddr_toNat, BitVec.toNat_ofNat] at this
    omega
  simp [portRead, hw, hf, hne 1, hne 2, hne 3, hne 4]

/-- Write-only and reserved addresses read as 0 (R57). -/
theorem portRead_unmapped (b : Block) {a : Addr} (h : a.toNat = 0 ∨ a.toNat = 5 ∨ a.toNat = 6 ∨ reservedAddr a) :
    portRead b a = 0 := by
  unfold reservedAddr at h
  have hf : inFreqWindow a = false := by rw [← Bool.not_eq_true, inFreqWindow_iff]; omega
  have hc : inCodeWindow a = false := by rw [← Bool.not_eq_true, inCodeWindow_iff]; omega
  have hne (n : Nat) (h1 : 1 ≤ n) (h4 : n ≤ 4) : a ≠ BitVec.ofNat 13 n := fun e => by
    have := congrArg BitVec.toNat e
    rw [BitVec.toNat_ofNat] at this
    omega
  simp [portRead, hf, hc, hne 1, hne 2, hne 3, hne 4]

/-- Settles O15: each address by number. -/
theorem registerMapWords : Obligations.RegisterMapWords := by
  unfold Obligations.RegisterMapWords
  intro b a
  have of_toNat {c : Addr} (h : a.toNat = c.toNat) : a = c := BitVec.eq_of_toNat_eq h
  refine ⟨fun h => ?_, fun h => ?_, fun h => ?_, fun h => ?_, fun x h => ?_, fun x w h => ?_, fun h => ?_⟩
  · rw [of_toNat (c := addrStatus) h]; rfl
  · rw [of_toNat (c := addrPbitcnt) h]; rfl
  · rw [of_toNat (c := addrUbitcnt) h]; rfl
  · rw [of_toNat (c := addrUrem) h]; rfl
  · rw [of_toNat (h.trans (freqAddr_toNat x).symm)]; exact portRead_freqAddr b x
  · rw [of_toNat (h.trans (codeAddr_toNat x w).symm)]; exact portRead_codeAddr b x w
  · exact portRead_unmapped b h

/-! ## The STATUS word (R37, R185) -/

/-- A field laid above the bits in use adds its number at its place. -/
theorem toNat_or_field {w k : Nat} {x : Word} {n : Nat} (y : BitVec w) (hx : x.toNat = n) (hn : n < 2 ^ k)
    (hw : w + k ≤ 32) : (x ||| y.setWidth 32 <<< k).toNat = n + y.toNat * 2 ^ k := by
  subst hx
  have hy : y.toNat * 2 ^ k < 2 ^ 32 := calc
    y.toNat * 2 ^ k < 2 ^ w * 2 ^ k := Nat.mul_lt_mul_of_pos_right y.isLt (Nat.two_pow_pos k)
    _ ≤ 2 ^ 32 := by rw [← Nat.pow_add]; exact Nat.pow_le_pow_right (by omega) hw
  have hy' : y.toNat < 2 ^ 32 := lt_of_le_of_lt (Nat.le_mul_of_pos_right _ (Nat.two_pow_pos k)) hy
  rw [BitVec.toNat_or, BitVec.toNat_shiftLeft, BitVec.toNat_setWidth, Nat.mod_eq_of_lt hy', Nat.shiftLeft_eq,
    Nat.mod_eq_of_lt hy, Nat.or_comm, Nat.mul_comm, ← Nat.two_pow_add_eq_or_of_lt hn, Nat.add_comm]

@[simp] theorem flagBit_toNat (x : Bool) : (flagBit x).toNat = x.toNat := by simp [flagBit]

/-- STATUS as a number. -/
theorem statusWord_toNat (b : Block) : (statusWord b).toNat =
    b.treeValid.toNat + b.codeValid.toNat * 2 + (modeBits b.mode).toNat * 4 + b.empty.toNat * 16 + b.single.toNat * 32 +
      (errBits b.err).toNat * 256 + b.errinfo.toNat * 65536 := by
  have h1 := b.treeValid.toNat_lt
  have h2 := b.codeValid.toNat_lt
  have h3 := (modeBits b.mode).isLt
  have h4 := b.empty.toNat_lt
  have h5 := b.single.toNat_lt
  have h6 := (errBits b.err).isLt
  have h0 : ((flagBit b.treeValid).setWidth 32).toNat = b.treeValid.toNat := by
    rw [BitVec.toNat_setWidth, flagBit_toNat]; omega
  have e1 := toNat_or_field (k := 1) (flagBit b.codeValid) h0 (by omega) (by decide)
  have e2 := toNat_or_field (k := 2) (modeBits b.mode) e1 (by rw [flagBit_toNat]; omega) (by decide)
  have e3 := toNat_or_field (k := 4) (flagBit b.empty) e2 (by rw [flagBit_toNat]; omega) (by decide)
  have e4 := toNat_or_field (k := 5) (flagBit b.single) e3 (by simp only [flagBit_toNat]; omega) (by decide)
  have e5 := toNat_or_field (k := 8) (errBits b.err) e4 (by simp only [flagBit_toNat]; omega) (by decide)
  have e6 := toNat_or_field (k := 16) b.errinfo e5 (by simp only [flagBit_toNat]; omega) (by decide)
  simpa only [statusWord, flagBit_toNat, Nat.reducePow] using e6

/-- A bit of a word, by its number. -/
theorem getLsbD_of_toNat {w : Nat} {v : BitVec w} {k : Nat} {x : Bool} (h : v.toNat / 2 ^ k % 2 = x.toNat) :
    v.getLsbD k = x := by
  rw [← BitVec.testBit_toNat, Nat.testBit_eq_decide_div_mod_eq, h]
  cases x <;> rfl

/-- A field of a word, by its number. -/
theorem extractLsb'_toNat_of_div_mod {w k n : Nat} {v : BitVec w} {m : Nat} (h : v.toNat / 2 ^ k % 2 ^ n = m) :
    (v.extractLsb' k n).toNat = m := by
  rw [BitVec.extractLsb'_toNat, Nat.shiftRight_eq_div_pow, h]

/-- Settles O16: the fields of STATUS read off its number. -/
theorem rdstatusReturnsTheFields : Obligations.RdstatusReturnsTheFields := by
  unfold Obligations.RdstatusReturnsTheFields
  intro s
  have h1 := s.treeValid.toNat_lt
  have h2 := s.codeValid.toNat_lt
  have h3 := (modeBits s.mode).isLt
  have h4 := s.empty.toNat_lt
  have h5 := s.single.toNat_lt
  have h6 := (errBits s.err).isLt
  have h7 := s.errinfo.isLt
  have hv := statusWord_toNat s.toBlock
  have hmode : (statusWord s.toBlock).extractLsb' 2 2 = modeBits s.mode :=
    BitVec.eq_of_toNat_eq (extractLsb'_toNat_of_div_mod (by omega))
  have herr : (statusWord s.toBlock).extractLsb' 8 4 = errBits s.err :=
    BitVec.eq_of_toNat_eq (extractLsb'_toNat_of_div_mod (by omega))
  refine ⟨statusWord s.toBlock, rfl, ?_, ?_, ?_, ?_, ?_, ?_, ?_, ?_, ?_, ?_⟩
  · exact getLsbD_of_toNat (by omega)
  · exact getLsbD_of_toNat (by omega)
  · exact hmode ▸ by cases s.mode <;> rfl
  · exact getLsbD_of_toNat (by omega)
  · exact getLsbD_of_toNat (by omega)
  · exact BitVec.eq_of_toNat_eq (extractLsb'_toNat_of_div_mod (m := 0) (by omega))
  · exact herr ▸ by cases s.err <;> rfl
  · exact BitVec.eq_of_toNat_eq (extractLsb'_toNat_of_div_mod (m := 0) (by omega))
  · exact BitVec.eq_of_toNat_eq (extractLsb'_toNat_of_div_mod (by omega))
  · exact BitVec.eq_of_toNat_eq (extractLsb'_toNat_of_div_mod (m := 0) (by omega))

/-! ## The CODE window (R46) -/

/-- Settles O17: the words of the CODE window are LEN, the eight words of BITS, and 0. -/
theorem rdcodeReturnsTheEntryWord : Obligations.RdcodeReturnsTheEntryWord := by
  unfold Obligations.RdcodeReturnsTheEntryWord
  intro s x w
  refine ⟨codeEntryWord (codeAt s.code x) w, rfl, fun h => ?_, fun ⟨h1, h8⟩ j hj => ?_, fun h => ?_⟩
  · have hw : w = 0 := BitVec.eq_of_toNat_eq h
    have hl := (codeAt s.code x).len.isLt
    rw [codeEntryWord, if_pos hw, BitVec.toNat_setWidth]
    omega
  · have hw : w ≠ 0 := fun e => by simp [e] at h1
    rw [codeEntryWord, if_neg hw, if_pos h8]
    simp [hj]
  · have hw : w ≠ 0 := fun e => by simp [e] at h
    rw [codeEntryWord, if_neg hw, if_neg (by omega)]

/-! ## Reset and CLR -/

/-- The reset block reads STATUS = 0. -/
@[simp] theorem statusWord_reset : statusWord Block.reset = 0 := by decide

/-- Settles O12: reset and CLR both leave the block of R48. -/
theorem resetAndClrValues : Obligations.ResetAndClrValues := by
  unfold Obligations.ResetAndClrValues
  intro s t h
  have ht : t.toBlock = Block.reset := by
    rcases h with rfl | h
    · rfl
    · rw [eq_of_next h]; rfl
  simp [ht, CodeEntry.noCode]

/-- R47 on the reset block: no session, no tree, no table. -/
theorem Block.reset_inv : Block.reset.Inv := by
  constructor <;> simp [CodeEntry.noCode]

/-- Settles O51. -/
theorem resetSatisfiesTheInvariant : Obligations.ResetSatisfiesTheInvariant := by
  unfold Obligations.ResetSatisfiesTheInvariant
  exact Block.reset_inv

end Sys2Proof.Machine

/-! PROOFS. The queue, the merge loop and the leaves of the Tree Builder. -/

namespace Sys2Proof.Machine

/-! ## The queue and the merge loop (R92, R93) -/

theorem removeFirst_perm {nodes : List Node} {q q' : List Nat} {a : Nat} (h : removeFirst nodes q = some (a, q')) :
    q.Perm (a :: q') := by
  unfold removeFirst at h
  split at h
  · cases h
  · rename_i b hb
    obtain ⟨rfl, rfl⟩ : b = a ∧ q.erase b = q' := by simpa using h
    exact List.perm_cons_erase (firstOf_mem nodes q b hb)

theorem removeFirst_eq_none {nodes : List Node} {q : List Nat} (h : removeFirst nodes q = none) : q = [] := by
  unfold removeFirst at h
  split at h
  · exact (firstOf_eq_none nodes q).1 ‹_›
  · cases h

/-- A pass takes two indices off the queue, appends their merged node and queues its index. -/
theorem mergePass_some {nodes nodes' : List Node} {q q' : List Nat} (h : mergePass nodes q = some (nodes', q')) :
    ∃ a b rest, q.Perm (a :: b :: rest) ∧ nodes' = nodes ++ [mergedNode nodes a b] ∧ q' = rest ++ [nodes.length] := by
  unfold mergePass at h
  split at h
  · cases h
  · rename_i a q1 h1
    split at h
    · cases h
    · rename_i b q2 h2
      obtain ⟨rfl, rfl⟩ := by simpa using h
      exact ⟨a, b, q2, (removeFirst_perm h1).trans ((removeFirst_perm h2).cons a), rfl, rfl⟩

/-- No pass is made only when fewer than two indices are queued. -/
theorem length_lt_two_of_mergePass_none {nodes : List Node} {q : List Nat} (h : mergePass nodes q = none) :
    q.length < 2 := by
  unfold mergePass at h
  split at h
  · rename_i h1
    simp [removeFirst_eq_none h1]
  · rename_i a q1 h1
    split at h
    · rename_i h2
      have := (removeFirst_length h1).2
      rw [removeFirst_eq_none h2] at this
      exact this ▸ by simp
    · cases h

/-- What every pass keeps, the merge loop keeps. -/
theorem mergeLoop_keeps (P : List Node → List Nat → Prop)
    (hpass : ∀ nodes q nodes' q', mergePass nodes q = some (nodes', q') → P nodes q → P nodes' q') :
    ∀ (fuel : Nat) (nodes : List Node) (q : List Nat), P nodes q →
      P (mergeLoop fuel nodes q).1 (mergeLoop fuel nodes q).2
  | 0, _, _, h => h
  | fuel + 1, nodes, q, h => by
    unfold mergeLoop
    split
    · exact h
    · rename_i nodes' q' hp
      exact mergeLoop_keeps P hpass fuel nodes' q' (hpass _ _ _ _ hp h)

/-- With fuel for a pass per queued index but one, the loop ends with at most one index queued. -/
theorem mergeLoop_length_le_one : ∀ (fuel : Nat) (nodes : List Node) (q : List Nat), q.length ≤ fuel + 1 →
    (mergeLoop fuel nodes q).2.length ≤ 1
  | 0, _, _, h => h
  | fuel + 1, nodes, q, h => by
    unfold mergeLoop
    split
    · rename_i hp
      have := length_lt_two_of_mergePass_none hp
      show q.length ≤ 1
      omega
    · rename_i nodes' q' hp
      have := (mergePass_length hp).2
      exact mergeLoop_length_le_one fuel nodes' q' (by omega)

/-! ## Weights and links -/

theorem weightAt_append_left {nodes : List Node} (m : List Node) {i : Nat} (h : i < nodes.length) :
    weightAt (nodes ++ m) i = weightAt nodes i := by
  rw [weightAt, List.getElem?_append_left h]; rfl

@[simp] theorem weightAt_append_length (nodes : List Node) (n : Node) :
    weightAt (nodes ++ [n]) nodes.length = n.weight.toNat := by
  simp [weightAt]

/-- The weights of all nodes of a list, by index. -/
theorem map_weightAt_range (nodes : List Node) :
    (List.range nodes.length).map (weightAt nodes) = nodes.map (·.weight.toNat) := by
  apply List.ext_getElem
  · simp
  · intro i _ h
    rw [List.length_map] at h
    simp [weightAt, h]

/-- An index below 511, as a node index, is that number and is not NONE. -/
theorem toNat_ofNat_nodeIdx {i : Nat} (h : i < 511) : (BitVec.ofNat 9 i).toNat = i := by
  rw [BitVec.toNat_ofNat]; omega

theorem ofNat_nodeIdx_inj {i j : Nat} (hi : i < 511) (hj : j < 511) : BitVec.ofNat 9 i = BitVec.ofNat 9 j ↔ i = j := by
  rw [← BitVec.toNat_inj, toNat_ofNat_nodeIdx hi, toNat_ofNat_nodeIdx hj]

theorem ne_none_of_toNat_lt {i : NodeIdx} (h : i.toNat < 511) : i ≠ Config.none := by
  rintro rfl
  exact absurd h (by decide)

/-! ## The leaves (R91) -/

/-- A Leaf without children (R22). -/
def IsLeafNode (n : Node) : Prop := n.kind = .leaf ∧ n.left = Config.none ∧ n.right = Config.none

theorem mem_presentSymbols {f : FreqTable} {s : Symbol} : s ∈ presentSymbols f ↔ freqAt f s ≠ 0 := by
  simp [presentSymbols, mem_allSymbols]

theorem presentSymbols_nodup (f : FreqTable) : (presentSymbols f).Nodup := allSymbols_nodup.filter _

theorem presentCount_le (f : FreqTable) : presentCount f ≤ 256 :=
  (List.length_filter_le _ _).trans_eq allSymbols_length

@[simp] theorem leaves_length (f : FreqTable) : (leaves f).length = presentCount f := by simp [leaves, presentCount]

theorem isLeafNode_of_mem_leaves {f : FreqTable} {n : Node} (h : n ∈ leaves f) : IsLeafNode n := by
  obtain ⟨s, -, rfl⟩ := List.mem_map.1 h
  exact ⟨rfl, rfl, rfl⟩

theorem weight_of_mem_leaves {f : FreqTable} {n : Node} (h : n ∈ leaves f) : n.weight.toNat = (freqAt f n.sym).toNat := by
  obtain ⟨s, -, rfl⟩ := List.mem_map.1 h
  have := (freqAt f s).isLt
  exact (BitVec.toNat_setWidth ..).trans (Nat.mod_eq_of_lt (by omega))

/-- One Leaf for each symbol present. -/
theorem countP_leaves (f : FreqTable) (s : Symbol) :
    (leaves f).countP (fun n => n.kind == .leaf && n.sym == s) = if freqAt f s = 0 then 0 else 1 := by
  have : (leaves f).countP (fun n => n.kind == .leaf && n.sym == s) = (presentSymbols f).count s := by
    rw [leaves, List.countP_map]; rfl
  rw [this, List.Nodup.count (presentSymbols_nodup f)]
  simp [mem_presentSymbols]

/-- The sum of the weights of a list of leaves. -/
def totalWeight (ls : List Node) : Nat := (ls.map (·.weight.toNat)).sum

/-- R98: the counts of a legal table add up to less than 2^39. -/
theorem totalWeight_leaves_lt {f : FreqTable} (h : LegalTable f) : totalWeight (leaves f) < 2 ^ 39 := by
  have hle : totalWeight (leaves f) ≤ ((leaves f).map (·.weight.toNat)).length • Config.freqMax := by
    refine List.sum_le_card_nsmul _ _ fun w hw => ?_
    obtain ⟨n, hn, rfl⟩ := List.mem_map.1 hw
    exact weight_of_mem_leaves hn ▸ h n.sym
  have := presentCount_le f
  simp only [List.length_map, leaves_length, smul_eq_mul, Config.freqMax] at hle
  omega

end Sys2Proof.Machine

/-! PROOFS. The invariant of the merge loop, for the links and for the weights. -/

namespace Sys2Proof.Machine

/-! ## The loop invariant of the Tree Builder -/

/-- An Internal node at index `i`: both children stand below it, its weight is the sum of theirs in 40 bits, and SYM is 0
(R93). -/
def LinkedBelow (nodes : List Node) (i : Nat) (n : Node) : Prop :=
  n.left.toNat < i ∧ n.right.toNat < i ∧
    n.weight = BitVec.ofNat 40 (weightAt nodes n.left.toNat + weightAt nodes n.right.toNat) ∧ n.sym = 0

/-- The invariant of the loop of R93 over the leaves `ls`, for any weights: the nodes so far and the queue. -/
structure MergeInv (ls nodes : List Node) (q : List Nat) : Prop where
  /-- the leaves come first, and only Internal nodes follow -/
  leavesFirst : ∃ ints : List Node, nodes = ls ++ ints ∧ ∀ n ∈ ints, n.kind = .internal
  /-- each pass adds a node and shortens the queue by one -/
  count : nodes.length + q.length = 2 * ls.length
  nodup : q.Nodup
  inUse : ∀ i ∈ q, i < nodes.length
  /-- the newest node is the last in the queue -/
  newest : q.getLast? = some (nodes.length - 1)
  linked : ∀ (i : Nat) (n : Node), nodes[i]? = some n → n.kind = .internal → LinkedBelow nodes i n
  /-- a node is linked to exactly once when it has left the queue, and before that not at all -/
  owned : ∀ i < nodes.length, (nodes.map (Node.linksTo (BitVec.ofNat 9 i))).sum = if i ∈ q then 0 else 1

/-- The invariant of the loop of R93 for weights that add up to `total` without overflow (R98). -/
structure WeightInv (total : Nat) (nodes : List Node) (q : List Nat) : Prop where
  queued : (q.map (weightAt nodes)).sum = total
  children : ∀ (i : Nat) (n : Node), nodes[i]? = some n → n.kind = .internal →
    n.weight.toNat = weightAt nodes n.left.toNat + weightAt nodes n.right.toNat

/-- A Leaf links to no entry of the arena. -/
theorem linksTo_eq_zero_of_isLeafNode {n : Node} (h : IsLeafNode n) {i : Nat} (hi : i < 511) :
    n.linksTo (BitVec.ofNat 9 i) = 0 := by
  obtain ⟨-, hl, hr⟩ := h
  have : Config.none ≠ BitVec.ofNat 9 i := fun e => ne_none_of_toNat_lt (by rwa [toNat_ofNat_nodeIdx hi]) e.symm
  simp [Node.linksTo, hl, hr, this]

/-- At the start the leaves are the nodes and all of them are queued. -/
theorem mergeInv_leaves {ls : List Node} (hls : ∀ n ∈ ls, IsLeafNode n) (hpos : 0 < ls.length)
    (hlen : ls.length ≤ 256) : MergeInv ls ls (List.range ls.length) where
  leavesFirst := ⟨[], by simp⟩
  count := by simp; omega
  nodup := List.nodup_range
  inUse := by simp
  newest := by rw [List.getLast?_range, if_neg (by omega)]
  linked i n hn hk := by
    obtain ⟨hleaf, -⟩ := hls n (List.mem_of_getElem? hn)
    exact absurd (hleaf.symm.trans hk) (by decide)
  owned i hi := by
    rw [if_pos (List.mem_range.2 hi), List.sum_eq_zero]
    intro x hx
    obtain ⟨n, hn, rfl⟩ := List.mem_map.1 hx
    exact linksTo_eq_zero_of_isLeafNode (hls n hn) (by omega)

theorem weightInv_leaves {ls : List Node} (hls : ∀ n ∈ ls, IsLeafNode n) :
    WeightInv (totalWeight ls) ls (List.range ls.length) where
  queued := by rw [map_weightAt_range]; rfl
  children i n hn hk := by
    obtain ⟨hleaf, -⟩ := hls n (List.mem_of_getElem? hn)
    exact absurd (hleaf.symm.trans hk) (by decide)

section
variable {ls nodes : List Node} {q : List Nat}

/-- A node of the loop is a Leaf or an Internal node linked below its own index. -/
theorem MergeInv.isLeafNode_or_linked (h : MergeInv ls nodes q) (hls : ∀ n ∈ ls, IsLeafNode n) {i : Nat} {n : Node}
    (hn : nodes[i]? = some n) : IsLeafNode n ∨ n.kind = .internal ∧ LinkedBelow nodes i n := by
  obtain ⟨ints, rfl, hint⟩ := h.leavesFirst
  rcases List.mem_append.1 (List.mem_of_getElem? hn) with hm | hm
  · exact .inl (hls n hm)
  · exact .inr ⟨hint n hm, h.linked i n hn (hint n hm)⟩

/-- No node links to the index that the next node will get. -/
theorem MergeInv.sum_linksTo_length (h : MergeInv ls nodes q) (hls : ∀ n ∈ ls, IsLeafNode n) (hn : nodes.length < 511) :
    (nodes.map (Node.linksTo (BitVec.ofNat 9 nodes.length))).sum = 0 := by
  rw [List.sum_eq_zero]
  intro x hx
  obtain ⟨n, hm, rfl⟩ := List.mem_map.1 hx
  obtain ⟨i, hi, hin⟩ := List.getElem_of_mem hm
  rcases h.isLeafNode_or_linked hls (List.getElem?_eq_some_iff.2 ⟨hi, hin⟩) with hl | ⟨-, hl, hr, -⟩
  · exact linksTo_eq_zero_of_isLeafNode hl hn
  · have ne {j : NodeIdx} (hj : j.toNat < i) : j ≠ BitVec.ofNat 9 nodes.length := by
      rintro rfl
      rw [toNat_ofNat_nodeIdx hn] at hj
      omega
    simp [Node.linksTo, ne hl, ne hr]

/-- The node at an index of a list with one more node: an old one, or the new one at the end. -/
theorem getElem?_append_singleton {n m : Node} {i : Nat} (h : (nodes ++ [m])[i]? = some n) :
    (i < nodes.length ∧ nodes[i]? = some n) ∨ (i = nodes.length ∧ n = m) := by
  by_cases hi : i < nodes.length
  · exact .inl ⟨hi, by rwa [List.getElem?_append_left hi] at h⟩
  · obtain rfl : i = nodes.length := by
      have := (List.getElem?_eq_some_iff.1 h).1
      rw [List.length_append, List.length_singleton] at this
      omega
    exact .inr ⟨rfl, by simpa using h.symm⟩

theorem mergedNode_left {a b : Nat} (ha : a < 511) : (mergedNode nodes a b).left.toNat = a := toNat_ofNat_nodeIdx ha

theorem mergedNode_right {a b : Nat} (hb : b < 511) : (mergedNode nodes a b).right.toNat = b := toNat_ofNat_nodeIdx hb

/-- How often a merged node links to an index. -/
theorem linksTo_mergedNode {a b i : Nat} (ha : a < 511) (hb : b < 511) (hi : i < 511) :
    (mergedNode nodes a b).linksTo (BitVec.ofNat 9 i) = (if a = i then 1 else 0) + if b = i then 1 else 0 := by
  simp only [Node.linksTo, mergedNode, Node.mkInternal, ofNat_nodeIdx_inj ha hi, ofNat_nodeIdx_inj hb hi]

/-- A pass of the merge loop keeps its invariant. -/
theorem MergeInv.pass (h : MergeInv ls nodes q) (hls : ∀ n ∈ ls, IsLeafNode n) (hlen : ls.length ≤ 256)
    {nodes' : List Node} {q' : List Nat} (hp : mergePass nodes q = some (nodes', q')) : MergeInv ls nodes' q' := by
  obtain ⟨a, b, rest, hq, rfl, rfl⟩ := mergePass_some hp
  have hql := hq.length_eq
  simp only [List.length_cons] at hql
  have hcount := h.count
  have hsize : nodes.length < 511 := by omega
  have hnodup := hq.nodup_iff.1 h.nodup
  simp only [List.nodup_cons, List.mem_cons, not_or] at hnodup
  obtain ⟨⟨hab, har⟩, hbr, hrest⟩ := hnodup
  have hin {i : Nat} (hi : i ∈ a :: b :: rest) : i < nodes.length := h.inUse i (hq.mem_iff.2 hi)
  have ha := hin (i := a) (by simp)
  have hb := hin (i := b) (by simp)
  have hr {i : Nat} (hi : i ∈ rest) : i < nodes.length := hin (by simp [hi])
  constructor
  case leavesFirst =>
    obtain ⟨ints, rfl, hint⟩ := h.leavesFirst
    refine ⟨ints ++ [mergedNode (ls ++ ints) a b], by simp, fun n hn => ?_⟩
    rcases List.mem_append.1 hn with hn | hn
    · exact hint n hn
    · rw [List.mem_singleton.1 hn]; rfl
  case count => simp; omega
  case nodup =>
    refine List.nodup_append.2 ⟨hrest, by simp, fun i hi j hj => ?_⟩
    exact List.mem_singleton.1 hj ▸ (hr hi).ne
  case inUse =>
    intro i hi
    rw [List.length_append, List.length_singleton]
    rcases List.mem_append.1 hi with hi | hi
    · exact (hr hi).trans (Nat.lt_succ_self _)
    · exact List.mem_singleton.1 hi ▸ Nat.lt_succ_self _
  case newest => simp
  case linked =>
    intro i n hn hk
    obtain ⟨hi, hn⟩ | ⟨rfl, rfl⟩ := getElem?_append_singleton hn
    · obtain ⟨hl, hr, hwt, hs⟩ := h.linked i n hn hk
      exact ⟨hl, hr, by rw [weightAt_append_left _ (hl.trans hi), weightAt_append_left _ (hr.trans hi), hwt], hs⟩
    · have hla := mergedNode_left (nodes := nodes) (b := b) (ha.trans hsize)
      have hrb := mergedNode_right (nodes := nodes) (a := a) (hb.trans hsize)
      refine ⟨hla.trans_lt ha, hrb.trans_lt hb, ?_, rfl⟩
      rw [hla, hrb, weightAt_append_left _ ha, weightAt_append_left _ hb]
      rfl
  case owned =>
    intro i hi
    rw [List.length_append, List.length_singleton] at hi
    rw [List.map_append, List.sum_append, List.map_singleton, List.sum_singleton,
      linksTo_mergedNode (ha.trans hsize) (hb.trans hsize) (by omega)]
    by_cases hil : i < nodes.length
    · have hmem : i ∈ q ↔ i = a ∨ i = b ∨ i ∈ rest := by rw [hq.mem_iff]; simp
      have hmem' : i ∈ rest ++ [nodes.length] ↔ i ∈ rest := by simp; omega
      rw [h.owned i hil]
      grind
    · obtain rfl : i = nodes.length := by omega
      rw [h.sum_linksTo_length hls hsize]
      simp [ha.ne, hb.ne]

/-- A pass of the merge loop adds weights without overflow, and loses none. -/
theorem WeightInv.pass {total : Nat} (h : WeightInv total nodes q) (hm : MergeInv ls nodes q) (hlen : ls.length ≤ 256)
    (htotal : total < 2 ^ 40) {nodes' : List Node} {q' : List Nat} (hp : mergePass nodes q = some (nodes', q')) :
    WeightInv total nodes' q' := by
  obtain ⟨a, b, rest, hq, rfl, rfl⟩ := mergePass_some hp
  have hql := hq.length_eq
  simp only [List.length_cons] at hql
  have hcount := hm.count
  have hsize : nodes.length < 511 := by omega
  have hin {i : Nat} (hi : i ∈ a :: b :: rest) : i < nodes.length := hm.inUse i (hq.mem_iff.2 hi)
  have ha := hin (i := a) (by simp)
  have hb := hin (i := b) (by simp)
  have hsum := h.queued
  rw [(hq.map (weightAt nodes)).sum_eq, List.map_cons, List.map_cons, List.sum_cons, List.sum_cons] at hsum
  have hweight : (mergedNode nodes a b).weight.toNat = weightAt nodes a + weightAt nodes b :=
    (BitVec.toNat_ofNat ..).trans (Nat.mod_eq_of_lt (by omega))
  constructor
  case queued =>
    have : rest.map (weightAt (nodes ++ [mergedNode nodes a b])) = rest.map (weightAt nodes) :=
      List.map_congr_left fun i hi => weightAt_append_left _ (hin (by simp [hi]))
    rw [List.map_append, List.sum_append, this, List.map_singleton, List.sum_singleton, weightAt_append_length, hweight]
    omega
  case children =>
    intro i n hn hk
    obtain ⟨hi, hn⟩ | ⟨rfl, rfl⟩ := getElem?_append_singleton hn
    · obtain ⟨hl, hr, -⟩ := hm.linked i n hn hk
      rw [weightAt_append_left _ (hl.trans hi), weightAt_append_left _ (hr.trans hi), h.children i n hn hk]
    · rw [mergedNode_left (ha.trans hsize), mergedNode_right (hb.trans hsize), weightAt_append_left _ ha,
        weightAt_append_left _ hb, hweight]

end

end Sys2Proof.Machine

/-! PROOFS. The tree that `build` returns meets the invariants of R22 and R23. -/

namespace Sys2Proof.Machine

/-! ## The built tree (R90 to R97) -/

theorem buildFromLeaves_of_two_le {ls : List Node} (h : 2 ≤ ls.length) : buildFromLeaves ls =
    ⟨(mergeLoop ls.length ls (List.range ls.length)).1, rootOf (mergeLoop ls.length ls (List.range ls.length)).2⟩ := by
  match ls, h with
  | _ :: _ :: _, _ => rfl

theorem build_of_leaves_nil {f : FreqTable} (h : leaves f = []) : build f = ⟨[], Config.none⟩ := by
  rw [build, h]; rfl

theorem build_of_leaves_singleton {f : FreqTable} {l : Node} (h : leaves f = [l]) :
    build f = ⟨[l, Node.mkInternal l.weight 0 Config.none], 1⟩ := by
  rw [build, h]; rfl

/-- No symbol is present, or one, or there are two or more. -/
theorem leaves_cases (f : FreqTable) : leaves f = [] ∨ (∃ l, leaves f = [l]) ∨ 2 ≤ presentCount f := by
  rw [← leaves_length]
  match leaves f with
  | [] => exact .inl rfl
  | [l] => exact .inr (.inl ⟨l, rfl⟩)
  | _ :: _ :: _ => exact .inr (.inr (by simp))

/-- With two symbols or more the loop ends with the newest node alone in the queue, and that node is ROOT. -/
theorem build_of_two_le {f : FreqTable} (h : 2 ≤ presentCount f) :
    MergeInv (leaves f) (build f).nodes [(build f).nodes.length - 1] ∧
      (build f).root = BitVec.ofNat 9 ((build f).nodes.length - 1) ∧
      (LegalTable f → WeightInv (totalWeight (leaves f)) (build f).nodes [(build f).nodes.length - 1]) := by
  have hls : ∀ n ∈ leaves f, IsLeafNode n := fun n hn => isLeafNode_of_mem_leaves hn
  have hlen : (leaves f).length ≤ 256 := (leaves_length f).trans_le (presentCount_le f)
  have hstart := mergeInv_leaves hls (by rw [leaves_length]; omega) hlen
  have hdone := mergeLoop_length_le_one (leaves f).length (leaves f) (List.range (leaves f).length) (by simp)
  have hinv := mergeLoop_keeps (MergeInv (leaves f)) (fun _ _ _ _ hp h => h.pass hls hlen hp) (leaves f).length _ _ hstart
  have hweight (hf : LegalTable f) := (mergeLoop_keeps
    (fun nodes q => MergeInv (leaves f) nodes q ∧ WeightInv (totalWeight (leaves f)) nodes q)
    (fun _ _ _ _ hp h => ⟨h.1.pass hls hlen hp, h.2.pass h.1 hlen ((totalWeight_leaves_lt hf).trans (by decide)) hp⟩)
    (leaves f).length _ _ ⟨hstart, weightInv_leaves hls⟩).2
  rw [build, buildFromLeaves_of_two_le (by rwa [leaves_length])]
  generalize mergeLoop (leaves f).length (leaves f) (List.range (leaves f).length) = r at *
  obtain ⟨nodes, q⟩ := r
  match q, hdone with
  | [], _ => exact absurd hinv.newest (by simp)
  | [i], _ =>
    obtain rfl : i = nodes.length - 1 := by simpa using hinv.newest
    exact ⟨hinv, rfl, hweight⟩

/-- How many entries a built tree has (R91, R93, R96, R97). -/
theorem build_length (f : FreqTable) : (build f).nodes.length =
    if presentCount f = 0 then 0 else if presentCount f = 1 then 2 else 2 * presentCount f - 1 := by
  obtain hl | ⟨l, hl⟩ | h2 := leaves_cases f
  · rw [build_of_leaves_nil hl, ← leaves_length, hl]; rfl
  · rw [build_of_leaves_singleton hl, ← leaves_length, hl]; rfl
  · have := (build_of_two_le h2).1.count
    simp only [List.length_singleton, leaves_length] at this
    split_ifs <;> omega

theorem build_length_le (f : FreqTable) : (build f).nodes.length ≤ 511 := by
  have := presentCount_le f
  rw [build_length]
  split_ifs <;> omega

/-- The leaves stand first in a built tree, and only Internal nodes follow (R91, R93). -/
theorem build_leavesFirst (f : FreqTable) :
    ∃ ints : List Node, (build f).nodes = leaves f ++ ints ∧ ∀ n ∈ ints, n.kind = .internal := by
  obtain hl | ⟨l, hl⟩ | h2 := leaves_cases f
  · exact ⟨[], by rw [build_of_leaves_nil hl, hl]; rfl, by simp⟩
  · exact ⟨[Node.mkInternal l.weight 0 Config.none], by rw [build_of_leaves_singleton hl, hl]; rfl,
      by simp [Node.mkInternal]⟩
  · exact (build_of_two_le h2).1.leavesFirst

/-- Where a built tree holds a Leaf, that is one of the leaves. -/
theorem mem_leaves_of_mem_build {f : FreqTable} {n : Node} (hn : n ∈ (build f).nodes) (hk : n.kind = .leaf) :
    n ∈ leaves f := by
  obtain ⟨ints, heq, hint⟩ := build_leavesFirst f
  rw [heq] at hn
  rcases List.mem_append.1 hn with hm | hm
  · exact hm
  · exact absurd (hk.symm.trans (hint n hm)) (by decide)

/-- An index of a built tree holds a Leaf exactly when it is one of the first `n`. -/
theorem build_kind_leaf_iff {f : FreqTable} {i : Nat} {n : Node} (hn : (build f).nodes[i]? = some n) :
    n.kind = .leaf ↔ i < presentCount f := by
  obtain ⟨ints, heq, hint⟩ := build_leavesFirst f
  rw [heq] at hn
  by_cases hi : i < presentCount f
  · rw [List.getElem?_append_left (by rwa [leaves_length])] at hn
    exact iff_of_true (isLeafNode_of_mem_leaves (List.mem_of_getElem? hn)).1 hi
  · rw [List.getElem?_append_right (by rwa [leaves_length, ← not_lt])] at hn
    exact iff_of_false (fun hk => absurd (hk.symm.trans (hint n (List.mem_of_getElem? hn))) (by decide)) hi

/-- R23 (e): one Leaf for each symbol present. -/
theorem build_leafOnce (f : FreqTable) (s : Symbol) :
    (build f).nodes.countP (fun n => n.kind == .leaf && n.sym == s) = if freqAt f s = 0 then 0 else 1 := by
  obtain ⟨ints, heq, hint⟩ := build_leavesFirst f
  have hnone : ints.countP (fun n => n.kind == .leaf && n.sym == s) = 0 := by
    rw [List.countP_eq_zero]
    intro n hn
    simp [hint n hn]
  rw [heq, List.countP_append, hnone, countP_leaves, Nat.add_zero]

/-- ROOT is the last entry of a built tree (R93, R96), and NONE when there is none (R97). -/
theorem build_root (f : FreqTable) : (build f).root =
    if (build f).nodes = [] then Config.none else BitVec.ofNat 9 ((build f).nodes.length - 1) := by
  obtain hl | ⟨l, hl⟩ | h2 := leaves_cases f
  · rw [build_of_leaves_nil hl]; rfl
  · rw [build_of_leaves_singleton hl]; rfl
  · have hne : (build f).nodes ≠ [] := by
      rw [← List.length_pos_iff, build_length]
      split_ifs <;> omega
    rw [if_neg hne, (build_of_two_le h2).2.1]

/-- The part of R23 that speaks of the links, in the tree of two symbols or more. -/
theorem treeOk_of_two_le {f : FreqTable} (hf : LegalTable f) (h2 : 2 ≤ presentCount f) :
    TreeOk f (build f).nodes (build f).root := by
  obtain ⟨hinv, hroot, hweight⟩ := build_of_two_le h2
  have hle := build_length_le f
  have hls : ∀ n ∈ leaves f, IsLeafNode n := fun n hn => isLeafNode_of_mem_leaves hn
  have ne_none {i : Nat} (hi : i < (build f).nodes.length) {j : NodeIdx} (hj : j.toNat < i) : j ≠ Config.none :=
    ne_none_of_toNat_lt (by omega)
  constructor
  case size => exact hle
  case leafLinks => exact fun n hn hk => (hls n (mem_leaves_of_mem_build hn hk)).2
  case leafWeight => exact fun n hn hk => weight_of_mem_leaves (mem_leaves_of_mem_build hn hk)
  case internalWeight =>
    intro n hn hk
    obtain ⟨i, hi⟩ := List.getElem?_of_mem hn
    obtain ⟨-, -, -, hs⟩ := hinv.linked i n hi hk
    exact ⟨(hweight hf).children i n hi hk, hs⟩
  case children =>
    intro n hn hk
    obtain ⟨i, hi⟩ := List.getElem?_of_mem hn
    obtain ⟨hl, hr, -⟩ := hinv.linked i n hi hk
    have hlt := (List.getElem?_eq_some_iff.1 hi).1
    exact ⟨ne_none hlt hl, fun e => absurd e (ne_none hlt hr)⟩
  case childBelow =>
    intro i n hi
    rcases hinv.isLeafNode_or_linked hls hi with ⟨-, hl, hr⟩ | ⟨-, hl, hr, -⟩
    · exact ⟨absurd hl, absurd hr⟩
    · exact ⟨fun _ => hl, fun _ => hr⟩
  case leafOnce => exact build_leafOnce f
  case owned =>
    intro i hi
    rw [hinv.owned i hi, hroot]
    simp only [List.mem_singleton, ofNat_nodeIdx_inj (show i < 511 by omega)
      (show (build f).nodes.length - 1 < 511 by omega)]
  case rootLast => exact build_root f

/-- R96: the tree of one symbol. -/
theorem treeOk_of_singleton {f : FreqTable} {l : Node} (hl : leaves f = [l]) :
    TreeOk f (build f).nodes (build f).root := by
  have honce := build_leafOnce f
  have hmem : l ∈ leaves f := by simp [hl]
  obtain ⟨hk, hleft, hright⟩ := isLeafNode_of_mem_leaves hmem
  have hw := weight_of_mem_leaves hmem
  rw [build_of_leaves_singleton hl] at honce ⊢
  constructor
  case leafOnce => exact honce
  case childBelow =>
    intro i n hn
    match i with
    | 0 =>
      obtain rfl : l = n := by simpa using hn
      exact ⟨absurd hleft, absurd hright⟩
    | 1 =>
      obtain rfl : Node.mkInternal l.weight 0 Config.none = n := by simpa using hn
      exact ⟨fun _ => Nat.zero_lt_one, absurd rfl⟩
    | i + 2 => simp at hn
  case owned =>
    intro i hi
    match i with
    | 0 | 1 => simp [Node.linksTo, hleft, hright, Node.mkInternal, Config.none]
    | i + 2 => simp at hi
  all_goals simp [Node.mkInternal, hk, hleft, hright, hw, weightAt, Config.none, Config.nnodeMax]

/-- R97: the tree of no symbol. -/
theorem treeOk_of_nil {f : FreqTable} (hl : leaves f = []) : TreeOk f (build f).nodes (build f).root := by
  have honce := build_leafOnce f
  rw [build_of_leaves_nil hl] at honce ⊢
  constructor
  case leafOnce => exact honce
  all_goals simp

theorem build_treeOk {f : FreqTable} (hf : LegalTable f) : TreeOk f (build f).nodes (build f).root := by
  obtain hl | ⟨l, hl⟩ | h2 := leaves_cases f
  · exact treeOk_of_nil hl
  · exact treeOk_of_singleton hl
  · exact treeOk_of_two_le hf h2

/-- Settles O28. -/
theorem builtTreeSatisfiesTheArenaInvariants : Obligations.BuiltTreeSatisfiesTheArenaInvariants := by
  unfold Obligations.BuiltTreeSatisfiesTheArenaInvariants
  exact fun f hf => build_treeOk hf

end Sys2Proof.Machine

/-! PROOFS. The codes of a built tree: how they are stored, and how long they are. -/

namespace Sys2Proof.Machine

/-! ## The packed form of a code (R28, R119) -/

theorem testBit_digitsValue (ds : List Digit) (i : Nat) : (digitsValue ds).testBit i = ds.getD i false := by
  induction ds generalizing i with
  | nil => simp [digitsValue]
  | cons d ds ih =>
    cases i with
    | zero => cases d <;> simp [digitsValue, Nat.testBit_zero]
    | succ i =>
      have : (d.toNat + 2 * digitsValue ds) / 2 = digitsValue ds := by have := d.toNat_lt; omega
      rw [digitsValue, Nat.testBit_succ, this, ih, List.getD_cons_succ]

theorem getLsbD_ofDigits (ds : List Digit) (i : Nat) :
    (CodeEntry.ofDigits ds).bits.getLsbD i = (decide (i < 256) && ds.getD i false) := by
  rw [CodeEntry.ofDigits, BitVec.getLsbD_ofNat, testBit_digitsValue]

theorem len_ofDigits {ds : List Digit} (h : ds.length ≤ 255) : (CodeEntry.ofDigits ds).len.toNat = ds.length :=
  (BitVec.toNat_ofNat ..).trans (Nat.mod_eq_of_lt (by omega))

/-- The bits beyond a code are 0 (R28). -/
theorem getLsbD_ofDigits_of_length_le {ds : List Digit} {i : Nat} (h : ds.length ≤ i) :
    (CodeEntry.ofDigits ds).bits.getLsbD i = false := by
  rw [getLsbD_ofDigits, List.getD_eq_default _ _ h, Bool.and_false]

/-- A code of at most 255 digits is stored whole. -/
theorem digits_ofDigits {ds : List Digit} (h : ds.length ≤ 255) : (CodeEntry.ofDigits ds).digits = ds := by
  apply List.ext_getElem
  · simp [CodeEntry.digits, len_ofDigits h]
  · intro i _ hi
    have : i < 256 := by omega
    simp [CodeEntry.digits, -BitVec.getLsbD_eq_getElem, getLsbD_ofDigits, hi, this]

/-! ## The table of the assignments (R110, R119) -/

theorem codeOf_append_singleton (codes : List (Symbol × List Digit)) (c : Symbol × List Digit) (x : Symbol) :
    codeOf (codes ++ [c]) x = if c.1 = x then some c.2 else codeOf codes x := by
  by_cases h : c.1 = x <;> simp [codeOf, h]

theorem mem_of_codeOf {codes : List (Symbol × List Digit)} {x : Symbol} {ds : List Digit}
    (h : codeOf codes x = some ds) : (x, ds) ∈ codes := by
  obtain ⟨⟨y, es⟩, hfind, rfl⟩ := Option.map_eq_some_iff.1 h
  obtain rfl : y = x := by simpa using List.find?_some hfind
  exact List.mem_reverse.1 (List.mem_of_find?_eq_some hfind)

/-- After the assignments of a walk a symbol holds the last one made to it, or what it held before. -/
theorem codeAt_foldl_setCodeAt (codes : List (Symbol × List Digit)) (t : CodeTable) (x : Symbol) :
    codeAt (codes.foldl (fun t c => setCodeAt t c.1 (CodeEntry.ofDigits c.2)) t) x =
      ((codeOf codes x).map CodeEntry.ofDigits).getD (codeAt t x) := by
  induction codes using List.reverseRecOn with
  | nil => rfl
  | append_singleton codes c ih =>
    rw [List.foldl_append, List.foldl_cons, List.foldl_nil, codeOf_append_singleton]
    by_cases h : c.1 = x
    · subst h; simp
    · rw [codeAt_setCodeAt_of_ne _ _ (Ne.symm h), ih, if_neg h]

/-- DERIVE stores every symbol's code, or no code (R119). -/
theorem codeAt_deriveTable (a : Arena) (root : NodeIdx) (x : Symbol) :
    codeAt (deriveTable a root) x = codeEntryOf (codeOf (treeCodes a root) x) := by
  rw [deriveTable, codeAt_foldl_setCodeAt, codeAt_replicate]
  cases codeOf (treeCodes a root) x <;> rfl

theorem codeAt_tableFor (f : FreqTable) (x : Symbol) : codeAt (tableFor f) x = codeEntryOf (codesFor f x) :=
  codeAt_deriveTable _ _ _

/-! ## The walk (R111) -/

/-- One level of the walk: a Leaf is assigned the path, an Internal node hands each present child the path and its digit. -/
theorem mem_walk_succ {a : Arena} {fuel : Nat} {i : NodeIdx} {path : List Digit} {c : Symbol × List Digit} :
    c ∈ walk a (fuel + 1) i path ↔ ∃ n, nodeAt a i = some n ∧
      (n.kind = .leaf ∧ c = (n.sym, path) ∨
       n.kind = .internal ∧ ∃ d, childOf n d ≠ Config.none ∧ c ∈ walk a fuel (childOf n d) (path ++ [d])) := by
  rw [walk]
  cases nodeAt a i with
  | none => simp
  | some n => cases hk : n.kind <;> simp [hk, childOf]

theorem nodeAt_arenaOf_of_lt {nodes : List Node} {i : NodeIdx} (hi : i.toNat < nodes.length)
    (hn : nodes.length ≤ 511) : nodeAt (arenaOf nodes) i = nodes[i.toNat]? := by
  rw [nodeAt_arenaOf, if_neg (ne_none_of_toNat_lt (by omega)), List.getD_eq_getElem _ _ hi,
    List.getElem?_eq_getElem hi]

/-- A present child stands below its parent (R23 d). -/
theorem TreeOk.childOf_lt {f : FreqTable} {nodes : List Node} {root : NodeIdx} (h : TreeOk f nodes root) {i : Nat}
    {n : Node} (hn : nodes[i]? = some n) {d : Digit} (hd : childOf n d ≠ Config.none) : (childOf n d).toNat < i := by
  obtain ⟨hl, hr⟩ := h.childBelow i n hn
  cases d
  · exact hl hd
  · exact hr hd

/-- The walk of a built tree from index `i` adds at least one digit above the leaves, and at most one for each Internal node
up to `i`, since each step leads to a lower index. -/
theorem length_of_mem_walk {f : FreqTable} (hf : LegalTable f) : ∀ (fuel : Nat) (i : NodeIdx) (path : List Digit)
    (c : Symbol × List Digit), i.toNat < (build f).nodes.length → c ∈ walk (arenaOf (build f).nodes) fuel i path →
      path.length ≤ c.2.length ∧ (presentCount f ≤ i.toNat → path.length < c.2.length) ∧
        c.2.length ≤ path.length + (i.toNat + 1 - presentCount f)
  | 0, _, _, _, _, h => by simp [walk] at h
  | fuel + 1, i, path, c, hi, h => by
    obtain ⟨n, hn, ⟨hk, rfl⟩ | ⟨hk, d, hd, hc⟩⟩ := mem_walk_succ.1 h
    all_goals rw [nodeAt_arenaOf_of_lt hi (build_length_le f)] at hn
    · have := (build_kind_leaf_iff hn).1 hk
      refine ⟨le_rfl, fun h => ?_, ?_⟩ <;> dsimp only <;> omega
    · have hge : ¬ i.toNat < presentCount f := fun h => by
        rw [(build_kind_leaf_iff hn).2 h] at hk
        cases hk
      have hlt := (build_treeOk hf).childOf_lt hn hd
      have := length_of_mem_walk hf fuel _ _ c (hlt.trans hi) hc
      simp only [List.length_append, List.length_singleton] at this
      omega

/-- Where a built tree assigns a code, there is a tree to walk from its last entry. -/
theorem mem_walk_of_codesFor {f : FreqTable} {x : Symbol} {ds : List Digit} (h : codesFor f x = some ds) :
    0 < presentCount f ∧ (build f).root.toNat + 1 = (build f).nodes.length ∧
      (x, ds) ∈ walk (arenaOf (build f).nodes) Config.nnodeMax (build f).root [] := by
  have hmem := mem_of_codeOf h
  unfold treeCodes at hmem
  split at hmem
  · rename_i hroot
    have hne : (build f).nodes ≠ [] := fun e => hroot (by rw [build_root, if_pos e])
    have hpos := List.length_pos_iff.2 hne
    have hle := build_length_le f
    refine ⟨Nat.pos_of_ne_zero fun h0 => ?_, ?_, hmem⟩
    · rw [build_length, if_pos h0] at hpos
      omega
    · rw [build_root, if_neg hne, toNat_ofNat_nodeIdx (by omega)]
      omega
  · simp at hmem

/-- R115, R116: a code has at least one digit, and at most n - 1 when there are n >= 2 symbols. -/
theorem codesFor_length {f : FreqTable} (hf : LegalTable f) {x : Symbol} {ds : List Digit}
    (h : codesFor f x = some ds) : 1 ≤ ds.length ∧ (2 ≤ presentCount f → ds.length ≤ presentCount f - 1) ∧
      ds.length ≤ 255 := by
  obtain ⟨hpos, hroot, hmem⟩ := mem_walk_of_codesFor h
  obtain ⟨-, hlow, hhigh⟩ := length_of_mem_walk hf _ _ _ _ (by omega) hmem
  have hlen := build_length f
  have hle := presentCount_le f
  simp only [List.length_nil] at hlow hhigh
  split_ifs at hlen <;> omega

/-- Clause (j) of R47 for a derived table: the bits from LEN on are 0. -/
theorem tableFor_codeBits {f : FreqTable} (hf : LegalTable f) (x : Symbol) (i : Nat)
    (hi : (codeAt (tableFor f) x).len.toNat ≤ i) : (codeAt (tableFor f) x).bits.getLsbD i = false := by
  rw [codeAt_tableFor] at hi ⊢
  cases hc : codesFor f x with
  | none => simp [codeEntryOf, CodeEntry.noCode]
  | some ds =>
    rw [hc, codeEntryOf, len_ofDigits (codesFor_length hf hc).2.2] at hi
    exact getLsbD_ofDigits_of_length_le hi

/-- Settles O35. -/
theorem codeLengthBounds : Obligations.CodeLengthBounds := by
  unfold Obligations.CodeLengthBounds
  intro f hf x ds hx
  obtain ⟨hpos, hn, hmax⟩ := codesFor_length hf hx
  rw [codeAt_tableFor, hx]
  exact ⟨hpos, hn, hmax, len_ofDigits hmax, digits_ofDigits hmax, fun i hi => getLsbD_ofDigits_of_length_le hi⟩

end Sys2Proof.Machine

/-! PROOFS. Every step keeps the invariants of R47. -/

namespace Sys2Proof.Machine

/-! ## The bit buffer (R30, R133) -/

/-- The bits of ACC from ACC_N on are 0 (R47 e). -/
def AccPadded (acc : BitVec 8) (n : BitVec 3) : Prop := ∀ i, n.toNat ≤ i → acc.getLsbD i = false

theorem getLsbD_setAccBit_of_gt (acc : BitVec 8) {n : BitVec 3} (d : Digit) {i : Nat} (hi : n.toNat < i) :
    (setAccBit acc n d).getLsbD i = acc.getLsbD i := by
  have h1 : (1#8 <<< n.toNat).getLsbD i = false := by
    rw [BitVec.getLsbD_shiftLeft, BitVec.getLsbD_one]
    simp; omega
  have h2 : ((BitVec.ofBool d).setWidth 8 <<< n.toNat).getLsbD i = false := by
    rw [BitVec.getLsbD_shiftLeft, BitVec.getLsbD_setWidth, BitVec.getLsbD_of_ge (BitVec.ofBool d) _ (by omega)]
    simp
  by_cases h8 : i < 8
  · simp [setAccBit, h1, h2, h8, -BitVec.getLsbD_eq_getElem]
  · rw [BitVec.getLsbD_of_ge _ _ (by omega), BitVec.getLsbD_of_ge _ _ (by omega)]

theorem toNat_add_one_of_ne {n : BitVec 3} (h : n ≠ 7) : (n + 1).toNat = n.toNat + 1 := by
  have : n.toNat ≠ 7 := fun e => h (BitVec.eq_of_toNat_eq e)
  have := n.isLt
  rw [BitVec.toNat_add]
  show (n.toNat + 1) % 8 = _
  omega

/-- The digit loop of R133 counts the digits modulo 8. -/
theorem packDigits_accN : ∀ (ds : List Digit) (acc : BitVec 8) (n : BitVec 3),
    (packDigits ds acc n).accN.toNat = (n.toNat + ds.length) % 8
  | [], _, n => (Nat.mod_eq_of_lt n.isLt).symm
  | d :: ds, acc, n => by
    rw [packDigits]
    split
    · rename_i h7
      have h7 : n.toNat = 7 := congrArg BitVec.toNat h7
      have h0 : (0 : BitVec 3).toNat = 0 := rfl
      rw [packDigits_accN ds, h0, h7, List.length_cons]
      omega
    · rename_i h7
      rw [packDigits_accN ds, toNat_add_one_of_ne h7, List.length_cons]
      omega

/-- The digit loop of R133 leaves the bits beyond the digits 0. -/
theorem packDigits_padded : ∀ (ds : List Digit) (acc : BitVec 8) (n : BitVec 3), AccPadded acc n →
    AccPadded (packDigits ds acc n).acc (packDigits ds acc n).accN
  | [], _, _, h => h
  | d :: ds, acc, n, h => by
    rw [packDigits]
    split
    · exact packDigits_padded ds 0 0 fun i _ => by simp
    · rename_i h7
      refine packDigits_padded ds _ _ fun i hi => ?_
      rw [toNat_add_one_of_ne h7] at hi
      rw [getLsbD_setAccBit_of_gt acc d hi]
      exact h i (by omega)

/-! ## The arena of an installed tree -/

theorem legalTable_of_firstBadFreq_none {f : FreqTable} (h : firstBadFreq f = none) : LegalTable f := by
  intro s
  have := List.find?_eq_none.1 h s (mem_allSymbols s)
  simpa [legalCount] using this

theorem take_arenaOf {nodes : List Node} (h : nodes.length ≤ 511) :
    (arenaOf nodes).toList.take nodes.length = nodes := by
  rw [arenaOf, Vector.toList_mk, List.take_take, min_eq_left h, List.take_left']
  rfl

theorem nnode_build (f : FreqTable) : (BitVec.ofNat 10 (build f).nodes.length).toNat = (build f).nodes.length := by
  have := build_length_le f
  rw [BitVec.toNat_ofNat]
  omega

theorem nnode_eq_iff (f : FreqTable) {k : Nat} (hk : k < 1024) :
    BitVec.ofNat 10 (build f).nodes.length = BitVec.ofNat 10 k ↔ (build f).nodes.length = k := by
  rw [← BitVec.toNat_inj, nnode_build, BitVec.toNat_ofNat, Nat.mod_eq_of_lt hk]

theorem build_length_eq_zero_iff (f : FreqTable) : (build f).nodes.length = 0 ↔ presentCount f = 0 := by
  have := build_length f
  split_ifs at this <;> omega

theorem build_length_eq_two_iff (f : FreqTable) : (build f).nodes.length = 2 ↔ presentCount f = 1 := by
  have := build_length f
  split_ifs at this <;> omega

theorem inUse_installTree (f : FreqTable) (n : Nat) (s : State) :
    (installTree (build f) n s).toBlock.inUse = (build f).nodes := by
  show (arenaOf (build f).nodes).toList.take (BitVec.ofNat 10 (build f).nodes.length).toNat = _
  rw [nnode_build, take_arenaOf (build_length_le f)]

/-! ## Each effect keeps the invariant of R47 -/

section
variable {s : State} (h : s.toBlock.Inv)
include h

theorem Block.Inv.urem_eq_zero (hm : s.mode ≠ .unpack) : s.urem = 0 :=
  not_not.1 fun hu => hm (h.unpackOpen.2 hu)

theorem raiseFault_inv {c : ErrCode} (info : Byte) (hc : c ≠ .none) : (raiseFault c info s).toBlock.Inv :=
  { h with noErrInfo := fun e => absurd e hc }

theorem setFreq_inv (f : FreqTable) : ({ s with freq := f } : State).toBlock.Inv := { h with }

theorem setUbitcnt_inv (v : Word) : ({ s with ubitcnt := v } : State).toBlock.Inv := { h with }

/-- BUILD replaces the tree by that of FREQ and invalidates the table (R99). -/
theorem installTree_inv (hm : s.mode = .idle) (hf : LegalTable s.freq) :
    (installTree (build s.freq) (presentCount s.freq) s).toBlock.Inv :=
  { h with
    packHasTable := fun e => absurd (hm.symm.trans e) (by decide)
    notBoth := by simp; omega
    noTree := fun e => absurd e (by simp)
    tree := fun _ => ⟨s.freq, hf, rfl, nnode_build _, rfl, by
      rw [inUse_installTree]; exact build_treeOk hf⟩
    treeFlags := fun _ => by
      simp [nnode_eq_iff, -List.length_eq_zero_iff, build_length_eq_zero_iff, build_length_eq_two_iff]
    table := fun e => absurd e (by simp) }

/-- DERIVE makes the table of the tree and releases the tree (R119, R120). -/
theorem installCodes_inv (hv : s.treeValid = true) : (installCodes (deriveTable s.node s.root) s).toBlock.Inv := by
  obtain ⟨f, hf, hnode, -, hroot, -⟩ := h.tree hv
  have htable : deriveTable s.node s.root = tableFor f := by rw [hnode, hroot]; rfl
  rw [htable]
  exact { h with
    packHasTable := fun _ => rfl
    noTree := fun _ => ⟨rfl, rfl⟩
    tree := fun e => absurd e (by simp)
    treeFlags := fun e => absurd e (by simp)
    codeBits := tableFor_codeBits hf
    table := fun _ => ⟨f, hf, rfl⟩ }

/-- PACK_BEGIN starts with an empty buffer (R131). -/
theorem packBegin_inv (hm : s.mode = .idle) (hc : s.codeValid = true) :
    ({ s with acc := 0, accN := 0, pbitcnt := 0, mode := .pack } : State).toBlock.Inv :=
  { h with
    unpackOpen := by simp [h.urem_eq_zero (by simp [hm])]
    packHasTable := fun _ => hc
    accIdle := fun _ => ⟨rfl, rfl⟩
    accPadding := fun i _ => by simp
    pbitcntLegal := by simp
    pbitcntDigits := fun _ => rfl }

/-- PUSHP adds the code's digits to the buffer and its length to PBITCNT (R133, R136). -/
theorem packCode_inv {e : CodeEntry} (hm : s.mode = .pack) (hfit : s.pbitcnt.toNat + e.len.toNat ≤ Config.bitcntMax) :
    (packCode e s).toBlock.Inv := by
  have hlen := e.len.isLt
  have hcount : (s.pbitcnt + e.len.setWidth 32).toNat = s.pbitcnt.toNat + e.len.toNat := by
    rw [BitVec.toNat_add, BitVec.toNat_setWidth]
    simp only [Config.bitcntMax] at hfit
    omega
  have hdigits := h.pbitcntDigits hm
  exact { h with
    accIdle := fun hne => absurd hm hne
    accPadding := packDigits_padded _ _ _ h.accPadding
    pbitcntLegal := by rw [packCode_pbitcnt, hcount]; exact hfit
    pbitcntDigits := fun _ => by
      rw [packCode_pbitcnt, hcount, packCode_accN, packDigits_accN]
      simp only [CodeEntry.digits, List.length_map, List.length_range]
      omega }

/-- PACK_END empties the buffer (R138). -/
theorem packEnd_inv (hm : s.mode = .pack) (ys : List Byte) :
    (emitPout ys { s with acc := 0, accN := 0, mode := .idle }).toBlock.Inv :=
  { h with
    unpackOpen := by simp [h.urem_eq_zero (by simp [hm])]
    packHasTable := fun e => absurd e (by simp)
    accIdle := fun _ => ⟨rfl, rfl⟩
    accPadding := fun i _ => by simp
    pbitcntDigits := fun e => absurd e (by simp) }

/-- UNPACK_BEGIN opens a session of a legal count of digits, or none for 0 (R151, R152). -/
theorem unpackBegin_inv (hm : s.mode = .idle) (hc : legalCount s.ubitcnt = true) :
    ({ s with urem := s.ubitcnt, mode := if s.ubitcnt = 0 then .idle else .unpack } : State).toBlock.Inv :=
  have hne : (if s.ubitcnt = 0 then Mode.idle else .unpack) ≠ .pack := by split <;> decide
  { h with
    unpackOpen := by
      show (if s.ubitcnt = 0 then Mode.idle else .unpack) = .unpack ↔ s.ubitcnt ≠ 0
      split
      · exact iff_of_false (by decide) (not_not.2 ‹_›)
      · exact iff_of_true rfl ‹_›
    packHasTable := fun e => absurd e hne
    accIdle := fun _ => h.accIdle (by simp [hm])
    uremLegal := by simpa [legalCount] using hc
    pbitcntDigits := fun e => absurd e hne }

/-- PUSHU counts UREM down and closes the session at 0 (R153, R154). -/
theorem deliverDigits_inv (hm : s.mode = .unpack) (y : Byte) {k : Nat} (hk : k ≤ s.urem.toNat) :
    (deliverDigits y k s).toBlock.Inv := by
  have hleft : (s.urem - BitVec.ofNat 32 k).toNat = s.urem.toNat - k := by
    have := s.urem.isLt
    rw [BitVec.toNat_sub, BitVec.toNat_ofNat]
    omega
  have hne : (deliverDigits y k s).mode ≠ .pack := by
    rw [deliverDigits_mode, hm]
    split <;> simp
  exact { h with
    unpackOpen := by
      rw [deliverDigits_mode, deliverDigits_urem, hm]
      split
      · exact iff_of_false (by decide) (not_not.2 ‹_›)
      · exact iff_of_true rfl ‹_›
    packHasTable := fun e => absurd e hne
    accIdle := fun _ => h.accIdle (by simp [hm])
    uremLegal := by rw [deliverDigits_urem, hleft]; exact (Nat.sub_le _ _).trans h.uremLegal
    pbitcntDigits := fun e => absurd e hne }

theorem Effect.keepsInv {i : Instr} {t : State} (he : Effect s i t) : t.toBlock.Inv := by
  cases he with
  | ignored => exact h
  | fault info _ hc => exact raiseFault_inv h info hc
  | read => exact h
  | clr => exact Block.reset_inv
  | build _ hm hf => exact installTree_inv h hm (legalTable_of_firstBadFreq_none hf)
  | derive _ _ hv => exact installCodes_inv h hv
  | packBegin _ hm hc => exact packBegin_inv h hm hc
  | pushp _ hm _ hfit => exact packCode_inv h hm hfit
  | packEnd _ hm => exact packEnd_inv h hm _
  | unpackBegin _ hm hc => exact unpackBegin_inv h hm hc
  | pushu _ hm => exact deliverDigits_inv h hm _ (min_le_right _ _)
  | wrubc => exact setUbitcnt_inv h _
  | wrfreq => exact setFreq_inv h _

end

/-- Settles O52: waiting, a reset, an instruction and a rejected transaction each keep the invariant. -/
theorem everyStepKeepsTheInvariant : Obligations.EveryStepKeepsTheInvariant := by
  unfold Obligations.EveryStepKeepsTheInvariant
  intro s t h hstep
  obtain ⟨-, rfl⟩ | ⟨rest, -, rfl⟩ | ⟨i, rest, -, he⟩ | ⟨tx, r, rest, -, -, hr⟩ := step_cases hstep
  · exact h
  · exact Block.reset_inv
  · exact Effect.keepsInv (s := { s with pending := rest }) h he
  · obtain hb | ⟨info, -, rfl⟩ := performReject_toBlock hr
    · exact hb ▸ h
    · exact raiseFault_inv (s := { s with pending := rest }) h info (by decide)

end Sys2Proof.Machine

/-! PROOFS. Decoding what the encoder writes, as a transaction and as a tuple. -/

namespace Sys2Proof

/-! ## The window addresses in the decoder (R36, R180) -/

@[simp] theorem inFreqWindow_freqAddr (s : Symbol) : inFreqWindow (freqAddr s) = true := by
  rw [inFreqWindow_iff, freqAddr_toNat]
  omega

@[simp] theorem inFreqWindow_codeAddr (s : Symbol) (w : BitVec 4) : inFreqWindow (codeAddr s w) = false := by
  rw [← Bool.not_eq_true, inFreqWindow_iff, codeAddr_toNat]
  omega

@[simp] theorem inCodeWindow_codeAddr (s : Symbol) (w : BitVec 4) : inCodeWindow (codeAddr s w) = true := by
  rw [inCodeWindow_iff, codeAddr_toNat]
  omega

/-- A window address is none of the registers below the windows. -/
theorem ne_ofNat_of_le_toNat {a : Addr} (ha : 0x100 ≤ a.toNat) {n : Nat} (hn : n < 0x100) : a ≠ BitVec.ofNat 13 n := by
  rintro rfl
  rw [BitVec.toNat_ofNat] at ha
  omega

theorem freqAddr_ne_ofNat (s : Symbol) {n : Nat} (hn : n < 0x100) : freqAddr s ≠ BitVec.ofNat 13 n :=
  ne_ofNat_of_le_toNat (by rw [freqAddr_toNat]; omega) hn

theorem codeAddr_ne_ofNat (s : Symbol) (w : BitVec 4) {n : Nat} (hn : n < 0x100) : codeAddr s w ≠ BitVec.ofNat 13 n :=
  ne_ofNat_of_le_toNat (by rw [codeAddr_toNat]; omega) hn

/-! ## The round trips (R70, R71, R84) -/

@[simp] theorem decode_encode (i : Instr) : decode (encode i) = .ok i := by
  cases i with
  | wrfreq s v =>
    have hne {n : Nat} := freqAddr_ne_ofNat s (n := n)
    simp [encode, decode, decodeWrite, hne]
  | rdfreq s =>
    have hne {n : Nat} := freqAddr_ne_ofNat s (n := n)
    simp [encode, decode, decodeRead, hne]
  | rdcode s w =>
    have hne {n : Nat} := codeAddr_ne_ofNat s w (n := n)
    simp [encode, decode, decodeRead, hne]
  | _ => rfl

/-- RW, ADDR and DATA of a tuple put together from its fields. -/
theorem TxnWord.fields_append (x : BitVec 1) (a : Addr) (v : Word) :
    TxnWord.rw (x ++ a ++ v) = x.getLsbD 0 ∧ TxnWord.addr (x ++ a ++ v) = a ∧ TxnWord.data (x ++ a ++ v) = v := by
  refine ⟨?_, ?_, BitVec.extractLsb'_append_eq_right⟩
  · rw [TxnWord.rw, BitVec.getLsbD_append, BitVec.getLsbD_append]; rfl
  · rw [TxnWord.addr, BitVec.extractLsb'_append_eq_of_le (le_refl 32)]
    exact BitVec.extractLsb'_append_eq_right

@[simp] theorem ofBits_toBits (t : Txn) : Txn.ofBits t.toBits = t := by
  cases t with
  | read a =>
    obtain ⟨hrw, haddr, -⟩ := TxnWord.fields_append 0#1 a 0#32
    rw [Txn.toBits, Txn.ofBits, hrw, haddr]; rfl
  | write a v =>
    obtain ⟨hrw, haddr, hdata⟩ := TxnWord.fields_append 1#1 a v
    rw [Txn.toBits, Txn.ofBits, hrw, haddr, hdata]; rfl

/-- Only a read is rejected as a no-operation read (R57). -/
theorem isRead_of_decode_noOperationRead {t : Txn} (h : decode t = .error .noOperationRead) : ∃ a, t = .read a := by
  cases t with
  | read a => exact ⟨a, rfl⟩
  | write a v =>
    simp only [decode, decodeWrite, decodeCommand] at h
    split_ifs at h <;> cases h

end Sys2Proof

/-! PROOFS. One step: which transaction it performs, what a read answers, that it always answers a next state, and what it
does to the streams. -/

namespace Sys2Proof.Machine

/-! ## The transaction a step performs (R53) -/

theorem step_of_txn {s : State} {t : Txn} {rest : List Event} (h : s.pending = .txn t :: rest) :
    step s = perform t { s with pending := rest } := by
  rw [step, h]

theorem perform_of_decode {t : Txn} {i : Instr} (h : decode t = .ok i) (s : State) : perform t s = exec i s := by
  rw [perform, h]

theorem withFetchWord_encodeBits (s : State) (i : Instr) :
    s.withFetchWord 46 (encodeBits i).toNat = { s with pending := .txn (encode i) :: s.pending } := by
  rw [State.withFetchWord, Nat.mod_eq_of_lt (encodeBits i).isLt, BitVec.ofNat_toNat, BitVec.setWidth_eq, encodeBits,
    ofBits_toBits]

/-- Settles O6: the step performs the transaction, and performing it is running what it decodes to. -/
theorem stepRunsDecodedInstruction : Obligations.StepRunsDecodedInstruction := by
  unfold Obligations.StepRunsDecodedInstruction
  intro s t rest i hp hd
  rw [step_of_txn hp, perform_of_decode hd]

/-- Settles O7: the tuple stands for the instruction's transaction, which decodes back to the instruction. -/
theorem offeredInstructionRunsNext : Obligations.OfferedInstructionRunsNext := by
  unfold Obligations.OfferedInstructionRunsNext
  intro s i
  rw [withFetchWord_encodeBits, step_of_txn rfl, perform_of_decode (decode_encode i)]

/-! ## Reads (R55, R57) -/

/-- A read answers the word of the register map: the decoder and `portRead` try the same addresses in the same order. -/
theorem perform_read (a : Addr) (s : State) : perform (.read a) s = .next (respond (portRead s.toBlock a) s) := by
  simp only [perform, decode, decodeRead, portRead]
  split_ifs <;> rfl

/-- Settles O14: the answer is appended to the read data and the block stays as it is. -/
theorem readsReturnThePortWord : Obligations.ReadsReturnThePortWord := by
  unfold Obligations.ReadsReturnThePortWord
  intro s a rest hp
  exact ⟨_, (step_of_txn hp).trans (perform_read a _), rfl, rfl⟩

/-! ## Every transaction completes (R50, R53) -/

/-- The result is a next state. -/
def Answers (r : Result) : Prop := ∃ t, r = .next t

theorem answers_next (s : State) : Answers (.next s) := ⟨s, rfl⟩

theorem answers_ite {p : Prop} [Decidable p] {r r' : Result} (h : Answers r) (h' : Answers r') :
    Answers (if p then r else r') := by
  split
  · exact h
  · exact h'

/-- A check: with its fault or without, the result is a next state. -/
theorem answers_check {p : Prop} [Decidable p] {s : State} {r : Result} (h : Answers r) :
    Answers (if p then .next s else r) :=
  answers_ite (answers_next s) h

theorem answers_whenUnfaulted {s : State} {r : Result} (h : Answers r) : Answers (whenUnfaulted s r) :=
  answers_ite h (answers_next s)

theorem exec_answers (i : Instr) (s : State) : Answers (exec i s) := by
  cases i with
  | build =>
    refine answers_whenUnfaulted (answers_check ?_)
    split <;> exact answers_next _
  | derive => exact answers_whenUnfaulted (answers_check (answers_check (answers_next _)))
  | packBegin => exact answers_whenUnfaulted (answers_check (answers_check (answers_next _)))
  | packEnd => exact answers_whenUnfaulted (answers_check (answers_next _))
  | unpackBegin => exact answers_whenUnfaulted (answers_check (answers_check (answers_next _)))
  | pushp v => exact answers_whenUnfaulted (answers_check (answers_check (answers_check (answers_next _))))
  | pushu v => exact answers_whenUnfaulted (answers_check (answers_next _))
  | wrubc v => exact answers_whenUnfaulted (answers_next _)
  | wrfreq x v => exact answers_whenUnfaulted (answers_next _)
  | _ => exact answers_next _

theorem performReject_answers (r : Reject) (s : State) : Answers (performReject r s) := by
  cases r with
  | noOperationRead => exact answers_next _
  | noOperationWrite => exact answers_next _
  | illegalCommand info => exact answers_whenUnfaulted (answers_next _)

theorem perform_answers (t : Txn) (s : State) : Answers (perform t s) := by
  unfold perform
  split
  · exact exec_answers _ s
  · exact performReject_answers _ s

theorem step_answers (s : State) : Answers (step s) := by
  unfold step
  split
  · exact answers_next _
  · exact answers_next _
  · exact perform_answers _ _

/-- Settles O8: no instruction and no rejection stops the machine. -/
theorem everyTransactionCompletes : Obligations.EveryTransactionCompletes := by
  unfold Obligations.EveryTransactionCompletes
  exact ⟨step_answers, exec_answers⟩

/-! ## The streams (R55, R62) -/

/-- From `s` to `t` each history keeps what it held, and one that grows does so by a transaction that may write it. -/
structure GrowsStreams (tx : Txn) (s t : State) : Prop where
  pout : s.pout <+: t.pout
  uout : s.uout <+: t.uout
  rdata : s.rdata <+: t.rdata
  poutBy : t.pout ≠ s.pout → tx = encode .packEnd ∨ ∃ v, tx = encode (.pushp v)
  uoutBy : t.uout ≠ s.uout → ∃ v, tx = encode (.pushu v)
  rdataBy : t.rdata ≠ s.rdata → ∃ a, tx = .read a

section
variable {tx : Txn} {s t : State}

theorem GrowsStreams.of_kept (hp : t.pout = s.pout) (hu : t.uout = s.uout) (hr : t.rdata = s.rdata) :
    GrowsStreams tx s t :=
  ⟨hp ▸ List.prefix_rfl, hu ▸ List.prefix_rfl, hr ▸ List.prefix_rfl, absurd hp, absurd hu, absurd hr⟩

theorem GrowsStreams.of_pout {ys : List Byte} (hp : t.pout = s.pout ++ ys) (hu : t.uout = s.uout)
    (hr : t.rdata = s.rdata) (htx : tx = encode .packEnd ∨ ∃ v, tx = encode (.pushp v)) : GrowsStreams tx s t :=
  ⟨⟨ys, hp.symm⟩, hu ▸ List.prefix_rfl, hr ▸ List.prefix_rfl, fun _ => htx, absurd hu, absurd hr⟩

theorem GrowsStreams.of_uout {ds : List Digit} (hp : t.pout = s.pout) (hu : t.uout = s.uout ++ ds)
    (hr : t.rdata = s.rdata) (htx : ∃ v, tx = encode (.pushu v)) : GrowsStreams tx s t :=
  ⟨hp ▸ List.prefix_rfl, ⟨ds, hu.symm⟩, hr ▸ List.prefix_rfl, absurd hp, fun _ => htx, absurd hr⟩

theorem respond_growsStreams (v : Word) (htx : ∃ a, tx = .read a) : GrowsStreams tx s (respond v s) :=
  ⟨List.prefix_rfl, List.prefix_rfl, ⟨[v], rfl⟩, absurd rfl, absurd rfl, fun _ => htx⟩

theorem Effect.growsStreams {i : Instr} (h : Effect s i t) : GrowsStreams (encode i) s t := by
  cases h with
  | read v isRead => exact respond_growsStreams v ⟨_, isRead⟩
  | pushp => exact .of_pout rfl rfl rfl (.inr ⟨_, rfl⟩)
  | packEnd => exact .of_pout rfl rfl rfl (.inl rfl)
  | pushu => exact .of_uout rfl rfl rfl ⟨_, rfl⟩
  | _ => exact .of_kept rfl rfl rfl

theorem performReject_growsStreams {r : Reject} (hd : decode tx = .error r) (h : performReject r s = .next t) :
    GrowsStreams tx s t := by
  obtain ⟨rfl, rfl⟩ | ⟨-, rfl⟩ | ⟨info, -, -, rfl⟩ | ⟨-, -, -, rfl⟩ := performReject_next h
  · exact respond_growsStreams 0 (isRead_of_decode_noOperationRead hd)
  · exact .of_kept rfl rfl rfl
  · exact .of_kept rfl rfl rfl
  · exact .of_kept rfl rfl rfl

/-- A step leaves the histories alone, or performs a transaction that grows them as `GrowsStreams` says. -/
theorem step_streams (h : step s = .next t) :
    (t.pout = s.pout ∧ t.uout = s.uout ∧ t.rdata = s.rdata) ∨
    ∃ tx rest, s.pending = .txn tx :: rest ∧ GrowsStreams tx { s with pending := rest } t := by
  obtain ⟨-, rfl⟩ | ⟨rest, -, rfl⟩ | ⟨i, rest, hp, he⟩ | ⟨tx, r, rest, hp, hd, hr⟩ := step_cases h
  · exact .inl ⟨rfl, rfl, rfl⟩
  · exact .inl ⟨rfl, rfl, rfl⟩
  · exact .inr ⟨_, rest, hp, he.growsStreams⟩
  · exact .inr ⟨_, rest, hp, performReject_growsStreams hd hr⟩

end

/-- Settles O54, from what each transaction may do to the histories. -/
theorem streamsOnlyGrow : Obligations.StreamsOnlyGrow := by
  unfold Obligations.StreamsOnlyGrow
  intro s t h
  obtain ⟨hp, hu, hr⟩ | ⟨tx, rest, hpend, hg⟩ := step_streams h
  · exact ⟨hp ▸ List.prefix_rfl, hu ▸ List.prefix_rfl, hr ▸ List.prefix_rfl, absurd hp, absurd hu, absurd hr⟩
  · have enc {t' : Txn} (he : tx = t') : Event.txn tx = .txn t' := congrArg _ he
    refine ⟨hg.pout, hg.uout, hg.rdata, fun hne => ⟨_, rest, hpend, ?_⟩, fun hne => ?_, fun hne => ?_⟩
    · exact (hg.poutBy hne).imp enc fun ⟨v, hv⟩ => ⟨v, enc hv⟩
    · obtain ⟨v, rfl⟩ := hg.uoutBy hne
      exact ⟨rest, v, hpend⟩
    · obtain ⟨a, rfl⟩ := hg.rdataBy hne
      exact ⟨rest, a, hpend⟩

end Sys2Proof.Machine

/-! PROOFS. The payload of a digit sequence. -/

namespace Sys2Proof.Machine

/-! ## Payload bytes (R59, R126) -/

@[simp] theorem payloadOf_length (ds : List Digit) : (payloadOf ds).length = (ds.length + 7) / 8 := by
  simp [payloadOf]

/-- Bit `i` of payload byte `k` is digit `8k + i`, and 0 beyond the last digit. -/
theorem getLsbD_payloadByte (ds : List Digit) (k : Nat) {i : Nat} (hi : i < 8) :
    (payloadByte ds k).getLsbD i = ds.getD (8 * k + i) false := by
  rw [payloadByte, BitVec.getLsbD_ofNat, testBit_digitsValue]
  simp [List.getD_eq_getElem?_getD, List.getElem?_drop, hi]

theorem getD_payloadOf (ds : List Digit) {k : Nat} (hk : k < (payloadOf ds).length) :
    (payloadOf ds).getD k 0 = payloadByte ds k := by
  rw [List.getD_eq_getElem _ _ hk]
  simp [payloadOf]

/-- Settles O40: byte `j / 8` is the payload byte of that index, and its bit `j % 8` is digit `j`. -/
theorem payloadBitsAreTheDigits : Obligations.PayloadBitsAreTheDigits := by
  unfold Obligations.PayloadBitsAreTheDigits
  intro bytes c
  refine ⟨payloadOf_length _, fun j hj => ?_⟩
  have hk : j / 8 < (payloadOf (codeDigits c bytes)).length := Nat.div_lt_of_lt_mul hj
  calc ((payloadOf (codeDigits c bytes)).getD (j / 8) 0).getLsbD (j % 8)
    _ = (payloadByte (codeDigits c bytes) (j / 8)).getLsbD (j % 8) := by rw [getD_payloadOf _ hk]
    _ = (codeDigits c bytes).getD (8 * (j / 8) + j % 8) false := getLsbD_payloadByte _ _ (Nat.mod_lt _ (by decide))
    _ = (codeDigits c bytes).getD j false := by rw [Nat.div_add_mod]

end Sys2Proof.Machine

/-! PROOFS. The encoding: canonical tuples, the rows of the opcode table read off a tuple's fields, and the transactions that
do not decode. -/

namespace Sys2Proof

/-! ## Tuples by their fields (R70, R84) -/

theorem TxnWord.ext_fields {w w' : TxnWord} (hrw : TxnWord.rw w = TxnWord.rw w')
    (haddr : TxnWord.addr w = TxnWord.addr w') (hdata : TxnWord.data w = TxnWord.data w') : w = w' := by
  apply BitVec.eq_of_getLsbD_eq
  intro i hi
  obtain h | h | rfl : i < 32 ∨ (32 ≤ i ∧ i - 32 < 13) ∨ i = 45 := by omega
  · simpa [TxnWord.data, h] using congrArg (BitVec.getLsbD · i) hdata
  · simpa [TxnWord.addr, h] using congrArg (BitVec.getLsbD · (i - 32)) haddr
  · exact hrw

theorem TxnWord.and_eq_iff_fields {w m p : TxnWord} : w &&& m = p ↔
    (TxnWord.rw w && TxnWord.rw m) = TxnWord.rw p ∧ TxnWord.addr w &&& TxnWord.addr m = TxnWord.addr p ∧
      TxnWord.data w &&& TxnWord.data m = TxnWord.data p := by
  have hrw : TxnWord.rw (w &&& m) = (TxnWord.rw w && TxnWord.rw m) := BitVec.getLsbD_and
  have haddr : TxnWord.addr (w &&& m) = TxnWord.addr w &&& TxnWord.addr m := BitVec.extractLsb'_and
  have hdata : TxnWord.data (w &&& m) = TxnWord.data w &&& TxnWord.data m := BitVec.extractLsb'_and
  rw [← hrw, ← haddr, ← hdata]
  exact ⟨by rintro rfl; exact ⟨rfl, rfl, rfl⟩, fun ⟨h1, h2, h3⟩ => TxnWord.ext_fields h1 h2 h3⟩

theorem ofBits_eq_write_iff {w : TxnWord} {a : Addr} {v : Word} :
    Txn.ofBits w = .write a v ↔ TxnWord.rw w = true ∧ TxnWord.addr w = a ∧ TxnWord.data w = v := by
  unfold Txn.ofBits
  split <;> simp [*]

theorem ofBits_eq_read_iff {w : TxnWord} {a : Addr} :
    Txn.ofBits w = .read a ↔ TxnWord.rw w = false ∧ TxnWord.addr w = a := by
  unfold Txn.ofBits
  split <;> simp [*]

/-! ## The round trip by tuple (R70, R84) -/

@[simp] theorem decodeBits_encodeBits (i : Instr) : decodeBits (encodeBits i) = .ok i := by
  rw [decodeBits, encodeBits, ofBits_toBits, decode_encode]

/-- The tuple of a transaction is canonical: bit 45 is set for a write, and DATA is 0 for a read. -/
theorem tupleWellFormed_toBits (t : Txn) : tupleWellFormed t.toBits.toNat = true := by
  have hlt := t.toBits.isLt
  cases t with
  | read a =>
    have hdata : (TxnWord.data (Txn.read a).toBits).toNat = 0 :=
      congrArg BitVec.toNat (TxnWord.fields_append 0#1 a 0#32).2.2
    rw [TxnWord.data, BitVec.extractLsb'_toNat, Nat.shiftRight_zero] at hdata
    simp [tupleWellFormed, hlt, hdata]
  | write a v =>
    have hrw : (Txn.write a v).toBits.toNat.testBit 45 = true := (TxnWord.fields_append 1#1 a v).1
    simp [tupleWellFormed, hlt, hrw]

/-- Settles O1: the decoder inverts the encoder by transaction, so by tuple, and every tuple written is canonical. -/
theorem decodeInvertsEncode : Obligations.DecodeInvertsEncode := by
  unfold Obligations.DecodeInvertsEncode
  exact fun i _ => ⟨decode_encode i, decodeBits_encodeBits i, tupleWellFormed_toBits _⟩

/-- Settles O2: each address, command word or window the decoder accepts is the one the encoder writes. -/
theorem encodeInvertsDecode : Obligations.EncodeInvertsDecode := by
  unfold Obligations.EncodeInvertsDecode
  exact fun _ _ => encode_of_decode

theorem decode_eq_ok_iff {t : Txn} {i : Instr} : decode t = .ok i ↔ t = encode i :=
  ⟨fun h => (encode_of_decode h).symm, fun h => h ▸ decode_encode i⟩

/-! ## The windows by mask (R45, R46, R84) -/

theorem and_freqMask_iff {a : Addr} : a &&& 0x1F00#13 = freqAddr 0#8 ↔ ∃ s, a = freqAddr s := by
  constructor
  · intro h
    have hhigh : a.extractLsb' 8 5 &&& BitVec.allOnes 5 = 1#5 := by
      rw [← show (freqAddr 0#8).extractLsb' 8 5 = 1#5 from rfl, ← h, BitVec.extractLsb'_and]; rfl
    rw [BitVec.and_allOnes] at hhigh
    exact ⟨_, (freqAddr_freqWindowSym (beq_iff_eq.2 hhigh)).symm⟩
  · rintro ⟨s, rfl⟩
    rw [show 0x1F00#13 = BitVec.allOnes 5 ++ 0#8 from rfl, freqAddr, BitVec.and_append, BitVec.and_allOnes,
      BitVec.and_zero]; rfl

theorem and_codeMask_iff {a : Addr} : a &&& 0x1000#13 = codeAddr 0#8 0#4 ↔ ∃ s x, a = codeAddr s x := by
  constructor
  · intro h
    have hhigh : a.extractLsb' 12 1 &&& BitVec.allOnes 1 = 1#1 := by
      rw [← show (codeAddr 0#8 0#4).extractLsb' 12 1 = 1#1 from rfl, ← h, BitVec.extractLsb'_and]; rfl
    rw [BitVec.and_allOnes] at hhigh
    exact ⟨_, _, (codeAddr_codeWindow (beq_iff_eq.2 hhigh)).symm⟩
  · rintro ⟨s, x, rfl⟩
    rw [show 0x1000#13 = BitVec.allOnes 1 ++ 0#8 ++ 0#4 from rfl, codeAddr, BitVec.and_append, BitVec.and_append,
      BitVec.and_allOnes, BitVec.and_zero, BitVec.and_zero]; rfl

/-! ## The rows of the opcode table, by the shape of their mask (R84) -/

section
variable {w m : TxnWord} {name : String}

/-- A row whose pattern is a write's tuple and whose mask fixes RW. -/
theorem matches_write_iff (hm : TxnWord.rw m = true) {a : Addr} {v : Word} :
    TableRow.matches ⟨name, m, (Txn.write a v).toBits⟩ w = true ↔
      ∃ a' v', Txn.ofBits w = .write a' v' ∧ a' &&& TxnWord.addr m = a ∧ v' &&& TxnWord.data m = v := by
  obtain ⟨hrw, haddr, hdata⟩ := TxnWord.fields_append 1#1 a v
  simp only [TableRow.matches, beq_iff_eq, TxnWord.and_eq_iff_fields, Txn.toBits, hrw, haddr, hdata, hm,
    ofBits_eq_write_iff]
  simp

/-- A row whose pattern is a read's tuple and whose mask fixes RW and leaves DATA free. -/
theorem matches_read_iff (hm : TxnWord.rw m = true) (hd : TxnWord.data m = 0) {a : Addr} :
    TableRow.matches ⟨name, m, (Txn.read a).toBits⟩ w = true ↔
      ∃ a', Txn.ofBits w = .read a' ∧ a' &&& TxnWord.addr m = a := by
  obtain ⟨hrw, haddr, hdata⟩ := TxnWord.fields_append 0#1 a 0#32
  simp only [TableRow.matches, beq_iff_eq, TxnWord.and_eq_iff_fields, Txn.toBits, hrw, haddr, hdata, hm, hd,
    ofBits_eq_read_iff]
  simp

/-- A row that fixes the whole tuple, of a command. -/
theorem matches_command_iff {v : Word} :
    TableRow.matches ⟨name, 0x3FFFFFFFFFFF#46, (Txn.write addrCmd v).toBits⟩ w = true ↔
      Txn.ofBits w = .write addrCmd v := by
  have haddr (x : Addr) : x &&& TxnWord.addr 0x3FFFFFFFFFFF#46 = x := BitVec.and_allOnes
  have hdata (x : Word) : x &&& TxnWord.data 0x3FFFFFFFFFFF#46 = x := BitVec.and_allOnes
  simp [matches_write_iff (m := 0x3FFFFFFFFFFF#46) rfl, haddr, hdata]

/-- A row that fixes RW and ADDR, of a write. -/
theorem matches_writeReg_iff {a : Addr} :
    TableRow.matches ⟨name, 0x3FFF00000000#46, (Txn.write a 0).toBits⟩ w = true ↔ ∃ v, Txn.ofBits w = .write a v := by
  have haddr (x : Addr) : x &&& TxnWord.addr 0x3FFF00000000#46 = x := BitVec.and_allOnes
  have hdata : TxnWord.data 0x3FFF00000000#46 = 0 := rfl
  simp [matches_write_iff (m := 0x3FFF00000000#46) rfl, haddr, hdata]

/-- A row that fixes RW and ADDR, of a read. -/
theorem matches_readReg_iff {a : Addr} :
    TableRow.matches ⟨name, 0x3FFF00000000#46, (Txn.read a).toBits⟩ w = true ↔ Txn.ofBits w = .read a := by
  have haddr (x : Addr) : x &&& TxnWord.addr 0x3FFF00000000#46 = x := BitVec.and_allOnes
  simp [matches_read_iff (m := 0x3FFF00000000#46) rfl rfl, haddr]

/-- A row that fixes RW and the FREQ window, of a write. -/
theorem matches_writeFreq_iff :
    TableRow.matches ⟨name, 0x3F0000000000#46, (Txn.write (freqAddr 0) 0).toBits⟩ w = true ↔
      ∃ s v, Txn.ofBits w = .write (freqAddr s) v := by
  have haddr : TxnWord.addr 0x3F0000000000#46 = 0x1F00#13 := rfl
  have hdata : TxnWord.data 0x3F0000000000#46 = 0 := rfl
  simp [matches_write_iff (m := 0x3F0000000000#46) rfl, haddr, hdata, and_freqMask_iff]

/-- A row that fixes RW and the FREQ window, of a read. -/
theorem matches_readFreq_iff :
    TableRow.matches ⟨name, 0x3F0000000000#46, (Txn.read (freqAddr 0)).toBits⟩ w = true ↔
      ∃ s, Txn.ofBits w = .read (freqAddr s) := by
  have haddr : TxnWord.addr 0x3F0000000000#46 = 0x1F00#13 := rfl
  simp [matches_read_iff (m := 0x3F0000000000#46) rfl rfl, haddr, and_freqMask_iff]

/-- A row that fixes RW and the CODE window, of a read. -/
theorem matches_readCode_iff :
    TableRow.matches ⟨name, 0x300000000000#46, (Txn.read (codeAddr 0 0)).toBits⟩ w = true ↔
      ∃ s x, Txn.ofBits w = .read (codeAddr s x) := by
  have haddr : TxnWord.addr 0x300000000000#46 = 0x1000#13 := rfl
  simp [matches_read_iff (m := 0x300000000000#46) rfl rfl, haddr, and_codeMask_iff]

end

theorem exists_row_eq_of_mem_opcodeTable {r : TableRow} (h : r ∈ opcodeTable) : ∃ i : Instr, i.row = r := by
  have hmap : opcodeTable = [.build, .derive, .packBegin, .packEnd, .unpackBegin, .clr, .pushp 0, .pushu 0, .wrubc 0,
    .wrfreq 0 0, .rdfreq 0, .rdstatus, .rdpbc, .rdubc, .rdurem, .rdcode 0 0].map Instr.row := rfl
  obtain ⟨i, -, hi⟩ := List.mem_map.1 (hmap ▸ h)
  exact ⟨i, hi⟩

/-- A tuple that stands for the transaction of `i` matches the row of `i`. -/
theorem row_matches_of_ofBits {w : TxnWord} {i : Instr} (h : Txn.ofBits w = encode i) : i.row.matches w = true := by
  cases i with
  | pushp v => exact matches_writeReg_iff.2 ⟨v, h⟩
  | pushu v => exact matches_writeReg_iff.2 ⟨v, h⟩
  | wrubc v => exact matches_writeReg_iff.2 ⟨v, h⟩
  | wrfreq s v => exact matches_writeFreq_iff.2 ⟨s, v, h⟩
  | rdfreq s => exact matches_readFreq_iff.2 ⟨s, h⟩
  | rdstatus => exact matches_readReg_iff.2 h
  | rdpbc => exact matches_readReg_iff.2 h
  | rdubc => exact matches_readReg_iff.2 h
  | rdurem => exact matches_readReg_iff.2 h
  | rdcode s x => exact matches_readCode_iff.2 ⟨s, x, h⟩
  | _ => exact matches_command_iff.2 h

/-- A tuple that matches the row of `i` stands for the transaction of an instruction of that row. -/
theorem exists_ofBits_of_row_matches {w : TxnWord} {i : Instr} (h : i.row.matches w = true) :
    ∃ j, Txn.ofBits w = encode j ∧ j.row = i.row := by
  cases i with
  | pushp _ =>
    obtain ⟨v, hv⟩ := (matches_writeReg_iff (a := addrPin)).1 h
    exact ⟨.pushp v, hv, rfl⟩
  | pushu _ =>
    obtain ⟨v, hv⟩ := (matches_writeReg_iff (a := addrUin)).1 h
    exact ⟨.pushu v, hv, rfl⟩
  | wrubc _ =>
    obtain ⟨v, hv⟩ := (matches_writeReg_iff (a := addrUbitcnt)).1 h
    exact ⟨.wrubc v, hv, rfl⟩
  | wrfreq _ _ =>
    obtain ⟨s, v, hv⟩ := matches_writeFreq_iff.1 h
    exact ⟨.wrfreq s v, hv, rfl⟩
  | rdfreq _ =>
    obtain ⟨s, hs⟩ := matches_readFreq_iff.1 h
    exact ⟨.rdfreq s, hs, rfl⟩
  | rdcode _ _ =>
    obtain ⟨s, x, hs⟩ := matches_readCode_iff.1 h
    exact ⟨.rdcode s x, hs, rfl⟩
  | rdstatus => exact ⟨_, matches_readReg_iff.1 h, rfl⟩
  | rdpbc => exact ⟨_, matches_readReg_iff.1 h, rfl⟩
  | rdubc => exact ⟨_, matches_readReg_iff.1 h, rfl⟩
  | rdurem => exact ⟨_, matches_readReg_iff.1 h, rfl⟩
  | _ => exact ⟨_, matches_command_iff.1 h, rfl⟩

/-- Settles O3: what decodes is an encoding, and a row's mask and pattern hold of just the encodings of its instructions. -/
theorem decodeAgreesWithOpcodeTable : Obligations.DecodeAgreesWithOpcodeTable := by
  unfold Obligations.DecodeAgreesWithOpcodeTable
  intro w r hr
  obtain ⟨i, rfl⟩ := exists_row_eq_of_mem_opcodeTable hr
  simp only [decodeBits, decode_eq_ok_iff]
  refine ⟨exists_ofBits_of_row_matches, ?_⟩
  rintro ⟨j, hj, hrow⟩
  exact hrow ▸ row_matches_of_ofBits hj

end Sys2Proof

namespace Sys2Proof.Machine

/-! ## What does not decode (R36, R57, R71, R75) -/

theorem decodeCommand_eq_error_iff {v : Word} {r : Reject} :
    decodeCommand v = .error r ↔ illegalCommandWord v ∧ r = .illegalCommand (v.extractLsb' 0 8) := by
  simp only [decodeCommand, illegalCommandWord, ← BitVec.toNat_inj, BitVec.toNat_ofNat, Nat.reducePow,
    Nat.reduceMod]
  split_ifs
  case neg => rw [Except.error.injEq, eq_comm, and_iff_right (by omega)]
  all_goals exact iff_of_false (by simp) fun ⟨h, _⟩ => by omega

theorem decodeRead_eq_error_iff {a : Addr} {r : Reject} :
    decodeRead a = .error r ↔
      (a.toNat = 0 ∨ a.toNat = 5 ∨ a.toNat = 6 ∨ reservedAddr a) ∧ r = .noOperationRead := by
  simp only [decodeRead, reservedAddr, inFreqWindow_iff, inCodeWindow_iff, ← BitVec.toNat_inj, BitVec.toNat_ofNat,
    Nat.reducePow, Nat.reduceMod]
  split_ifs
  case neg => rw [Except.error.injEq, eq_comm, and_iff_right (by omega)]
  all_goals exact iff_of_false (by simp) fun ⟨h, _⟩ => by omega

theorem decodeWrite_cmd (v : Word) : decodeWrite addrCmd v = decodeCommand v := if_pos rfl

theorem decodeWrite_eq_error_iff {a : Addr} {v : Word} {r : Reject} (ha : a ≠ addrCmd) :
    decodeWrite a v = .error r ↔
      (a.toNat = 1 ∨ a.toNat = 2 ∨ a.toNat = 4 ∨ 0x1000 ≤ a.toNat ∨ reservedAddr a) ∧ r = .noOperationWrite := by
  have hlt := a.isLt
  simp only [decodeWrite, reservedAddr, inFreqWindow_iff, ne_eq, ← BitVec.toNat_inj, BitVec.toNat_ofNat,
    Nat.reducePow, Nat.reduceMod] at ha ⊢
  rw [if_neg ha]
  split_ifs
  case neg => rw [Except.error.injEq, eq_comm, and_iff_right (by omega)]
  all_goals exact iff_of_false (by simp) fun ⟨h, _⟩ => by omega

/-- Settles O4: each rejection comes from one place of the decoder, at the addresses and words left over there. -/
theorem undecodedTransactionsAreNamed : Obligations.UndecodedTransactionsAreNamed := by
  unfold Obligations.UndecodedTransactionsAreNamed
  intro t
  cases t with
  | read a => simp [decode, decodeRead_eq_error_iff]
  | write a v =>
    by_cases ha : a = addrCmd
    · subst ha
      simp [decode, decodeWrite_cmd, decodeCommand_eq_error_iff, reservedAddr]
    · simp [decode, decodeWrite_eq_error_iff ha, ha]

/-- Settles O10: the word does not decode, and the rejection raises the fault. -/
theorem illegalCommandWordFaults : Obligations.IllegalCommandWordFaults := by
  unfold Obligations.IllegalCommandWordFaults
  intro s rest v hp he hv
  have hd : decode (.write addrCmd v) = .error (.illegalCommand (v.extractLsb' 0 8)) :=
    (decodeWrite_cmd v).trans (decodeCommand_eq_error_iff.2 ⟨hv, rfl⟩)
  rw [step_of_txn hp, perform, hd]
  exact whenUnfaulted_of_none _ he

end Sys2Proof.Machine

/-! PROOFS. The priority order, the first of the queue, and what a pass of the merge loop takes. -/

namespace Sys2Proof.Machine

/-! ## The priority order (R92) -/

section
variable {nodes : List Node}

theorem before_iff {i j : Nat} : before nodes i j = true ↔
    weightAt nodes i < weightAt nodes j ∨ (weightAt nodes i = weightAt nodes j ∧ i < j) := by
  simp [before]

@[simp] theorem before_irrefl (nodes : List Node) (i : Nat) : before nodes i i = false := by simp [before]

theorem before_trans {i j k : Nat} (hij : before nodes i j = true) (hjk : before nodes j k = true) :
    before nodes i k = true := by
  rw [before_iff] at *
  omega

theorem before_or_before_of_ne {i j : Nat} (h : i ≠ j) : before nodes i j = true ∨ before nodes j i = true := by
  rw [before_iff, before_iff]
  omega

theorem weightAt_le_of_before {i j : Nat} (h : before nodes i j = true) : weightAt nodes i ≤ weightAt nodes j := by
  rw [before_iff] at h
  omega

/-- A lower index that is no heavier comes first. -/
theorem before_of_le_of_lt {i j : Nat} (hw : weightAt nodes i ≤ weightAt nodes j) (h : i < j) :
    before nodes i j = true := by
  rw [before_iff]
  omega

/-- One more node changes nothing in the order of those before it. -/
theorem before_append_left (m : List Node) {i j : Nat} (hi : i < nodes.length) (hj : j < nodes.length) :
    before (nodes ++ m) i j = before nodes i j := by
  simp only [before, weightAt_append_left m hi, weightAt_append_left m hj]

/-! ## The first of the queue (R92, R93) -/

/-- `a` stands in the queue and comes before every other element of it. -/
def IsFirst (nodes : List Node) (q : List Nat) (a : Nat) : Prop := a ∈ q ∧ ∀ b ∈ q, b ≠ a → before nodes a b = true

theorem IsFirst.unique {q : List Nat} {a b : Nat} (ha : IsFirst nodes q a) (hb : IsFirst nodes q b) : a = b := by
  by_contra hne
  have hab := ha.2 b hb.1 (Ne.symm hne)
  have hba := hb.2 a ha.1 hne
  exact absurd (before_trans hab hba) (by simp)

theorem IsFirst.weightAt_le {q : List Nat} {a b : Nat} (ha : IsFirst nodes q a) (hb : b ∈ q) :
    weightAt nodes a ≤ weightAt nodes b := by
  by_cases h : b = a
  · rw [h]
  · exact weightAt_le_of_before (ha.2 b hb h)

theorem firstOf_isFirst : ∀ {q : List Nat} {a : Nat}, firstOf nodes q = some a → IsFirst nodes q a
  | [], a, h => by simp [firstOf] at h
  | i :: q, a, h => by
    rw [firstOf] at h
    split at h
    · rename_i hnone
      obtain rfl : i = a := by simpa using h
      simp [(firstOf_eq_none nodes q).1 hnone, IsFirst]
    · rename_i j hj
      obtain ⟨hmem, hfirst⟩ := firstOf_isFirst hj
      split at h
      · rename_i hji
        obtain rfl : j = a := by simpa using h
        refine ⟨List.mem_cons_of_mem _ hmem, fun b hb hne => ?_⟩
        rcases List.mem_cons.1 hb with rfl | hb
        · exact hji
        · exact hfirst b hb hne
      · rename_i hji
        obtain rfl : i = a := by simpa using h
        refine ⟨List.mem_cons_self, fun b hb hne => ?_⟩
        have hb : b ∈ q := (List.mem_cons.1 hb).resolve_left hne
        by_cases hbj : b = j
        · subst hbj
          exact (before_or_before_of_ne hne).resolve_left hji
        · have hjb := hfirst b hb hbj
          by_cases hij : i = j
          · rwa [hij]
          · exact before_trans ((before_or_before_of_ne hij).resolve_right hji) hjb

theorem firstOf_eq_some_iff {q : List Nat} {a : Nat} : firstOf nodes q = some a ↔ IsFirst nodes q a := by
  refine ⟨firstOf_isFirst, fun ha => ?_⟩
  cases h : firstOf nodes q with
  | none => exact absurd ha.1 (by simp [(firstOf_eq_none nodes q).1 h])
  | some b => rw [ha.unique (firstOf_isFirst h)]

theorem removeFirst_eq_some_iff {q q' : List Nat} {a : Nat} :
    removeFirst nodes q = some (a, q') ↔ IsFirst nodes q a ∧ q' = q.erase a := by
  rw [← firstOf_eq_some_iff, removeFirst]
  cases firstOf nodes q with
  | none => simp
  | some b =>
    simp only [Option.some.injEq, Prod.mk.injEq]
    exact ⟨fun ⟨h, h'⟩ => ⟨h, h ▸ h'.symm⟩, fun ⟨h, h'⟩ => ⟨h, h ▸ h'.symm⟩⟩

/-- A pass merges the first of the queue with the first of the rest, the first removed to the left (R93, R94). -/
theorem mergePass_isFirst {nodes' : List Node} {q q' : List Nat} (h : mergePass nodes q = some (nodes', q')) :
    ∃ a b, IsFirst nodes q a ∧ IsFirst nodes (q.erase a) b ∧ nodes' = nodes ++ [mergedNode nodes a b] ∧
      q' = (q.erase a).erase b ++ [nodes.length] := by
  unfold mergePass at h
  split at h
  · cases h
  · rename_i a q1 h1
    split at h
    · cases h
    · rename_i b q2 h2
      obtain ⟨ha, rfl⟩ := removeFirst_eq_some_iff.1 h1
      obtain ⟨hb, rfl⟩ := removeFirst_eq_some_iff.1 h2
      obtain ⟨rfl, rfl⟩ := by simpa using h
      exact ⟨a, b, ha, hb, rfl, rfl⟩

theorem mergePass_eq_none_iff {q : List Nat} : mergePass nodes q = none ↔ q.length < 2 := by
  refine ⟨length_lt_two_of_mergePass_none, fun hq => ?_⟩
  cases h : mergePass nodes q with
  | none => rfl
  | some r =>
    obtain ⟨a, b, rest, hperm, -⟩ := mergePass_some h
    have := hperm.length_eq
    simp only [List.length_cons] at this
    omega

/-- What is left in the queue after its first was removed comes after it. -/
theorem IsFirst.before_of_mem_erase {q : List Nat} {a b : Nat} (ha : IsFirst nodes q a) (hq : q.Nodup)
    (hb : b ∈ q.erase a) : before nodes a b = true := by
  obtain ⟨hne, hmem⟩ := hq.mem_erase_iff.1 hb
  exact ha.2 b hmem hne

end

/-- Settles O24: every clause on the queue is one about the element that is first in it. -/
theorem queueRemovesTheFirstInOrder : Obligations.QueueRemovesTheFirstInOrder := by
  unfold Obligations.QueueRemovesTheFirstInOrder
  intro nodes
  refine ⟨fun _ _ => before_iff, before_irrefl nodes, fun _ _ _ => before_trans, fun _ _ => before_or_before_of_ne,
    fun q => ⟨fun _ => firstOf_eq_some_iff, fun _ _ => removeFirst_eq_some_iff, mergePass_eq_none_iff, ?_⟩⟩
  intro nodes' q' h
  obtain ⟨a, b, ha, hb, hnodes, hq⟩ := mergePass_isFirst h
  exact ⟨a, b, removeFirst_eq_some_iff.2 ⟨ha, rfl⟩, removeFirst_eq_some_iff.2 ⟨hb, rfl⟩, hnodes, hq,
    ha.weightAt_le (List.mem_of_mem_erase hb.1), fun hnodup => ha.before_of_mem_erase hnodup hb.1⟩

end Sys2Proof.Machine

/-! PROOFS. The merges of a built tree follow the priority order. -/

namespace Sys2Proof.Machine

/-! ## The order of the merges (R92, R94, R95 c) -/

/-- The invariant of the merge loop for the priority order: the children of the Internal nodes, in creation order, left the
queue in the order of R92, and what is still queued follows them in it. -/
structure OrderInv (nodes : List Node) (q : List Nat) : Prop where
  /-- LEFT was removed before RIGHT (R94) -/
  children : ∀ (i : Nat) (n : Node), nodes[i]? = some n → n.kind = .internal →
    before nodes n.left.toNat n.right.toNat = true
  /-- an earlier pass removed both its nodes before a later one did -/
  merges : ∀ (i : Nat) (n : Node), nodes[i]? = some n → n.kind = .internal →
    ∀ (j : Nat) (m : Node), i < j → nodes[j]? = some m → m.kind = .internal →
      before nodes n.right.toNat m.left.toNat = true
  /-- what is still queued comes after all that was removed -/
  queued : ∀ (i : Nat) (n : Node), nodes[i]? = some n → n.kind = .internal →
    ∀ j ∈ q, before nodes n.right.toNat j = true

theorem orderInv_leaves {ls : List Node} (hls : ∀ n ∈ ls, IsLeafNode n) (q : List Nat) : OrderInv ls q := by
  have none_internal {i : Nat} {n : Node} (hn : ls[i]? = some n) (hk : n.kind = .internal) : False := by
    obtain ⟨hleaf, -⟩ := hls n (List.mem_of_getElem? hn)
    exact absurd (hleaf.symm.trans hk) (by decide)
  exact ⟨fun _ _ hn hk => (none_internal hn hk).elim, fun _ _ hn hk => (none_internal hn hk).elim,
    fun _ _ hn hk => (none_internal hn hk).elim⟩

section
variable {ls nodes nodes' : List Node} {q q' : List Nat} {total : Nat}

/-- A pass of the merge loop keeps the order: what it takes off the queue comes after all that was taken before, and the new
node, heavier than or as heavy as either child and of a higher index, comes after both. -/
theorem OrderInv.pass (h : OrderInv nodes q) (hm : MergeInv ls nodes q) (hlen : ls.length ≤ 256)
    (hp : mergePass nodes q = some (nodes', q')) (hw : WeightInv total nodes' q') : OrderInv nodes' q' := by
  have hcount := hm.count
  have hlong : 2 ≤ q.length := Nat.le_of_not_lt fun hq => by
    rw [mergePass_eq_none_iff.2 hq] at hp
    cases hp
  obtain ⟨a, b, ha, hb, rfl, rfl⟩ := mergePass_isFirst hp
  have hin {i : Nat} (hi : i ∈ q.erase a) : i < nodes.length := hm.inUse i (List.mem_of_mem_erase hi)
  have hal : a < nodes.length := hm.inUse a ha.1
  have hbl := hin hb.1
  have hab := ha.before_of_mem_erase hm.nodup hb.1
  have hleft : (mergedNode nodes a b).left.toNat = a := mergedNode_left (by omega)
  have hright : (mergedNode nodes a b).right.toNat = b := mergedNode_right (by omega)
  have hweight := hw.children nodes.length (mergedNode nodes a b) (by simp) rfl
  rw [hleft, hright, weightAt_append_left _ hal, weightAt_append_left _ hbl] at hweight
  have linked {i : Nat} {n : Node} (hn : nodes[i]? = some n) (hk : n.kind = .internal) :
      n.left.toNat < nodes.length ∧ n.right.toNat < nodes.length := by
    obtain ⟨hl, hr, -⟩ := hm.linked i n hn hk
    have := (List.getElem?_eq_some_iff.1 hn).1
    omega
  constructor
  case children =>
    intro i n hn hk
    obtain ⟨-, hn⟩ | ⟨-, rfl⟩ := getElem?_append_singleton hn
    · obtain ⟨hl, hr⟩ := linked hn hk
      rw [before_append_left _ hl hr, h.children i n hn hk]
    · rwa [hleft, hright, before_append_left _ hal hbl]
  case merges =>
    intro i n hn hk j m hij hnext hk'
    obtain ⟨-, hn⟩ | ⟨rfl, -⟩ := getElem?_append_singleton hn
    · obtain ⟨hl, hr⟩ := linked hn hk
      obtain ⟨-, hnext⟩ | ⟨-, rfl⟩ := getElem?_append_singleton hnext
      · rw [before_append_left _ hr (linked hnext hk').1, h.merges i n hn hk j m hij hnext hk']
      · rw [hleft, before_append_left _ hr hal, h.queued i n hn hk a ha.1]
    · have := (List.getElem?_eq_some_iff.1 hnext).1
      simp only [List.length_append, List.length_singleton] at this
      omega
  case queued =>
    intro i n hn hk j hj
    obtain ⟨hr, hle, hrest⟩ : n.right.toNat < nodes.length ∧ weightAt nodes n.right.toNat ≤ weightAt nodes b ∧
        ∀ j ∈ (q.erase a).erase b, before nodes n.right.toNat j = true := by
      obtain ⟨-, hn⟩ | ⟨-, rfl⟩ := getElem?_append_singleton hn
      · exact ⟨(linked hn hk).2, weightAt_le_of_before (h.queued i n hn hk b (List.mem_of_mem_erase hb.1)),
          fun j hj => h.queued i n hn hk j (List.mem_of_mem_erase (List.mem_of_mem_erase hj))⟩
      · rw [hright]
        exact ⟨hbl, le_rfl, fun j hj => hb.before_of_mem_erase (hm.nodup.erase a) hj⟩
    rcases List.mem_append.1 hj with hj | hj
    · rw [before_append_left _ hr (hin (List.mem_of_mem_erase hj)), hrest j hj]
    · obtain rfl := List.mem_singleton.1 hj
      refine before_of_le_of_lt ?_ hr
      rw [weightAt_append_left _ hr, weightAt_append_length]
      omega

/-- Internal nodes that take their children in order, each as heavy as its children together, are created in order of weight
(R95 c). -/
theorem OrderInv.weight_le (h : OrderInv nodes q) (hw : WeightInv total nodes q) {i j : Nat} {n m : Node} (hij : i < j)
    (hn : nodes[i]? = some n) (hk : n.kind = .internal) (hm : nodes[j]? = some m) (hk' : m.kind = .internal) :
    n.weight.toNat ≤ m.weight.toNat := by
  have hnode := weightAt_le_of_before (h.children i n hn hk)
  have hnext := weightAt_le_of_before (h.merges i n hn hk j m hij hm hk')
  have hnode' := weightAt_le_of_before (h.children j m hm hk')
  rw [hw.children i n hn hk, hw.children j m hm hk']
  omega

end

theorem weightAt_of_getElem? {nodes : List Node} {i : Nat} {n : Node} (h : nodes[i]? = some n) :
    weightAt nodes i = n.weight.toNat := by
  rw [weightAt, h]

theorem build_kind_internal_iff {f : FreqTable} {i : Nat} {n : Node} (hn : (build f).nodes[i]? = some n) :
    n.kind = .internal ↔ presentCount f ≤ i := by
  rw [← not_lt, ← build_kind_leaf_iff hn]
  cases n.kind <;> simp

/-- The tree of a legal table of two or more symbols: its weights are sums, and its merges follow the order of R92. -/
theorem build_orderInv {f : FreqTable} (hf : LegalTable f) (h2 : 2 ≤ presentCount f) :
    ∃ q, WeightInv (totalWeight (leaves f)) (build f).nodes q ∧ OrderInv (build f).nodes q := by
  have hls : ∀ n ∈ leaves f, IsLeafNode n := fun n hn => isLeafNode_of_mem_leaves hn
  have hlen : (leaves f).length ≤ 256 := (leaves_length f).trans_le (presentCount_le f)
  have htotal : totalWeight (leaves f) < 2 ^ 40 := (totalWeight_leaves_lt hf).trans (by decide)
  have hloop := mergeLoop_keeps (fun nodes q => MergeInv (leaves f) nodes q ∧
      WeightInv (totalWeight (leaves f)) nodes q ∧ OrderInv nodes q)
    (fun _ _ _ _ hp ⟨hm, hw, ho⟩ => have hw' := hw.pass hm hlen htotal hp
      ⟨hm.pass hls hlen hp, hw', ho.pass hm hlen hp hw'⟩)
    (leaves f).length _ _
    ⟨mergeInv_leaves hls (by rw [leaves_length]; omega) hlen, weightInv_leaves hls, orderInv_leaves hls _⟩
  rw [build, buildFromLeaves_of_two_le (by rwa [leaves_length])]
  exact ⟨_, hloop.2⟩

/-- Settles O29: the order of the merges, and the order of the weights that follows from it. -/
theorem internalWeightsNondecreasing : Obligations.InternalWeightsNondecreasing := by
  unfold Obligations.InternalWeightsNondecreasing
  intro f hf
  refine ⟨fun i hi hlt => ?_, fun h2 i n hn hk => ?_⟩
  · have h2 : 2 ≤ presentCount f := by
      have := build_length f
      split_ifs at this <;> omega
    obtain ⟨q, hw, ho⟩ := build_orderInv hf h2
    have hn := List.getElem?_eq_getElem (show i < (build f).nodes.length by omega)
    have hm := List.getElem?_eq_getElem hlt
    rw [weightAt_of_getElem? hn, weightAt_of_getElem? hm]
    exact ho.weight_le hw (Nat.lt_succ_self i) hn ((build_kind_internal_iff hn).2 hi) hm
      ((build_kind_internal_iff hm).2 (by omega))
  · obtain ⟨q, -, ho⟩ := build_orderInv hf h2
    have hbefore := ho.children i n hn hk
    exact ⟨weightAt_le_of_before hbefore, hbefore, ho.merges i n hn hk⟩

end Sys2Proof.Machine

/-! PROOFS. The tree of a table: where its leaves stand, what ROOT weighs, and the trees of one symbol and of none. -/

namespace Sys2Proof.Machine

/-! ## The symbols in ascending order (R91, R100) -/

theorem allSymbols_getElem {i : Nat} (h : i < allSymbols.length) : allSymbols[i] = BitVec.ofNat 8 i := by
  simp [allSymbols]

theorem allSymbols_sorted : allSymbols.Pairwise fun x y => x.toNat < y.toNat := by
  refine List.pairwise_iff_getElem.2 fun i j hi hj hij => ?_
  simp only [allSymbols_length] at hi hj
  rw [allSymbols_getElem, allSymbols_getElem, BitVec.toNat_ofNat, BitVec.toNat_ofNat]
  omega

/-- In an ascending list an element stands at the index equal to the number of smaller ones. -/
theorem getElem?_countP_lt {α : Type} (key : α → Nat) : ∀ {l : List α} {x : α},
    l.Pairwise (fun y z => key y < key z) → x ∈ l → l[l.countP fun y => decide (key y < key x)]? = some x
  | y :: l, x, hl, hx => by
    obtain ⟨hy, hl⟩ := List.pairwise_cons.1 hl
    rcases List.mem_cons.1 hx with rfl | hx
    · have hnone : l.countP (fun y => decide (key y < key x)) = 0 := by
        rw [List.countP_eq_zero]
        intro z hz
        have := hy z hz
        simp only [decide_eq_true_eq]
        omega
      simp [hnone]
    · rw [List.countP_cons_of_pos (by simpa using hy x hx), List.getElem?_cons_succ]
      exact getElem?_countP_lt key hl hx

/-- `S` as a filter by a Boolean test. -/
theorem presentSymbols_eq (f : FreqTable) : presentSymbols f = allSymbols.filter fun s => freqAt f s != 0 :=
  List.filter_congr fun s _ => by rw [bne, beq_eq_decide, decide_not]

/-- A present symbol stands in `S` at the index equal to the number of smaller present symbols. -/
theorem presentSymbols_getElem? {f : FreqTable} {x : Symbol} (h : freqAt f x ≠ 0) :
    (presentSymbols f)[allSymbols.countP fun y => decide (y.toNat < x.toNat) && freqAt f y != 0]? = some x := by
  have hsorted : (presentSymbols f).Pairwise fun y z => y.toNat < z.toNat := allSymbols_sorted.filter _
  have := getElem?_countP_lt BitVec.toNat hsorted (mem_presentSymbols.2 h)
  rw [presentSymbols_eq] at this ⊢
  rwa [List.countP_filter] at this

theorem leaves_getElem? {f : FreqTable} {x : Symbol} (h : freqAt f x ≠ 0) :
    (leaves f)[allSymbols.countP fun y => decide (y.toNat < x.toNat) && freqAt f y != 0]? =
      some (Node.mkLeaf x ((freqAt f x).setWidth 40)) := by
  rw [leaves, List.getElem?_map, presentSymbols_getElem? h]
  rfl

/-- Settles O25: the leaves stand first, in the order of the present symbols. -/
theorem builtTreeNumbering : Obligations.BuiltTreeNumbering := by
  unfold Obligations.BuiltTreeNumbering
  intro f
  refine ⟨fun x hx => ?_, fun i n hn => build_kind_leaf_iff hn, fun h2 => ?_⟩
  · obtain ⟨ints, hnodes, -⟩ := build_leavesFirst f
    have hleaf := leaves_getElem? hx
    rw [hnodes, List.getElem?_append_left (List.getElem?_eq_some_iff.1 hleaf).1, hleaf]
    rfl
  · have hlen := build_length f
    have hle := build_length_le f
    rw [if_neg (by omega), if_neg (by omega)] at hlen
    rw [(build_of_two_le h2).2.1, toNat_ofNat_nodeIdx (by omega)]
    omega

/-! ## ROOT's weight (R95 b, R98) -/

theorem totalWeight_leaves (f : FreqTable) : totalWeight (leaves f) = freqSum f := by
  have hw (s : Symbol) : ((freqAt f s).setWidth 40).toNat = (freqAt f s).toNat := by
    have := (freqAt f s).isLt
    rw [BitVec.toNat_setWidth]
    omega
  have hpresent : presentSymbols f = allSymbols.filter ((· != 0) ∘ fun s => (freqAt f s).toNat) :=
    List.filter_congr fun s _ => by simp [← BitVec.toNat_inj, bne, beq_eq_decide]
  rw [freqSum, ← List.sum_filter_bne_zero, List.filter_map, ← hpresent, totalWeight, leaves, List.map_map]
  exact congrArg List.sum (List.map_congr_left fun s _ => hw s)

/-- ROOT weighs what the leaves weigh together. -/
theorem weightAt_build_root {f : FreqTable} (hf : LegalTable f) (hne : leaves f ≠ []) :
    weightAt (build f).nodes (build f).root.toNat = totalWeight (leaves f) := by
  obtain hl | ⟨l, hl⟩ | h2 := leaves_cases f
  · exact absurd hl hne
  · simp [build_of_leaves_singleton hl, hl, weightAt, totalWeight, Node.mkInternal]
  · obtain ⟨-, hroot, hweight⟩ := build_of_two_le h2
    have hle := build_length_le f
    rw [hroot, toNat_ofNat_nodeIdx (by omega)]
    simpa using (hweight hf).queued

theorem leaves_ne_nil {f : FreqTable} {x : Symbol} (h : freqAt f x ≠ 0) : leaves f ≠ [] := by
  rw [← List.length_pos_iff, leaves_length]
  exact List.length_pos_of_mem (mem_presentSymbols.2 h)

/-- Settles O30: the queue weighs the same after every pass, and at the end ROOT is alone in it. -/
theorem rootWeightIsTheTotalCount : Obligations.RootWeightIsTheTotalCount := by
  unfold Obligations.RootWeightIsTheTotalCount
  intro f hf ⟨x, hx⟩
  rw [← totalWeight_leaves]
  exact ⟨weightAt_build_root hf (leaves_ne_nil hx), totalWeight_leaves_lt hf⟩

/-! ## One present symbol, and none (R96, R97) -/

theorem presentSymbols_eq_nil_iff {f : FreqTable} : presentSymbols f = [] ↔ ∀ x, freqAt f x = 0 := by
  simp [List.eq_nil_iff_forall_not_mem, mem_presentSymbols]

theorem presentSymbols_eq_singleton_iff {f : FreqTable} {x : Symbol} :
    presentSymbols f = [x] ↔ freqAt f x ≠ 0 ∧ ∀ y, freqAt f y ≠ 0 → y = x := by
  rw [← List.perm_singleton, List.perm_ext_iff_of_nodup (presentSymbols_nodup f) (List.nodup_singleton x)]
  simp only [mem_presentSymbols, List.mem_singleton]
  exact ⟨fun h => ⟨(h x).2 rfl, fun y => (h y).1⟩, fun ⟨hx, h⟩ y => ⟨h y, fun e => e ▸ hx⟩⟩

theorem walk_of_leaf {a : Arena} {i : NodeIdx} {n : Node} (hn : nodeAt a i = some n) (hk : n.kind = .leaf) (fuel : Nat)
    (path : List Digit) : walk a (fuel + 1) i path = [(n.sym, path)] := by
  rw [walk, hn]
  simp [hk]

/-- The walk of a node whose only child is LEFT. -/
theorem walk_of_left {a : Arena} {i : NodeIdx} {n : Node} (hn : nodeAt a i = some n) (hk : n.kind = .internal)
    (hl : n.left ≠ Config.none) (hr : n.right = Config.none) (fuel : Nat) (path : List Digit) :
    walk a (fuel + 1) i path = walk a fuel n.left (path ++ [false]) := by
  rw [walk, hn]
  simp [hk, hl, hr]

/-- The tree of one symbol gives it the code 0. -/
theorem treeCodes_singleton (x : Symbol) (w : Weight) :
    treeCodes (arenaOf [Node.mkLeaf x w, Node.mkInternal w 0 Config.none]) 1 = [(x, [false])] := by
  have hroot : nodeAt (arenaOf [Node.mkLeaf x w, Node.mkInternal w 0 Config.none]) 1 =
      some (Node.mkInternal w 0 Config.none) := nodeAt_arenaOf _ 1
  have hleaf : nodeAt (arenaOf [Node.mkLeaf x w, Node.mkInternal w 0 Config.none]) 0 = some (Node.mkLeaf x w) :=
    nodeAt_arenaOf _ 0
  rw [treeCodes, if_pos (by decide)]
  exact (walk_of_left hroot rfl (show 0#9 ≠ Config.none by decide) rfl 510 []).trans (walk_of_leaf hleaf rfl 509 _)

/-- Settles O26: the walk from the root takes LEFT once and is at the leaf. -/
theorem singleSymbolTree : Obligations.SingleSymbolTree := by
  unfold Obligations.SingleSymbolTree
  intro f x hx hothers
  have hsyms : presentSymbols f = [x] :=
    presentSymbols_eq_singleton_iff.2 ⟨hx, fun y hy => not_not.1 fun hne => hy (hothers y hne)⟩
  have hleaves : leaves f = [Node.mkLeaf x ((freqAt f x).setWidth 40)] := by rw [leaves, hsyms]; rfl
  have hbuild := build_of_leaves_singleton hleaves
  refine ⟨hbuild, ?_⟩
  have hcodes := treeCodes_singleton x ((freqAt f x).setWidth 40)
  rw [codesFor, hbuild]
  exact (congrArg (codeOf · x) hcodes).trans (by simp [codeOf])

/-- Settles O27: without a root there is no walk, so no symbol has a code. -/
theorem emptyTree : Obligations.EmptyTree := by
  unfold Obligations.EmptyTree
  intro f hzero
  have hleaves : leaves f = [] := by rw [leaves, presentSymbols_eq_nil_iff.2 hzero]; rfl
  have hbuild := build_of_leaves_nil hleaves
  have hcodes : ∀ x, codesFor f x = none := fun x => by rw [codesFor, hbuild]; rfl
  refine ⟨hbuild, fun x => ?_, by simp [pack, codeDigits, payloadOf]⟩
  rw [codeAt_tableFor, hcodes x]
  rfl

end Sys2Proof.Machine

/-! PROOFS. The command BUILD. -/

namespace Sys2Proof.Machine

/-! ## BUILD (R99, R100) -/

/-- A count is legal when bit 31 is clear (R8, R21). -/
theorem legalCount_eq_not_getLsbD (v : Word) : legalCount v = !v.getLsbD 31 := by
  have : v.getLsbD 31 = decide (2 ^ 31 ≤ v.toNat) := BitVec.getLsbD_last v
  rw [this, legalCount, ← decide_not, decide_eq_decide]
  simp only [Config.freqMax]
  omega

theorem firstBadFreq_eq_none_iff {f : FreqTable} : firstBadFreq f = none ↔ LegalTable f := by
  refine ⟨legalTable_of_firstBadFreq_none, fun h => ?_⟩
  rw [firstBadFreq, List.find?_eq_none]
  intro x _
  simpa [legalCount] using h x

/-- The check reports the lowest symbol whose count has bit 31 set (R100). -/
theorem firstBadFreq_eq_some {f : FreqTable} {x : Symbol} (hx : (freqAt f x).getLsbD 31 = true)
    (hlow : ∀ y, y.toNat < x.toNat → (freqAt f y).getLsbD 31 = false) : firstBadFreq f = some x := by
  have hlt := x.isLt
  rw [firstBadFreq, List.find?_eq_some_iff_getElem]
  simp only [legalCount_eq_not_getLsbD, Bool.not_not, allSymbols_getElem]
  refine ⟨hx, x.toNat, by simpa using hlt, by simp, fun j hj => ?_⟩
  rw [hlow _ (by rw [BitVec.toNat_ofNat]; omega)]
  rfl

section
variable {s : State} (he : s.err = .none) (hm : s.mode = .idle)
include he hm

theorem exec_build_of_bad {x : Symbol} (h : firstBadFreq s.freq = some x) :
    exec .build s = .next (raiseFault .badFreq x s) :=
  (whenUnfaulted_of_none _ he).trans (by simp [hm, h])

theorem exec_build_of_legal (h : firstBadFreq s.freq = none) :
    exec .build s = .next (installTree (build s.freq) (presentCount s.freq) s) :=
  (whenUnfaulted_of_none _ he).trans (by simp [hm, h])

end

/-- Settles O23: the check finds the lowest offending symbol. -/
theorem buildRejectsNegativeCounts : Obligations.BuildRejectsNegativeCounts := by
  unfold Obligations.BuildRejectsNegativeCounts
  exact fun _ _ he hm hx hlow => exec_build_of_bad he hm (firstBadFreq_eq_some hx hlow)

/-- Settles O22: a legal table passes the check, and the flags count the present symbols. -/
theorem buildInstallsTheTree : Obligations.BuildInstallsTheTree := by
  unfold Obligations.BuildInstallsTheTree
  intro s he hm hf
  refine ⟨_, exec_build_of_legal he hm (firstBadFreq_eq_none_iff.2 hf), rfl, inUse_installTree _ _ _, nnode_build _, rfl,
    ?_, ?_⟩
  · rw [installTree_empty, beq_iff_eq, presentCount, List.length_eq_zero_iff, presentSymbols_eq_nil_iff]
  · rw [installTree_single, beq_iff_eq, presentCount, List.length_eq_one_iff]
    exact exists_congr fun _ => presentSymbols_eq_singleton_iff

end Sys2Proof.Machine

/-! PROOFS. The codes of a tree are the paths from ROOT to its leaves, and each present symbol has one. -/

namespace Sys2Proof.Machine

/-! ## The walk and the paths of `follow` (R111, R112) -/

/-- The path `ds` from node `i` ends at the leaf of `x`. -/
def LeadsTo (a : Arena) (i : NodeIdx) (ds : List Digit) (x : Symbol) : Prop :=
  ∃ n, follow a i ds = some n ∧ n.kind = .leaf ∧ n.sym = x

theorem follow_cons_eq_some_iff {a : Arena} {i : NodeIdx} {d : Digit} {ds : List Digit} {m : Node} :
    follow a i (d :: ds) = some m ↔ ∃ n, nodeAt a i = some n ∧ n.kind = .internal ∧ childOf n d ≠ Config.none ∧
      follow a (childOf n d) ds = some m := by
  rw [follow]
  cases nodeAt a i <;> simp [and_assoc]

theorem leadsTo_cons_iff {a : Arena} {i : NodeIdx} {d : Digit} {ds : List Digit} {x : Symbol} :
    LeadsTo a i (d :: ds) x ↔ ∃ n, nodeAt a i = some n ∧ n.kind = .internal ∧ childOf n d ≠ Config.none ∧
      LeadsTo a (childOf n d) ds x := by
  constructor
  · rintro ⟨m, hm, hx⟩
    obtain ⟨n, hn, hk, hd, hm⟩ := follow_cons_eq_some_iff.1 hm
    exact ⟨n, hn, hk, hd, m, hm, hx⟩
  · rintro ⟨n, hn, hk, hd, m, hm, hx⟩
    exact ⟨m, follow_cons_eq_some_iff.2 ⟨n, hn, hk, hd, hm⟩, hx⟩

/-- The walk assigns to a symbol exactly the paths that lead to a leaf of it and that its fuel allows. -/
theorem mem_walk_iff_leadsTo {a : Arena} {fuel : Nat} {i : NodeIdx} {path p : List Digit} {x : Symbol} :
    (x, p) ∈ walk a fuel i path ↔ ∃ ds, ds.length < fuel ∧ p = path ++ ds ∧ LeadsTo a i ds x := by
  induction fuel generalizing i path with
  | zero => simp [walk]
  | succ fuel ih =>
    rw [mem_walk_succ]
    constructor
    · rintro ⟨n, hn, ⟨hk, heq⟩ | ⟨hk, d, hd, hmem⟩⟩
      · obtain ⟨rfl, rfl⟩ := by simpa using heq
        exact ⟨[], by simp, by simp, n, hn, hk, rfl⟩
      · obtain ⟨ds, hlt, rfl, hds⟩ := ih.1 hmem
        exact ⟨d :: ds, by simpa using hlt, by simp, leadsTo_cons_iff.2 ⟨n, hn, hk, hd, hds⟩⟩
    · rintro ⟨_ | ⟨d, ds⟩, hlt, rfl, hds⟩
      · obtain ⟨n, hn, hk, rfl⟩ := hds
        exact ⟨n, hn, .inl ⟨hk, by simp⟩⟩
      · obtain ⟨n, hn, hk, hd, hds⟩ := leadsTo_cons_iff.1 hds
        exact ⟨n, hn, .inr ⟨hk, d, hd, ih.2 ⟨ds, by simpa using hlt, by simp, hds⟩⟩⟩

@[simp] theorem nodeAt_arenaOf_none (nodes : List Node) : nodeAt (arenaOf nodes) Config.none = none := by
  rw [nodeAt_arenaOf, if_pos rfl]

@[simp] theorem walk_arenaOf_none (nodes : List Node) (fuel : Nat) (path : List Digit) :
    walk (arenaOf nodes) fuel Config.none path = [] := by
  cases fuel <;> simp only [walk, nodeAt_arenaOf_none]

theorem follow_arenaOf_none (nodes : List Node) (ds : List Digit) : follow (arenaOf nodes) Config.none ds = none := by
  cases ds <;> simp only [follow, nodeAt_arenaOf_none]

/-- In the arena of a list of nodes the walk needs no test for NONE at ROOT. -/
theorem treeCodes_arenaOf (nodes : List Node) (root : NodeIdx) :
    treeCodes (arenaOf nodes) root = walk (arenaOf nodes) Config.nnodeMax root [] := by
  by_cases h : root = Config.none
  · rw [h, walk_arenaOf_none]
    rfl
  · exact if_pos h

/-- In the arena of a list of nodes the walk needs no test for NONE at a child. -/
theorem walk_of_internal {nodes : List Node} {i : NodeIdx} {n : Node} (hn : nodeAt (arenaOf nodes) i = some n)
    (hk : n.kind = .internal) (fuel : Nat) (path : List Digit) : walk (arenaOf nodes) (fuel + 1) i path =
      walk (arenaOf nodes) fuel n.left (path ++ [false]) ++ walk (arenaOf nodes) fuel n.right (path ++ [true]) := by
  have child (k : NodeIdx) (p : List Digit) : (if k ≠ Config.none then walk (arenaOf nodes) fuel k p else []) =
      walk (arenaOf nodes) fuel k p := by
    by_cases h : k = Config.none <;> simp [h]
  rw [walk, hn]
  simp only [hk, child]

/-! ## The nodes a path from ROOT passes (R23 d) -/

/-- The path `p` from ROOT ends at index `i`. -/
inductive PathTo (t : HuffTree) : List Digit → NodeIdx → Prop
  | root : t.root.toNat < t.nodes.length → PathTo t [] t.root
  | child {p : List Digit} {i : NodeIdx} {n : Node} {d : Digit} : PathTo t p i → t.nodes[i.toNat]? = some n →
      n.kind = .internal → childOf n d ≠ Config.none → PathTo t (p ++ [d]) (childOf n d)

/-- ROOT is an entry in use, unless there is none (R93, R96, R97). -/
theorem TreeOk.root_lt {f : FreqTable} {nodes : List Node} {root : NodeIdx} (h : TreeOk f nodes root)
    (hne : nodes ≠ []) : root.toNat < nodes.length := by
  have hsize : nodes.length ≤ 511 := h.size
  have hpos := List.length_pos_iff.2 hne
  rw [h.rootLast, if_neg hne, toNat_ofNat_nodeIdx (by omega)]
  omega

theorem TreeOk.root_eq_none_iff {f : FreqTable} {nodes : List Node} {root : NodeIdx} (h : TreeOk f nodes root) :
    root = Config.none ↔ nodes = [] := by
  refine ⟨fun hroot => by_contra fun hne => ?_, fun hnil => by rw [h.rootLast, if_pos hnil]⟩
  exact ne_none_of_toNat_lt ((h.root_lt hne).trans_le h.size) hroot

section
variable {f : FreqTable} {t : HuffTree} (h : TreeOk f t.nodes t.root) {p : List Digit} {i : NodeIdx}
include h

/-- Each digit of a path leads to a lower index. -/
theorem PathTo.length_add_lt (hp : PathTo t p i) : p.length + i.toNat < t.nodes.length := by
  induction hp with
  | root hlt => simpa using hlt
  | child _ hn _ hd ih =>
    have := h.childOf_lt hn hd
    rw [List.length_append, List.length_singleton]
    omega

theorem PathTo.lt (hp : PathTo t p i) : i.toNat < t.nodes.length :=
  (Nat.le_add_left _ _).trans_lt (hp.length_add_lt h)

theorem PathTo.nodeAt_arenaOf (hp : PathTo t p i) : nodeAt (arenaOf t.nodes) i = t.nodes[i.toNat]? :=
  nodeAt_arenaOf_of_lt (hp.lt h) h.size

/-- A path goes on as `follow` does. -/
theorem PathTo.append_of_follow {ds : List Digit} {m : Node} (hp : PathTo t p i)
    (hm : follow (arenaOf t.nodes) i ds = some m) : ∃ j, PathTo t (p ++ ds) j ∧ t.nodes[j.toNat]? = some m := by
  induction ds generalizing p i with
  | nil => exact ⟨i, by simpa using hp, (hp.nodeAt_arenaOf h).symm.trans hm⟩
  | cons d ds ih =>
    obtain ⟨n, hn, hk, hd, hm⟩ := follow_cons_eq_some_iff.1 hm
    rw [hp.nodeAt_arenaOf h] at hn
    obtain ⟨j, hj, hjm⟩ := ih (hp.child hn hk hd) hm
    exact ⟨j, by simpa using hj, hjm⟩

/-- A path that leads from ROOT to the leaf of `x` ends at an index that holds that leaf. -/
theorem LeadsTo.exists_pathTo {ds : List Digit} {x : Symbol} (hx : LeadsTo (arenaOf t.nodes) t.root ds x) :
    ∃ j n, PathTo t ds j ∧ t.nodes[j.toNat]? = some n ∧ n.kind = .leaf ∧ n.sym = x := by
  obtain ⟨n, hn, hk, hs⟩ := hx
  have hne : t.nodes ≠ [] := fun hnil => by simp [h.root_eq_none_iff.2 hnil, follow_arenaOf_none] at hn
  obtain ⟨j, hj, hjn⟩ := (PathTo.root (h.root_lt hne)).append_of_follow h hn
  exact ⟨j, n, hj, hjn, hk, hs⟩

/-- The fuel of the walk is enough for a tree: it assigns exactly the paths from ROOT to the leaves (R111, R112). -/
theorem mem_treeCodes_iff_leadsTo {ds : List Digit} {x : Symbol} :
    (x, ds) ∈ treeCodes (arenaOf t.nodes) t.root ↔ LeadsTo (arenaOf t.nodes) t.root ds x := by
  rw [treeCodes_arenaOf, mem_walk_iff_leadsTo]
  refine ⟨fun ⟨es, _, hes, hx⟩ => by simpa [hes] using hx, fun hx => ⟨ds, ?_, rfl, hx⟩⟩
  obtain ⟨j, n, hj, -⟩ := hx.exists_pathTo h
  exact ((Nat.le_add_right _ _).trans_lt (hj.length_add_lt h)).trans_le h.size

end

/-! ## Each present symbol has one code (R113)

The codes of `x` below an entry are summed over all entries in use. By entry, the sum counts the leaves of `x` and the codes
below all children; by the links of R22, the children are all entries but ROOT. What is left is that the codes below ROOT are
as many as the leaves of `x`. -/

theorem sum_map_ite_eq_countP {α : Type} (p : α → Bool) (l : List α) :
    (l.map fun x => if p x then 1 else 0).sum = l.countP p := by
  induction l with
  | nil => rfl
  | cons x l ih => rw [List.map_cons, List.sum_cons, List.countP_cons, ih, Nat.add_comm]

/-- How many codes the walk from node `i` assigns to `x`. -/
def codesBelow (nodes : List Node) (x : Symbol) (i : NodeIdx) : Nat :=
  (walk (arenaOf nodes) Config.nnodeMax i []).countP fun c => c.1 == x

@[simp] theorem codesBelow_none (nodes : List Node) (x : Symbol) : codesBelow nodes x Config.none = 0 := by
  simp only [codesBelow, walk_arenaOf_none, List.countP_nil]

section
variable {f : FreqTable} {nodes : List Node} {root : NodeIdx} (h : TreeOk f nodes root)
include h

/-- With fuel for every index below, the number of codes depends neither on the fuel nor on the path so far. -/
theorem TreeOk.countP_walk_eq (x : Symbol) : ∀ (fuel fuel' : Nat) (i : NodeIdx) (path path' : List Digit),
    (i ≠ Config.none → i.toNat < nodes.length ∧ i.toNat < fuel ∧ i.toNat < fuel') →
      (walk (arenaOf nodes) fuel i path).countP (fun c => c.1 == x) =
        (walk (arenaOf nodes) fuel' i path').countP fun c => c.1 == x := by
  intro fuel fuel' i path path' hi
  by_cases hnone : i = Config.none
  · simp [hnone]
  obtain ⟨hlt, hfuel, hfuel'⟩ := hi hnone
  match fuel, fuel', hfuel, hfuel' with
  | fuel + 1, fuel' + 1, hfuel, hfuel' =>
    have hn := nodeAt_arenaOf_of_lt hlt h.size
    have hget := List.getElem?_eq_getElem hlt
    rw [hget] at hn
    cases hk : nodes[i.toNat].kind with
    | leaf => simp [walk_of_leaf hn hk]
    | internal =>
      obtain ⟨hl, hr⟩ := h.childBelow _ _ hget
      rw [walk_of_internal hn hk, walk_of_internal hn hk, List.countP_append, List.countP_append]
      congr 1
      · exact TreeOk.countP_walk_eq x fuel fuel' _ _ _ fun hne => by have := hl hne; omega
      · exact TreeOk.countP_walk_eq x fuel fuel' _ _ _ fun hne => by have := hr hne; omega

/-- A node's codes are its own, if it is the leaf of `x`, and those of its children. -/
theorem TreeOk.codesBelow_eq (x : Symbol) {i : Nat} {n : Node} (hn : nodes[i]? = some n) :
    codesBelow nodes x (BitVec.ofNat 9 i) = (if n.kind == .leaf && n.sym == x then 1 else 0) +
      (codesBelow nodes x n.left + codesBelow nodes x n.right) := by
  have hlt := (List.getElem?_eq_some_iff.1 hn).1
  have hsize := h.size
  simp only [Config.nnodeMax] at hsize
  have hi := toNat_ofNat_nodeIdx (hlt.trans_le hsize)
  have hnode : nodeAt (arenaOf nodes) (BitVec.ofNat 9 i) = some n := by
    rw [nodeAt_arenaOf_of_lt (by omega) hsize, hi, hn]
  cases hk : n.kind with
  | leaf =>
    obtain ⟨hl, hr⟩ := h.leafLinks n (List.mem_of_getElem? hn) hk
    rw [codesBelow, Config.nnodeMax, walk_of_leaf hnode hk, hl, hr]
    simp [List.countP_cons]
  | internal =>
    obtain ⟨hl, hr⟩ := h.childBelow i n hn
    rw [codesBelow, Config.nnodeMax, walk_of_internal hnode hk, List.countP_append,
      h.countP_walk_eq x 510 511 n.left _ [] fun hne => by have := hl hne; omega,
      h.countP_walk_eq x 510 511 n.right _ [] fun hne => by have := hr hne; omega]
    simp [codesBelow]

/-- A sum over the entries in use that picks out one index. -/
theorem TreeOk.sum_pick {c : NodeIdx → Nat} (hc : c Config.none = 0) {k : NodeIdx}
    (hk : k ≠ Config.none → k.toNat < nodes.length) :
    ∑ j : Fin nodes.length, c (BitVec.ofNat 9 j) * (if k = BitVec.ofNat 9 j then 1 else 0) = c k := by
  have hindex (j : Fin nodes.length) : (BitVec.ofNat 9 j).toNat = j := toNat_ofNat_nodeIdx (j.isLt.trans_le h.size)
  by_cases hnone : k = Config.none
  · rw [hnone, hc]
    refine Finset.sum_eq_zero fun j _ => ?_
    rw [if_neg (ne_none_of_toNat_lt ((hindex j).trans_lt (j.isLt.trans_le h.size))).symm, mul_zero]
  · rw [Finset.sum_eq_single ⟨k.toNat, hk hnone⟩ (fun j _ hj => ?_) (by simp)]
    · simp
    · rw [if_neg fun e => hj (Fin.ext ((congrArg BitVec.toNat e).trans (hindex j)).symm), mul_zero]

/-- Every entry in use but ROOT is the child of one node, so the children of all nodes are all entries but ROOT (R22). -/
theorem TreeOk.sum_children {c : NodeIdx → Nat} (hc : c Config.none = 0) (hne : nodes ≠ []) :
    c root + (nodes.map fun n => c n.left + c n.right).sum = ∑ i : Fin nodes.length, c (BitVec.ofNat 9 i) := by
  have hchildren (i : Fin nodes.length) : c nodes[i.val].left + c nodes[i.val].right =
      ∑ j : Fin nodes.length, c (BitVec.ofNat 9 j) * nodes[i.val].linksTo (BitVec.ofNat 9 j) := by
    obtain ⟨hl, hr⟩ := h.childBelow i _ (List.getElem?_eq_getElem i.isLt)
    simp only [Node.linksTo, Nat.mul_add, Finset.sum_add_distrib]
    rw [h.sum_pick hc fun hne => (hl hne).trans i.isLt, h.sum_pick hc fun hne => (hr hne).trans i.isLt]
  have howned (j : Fin nodes.length) : ∑ i : Fin nodes.length, nodes[i.val].linksTo (BitVec.ofNat 9 j) =
      if root = BitVec.ofNat 9 j then 0 else 1 := by
    rw [Fin.sum_univ_fun_getElem nodes (Node.linksTo (BitVec.ofNat 9 j)), h.owned j j.isLt]
    simp only [eq_comm]
  rw [← Fin.sum_univ_fun_getElem nodes, ← h.sum_pick hc fun _ => h.root_lt hne]
  calc _ = (∑ j : Fin nodes.length, c (BitVec.ofNat 9 j) * if root = BitVec.ofNat 9 j then 1 else 0) +
        ∑ j : Fin nodes.length, c (BitVec.ofNat 9 j) * ∑ i : Fin nodes.length, nodes[i.val].linksTo (BitVec.ofNat 9 j) := by
        simp only [Finset.mul_sum]
        rw [Finset.sum_comm]
        exact congrArg _ (Finset.sum_congr rfl fun i _ => hchildren i)
    _ = ∑ j : Fin nodes.length, c (BitVec.ofNat 9 j) := by
        rw [← Finset.sum_add_distrib]
        refine Finset.sum_congr rfl fun j _ => ?_
        rw [howned]
        split_ifs <;> simp

/-- The walk assigns a code once for each leaf of a symbol (R113). -/
theorem TreeOk.countP_treeCodes (x : Symbol) :
    (treeCodes (arenaOf nodes) root).countP (fun c => c.1 == x) = if freqAt f x = 0 then 0 else 1 := by
  rw [← h.leafOnce x, treeCodes_arenaOf]
  show codesBelow nodes x root = _
  by_cases hnil : nodes = []
  · simp [h.root_eq_none_iff.2 hnil, hnil]
  · have hsum := h.sum_children (codesBelow_none nodes x) hnil
    have hnode (i : Fin nodes.length) := h.codesBelow_eq x (List.getElem?_eq_getElem i.isLt)
    simp only [hnode, Finset.sum_add_distrib] at hsum
    rw [← Finset.sum_add_distrib,
      Fin.sum_univ_fun_getElem nodes fun n => codesBelow nodes x n.left + codesBelow nodes x n.right,
      Fin.sum_univ_fun_getElem nodes fun n => if n.kind == .leaf && n.sym == x then 1 else 0,
      sum_map_ite_eq_countP] at hsum
    omega

end

/-- Settles O33: a built tree has one leaf for each present symbol and none for another. -/
theorem everyPresentSymbolGetsOneCode : Obligations.EveryPresentSymbolGetsOneCode := by
  unfold Obligations.EveryPresentSymbolGetsOneCode
  exact fun f hf x => (build_treeOk hf).countP_treeCodes x

end Sys2Proof.Machine

/-! PROOFS. The codes of a table of counts, and the command DERIVE. -/

namespace Sys2Proof.Machine

/-! ## The code of a symbol (R112, R114) -/

/-- A symbol to which one assignment is made holds that one. -/
theorem codeOf_eq_some_of_mem {codes : List (Symbol × List Digit)} {x : Symbol} {ds : List Digit}
    (hmem : (x, ds) ∈ codes) (hone : codes.countP (fun c => c.1 == x) ≤ 1) : codeOf codes x = some ds := by
  induction codes using List.reverseRecOn with
  | nil => simp at hmem
  | append_singleton codes c ih =>
    rw [List.countP_append, List.countP_singleton] at hone
    rw [codeOf_append_singleton]
    rcases List.mem_append.1 hmem with hmem | hmem
    · have hpos : 0 < codes.countP fun c => c.1 == x :=
        List.countP_pos_iff.2 ⟨_, hmem, beq_self_eq_true x⟩
      have hc : ¬ c.1 = x := fun e => by
        rw [if_pos (beq_iff_eq.2 e)] at hone
        omega
      rw [if_neg hc, ih hmem (by omega)]
    · rw [← List.mem_singleton.1 hmem, if_pos rfl]

/-- A symbol's code is the path from ROOT to its leaf (R112). -/
theorem codesFor_eq_some_iff {f : FreqTable} (hf : LegalTable f) {x : Symbol} {ds : List Digit} :
    codesFor f x = some ds ↔ LeadsTo (arenaOf (build f).nodes) (build f).root ds x := by
  rw [← mem_treeCodes_iff_leadsTo (build_treeOk hf)]
  refine ⟨mem_of_codeOf, fun hmem => codeOf_eq_some_of_mem hmem ?_⟩
  rw [(build_treeOk hf).countP_treeCodes x]
  split_ifs <;> decide

/-- Settles O32. -/
theorem codesAreRootToLeafPaths : Obligations.CodesAreRootToLeafPaths := by
  unfold Obligations.CodesAreRootToLeafPaths
  exact fun f hf x ds => codesFor_eq_some_iff hf

/-- A path that has come to a leaf cannot be continued (R114). -/
theorem LeadsTo.eq_of_append {a : Arena} {x y : Symbol} : ∀ {ds es : List Digit} {i : NodeIdx},
    LeadsTo a i ds x → LeadsTo a i (ds ++ es) y → x = y
  | [], [], _, ⟨n, hn, _, hx⟩, ⟨m, hm, _, hy⟩ => by
    obtain rfl : n = m := Option.some_injective _ (hn.symm.trans hm)
    exact hx.symm.trans hy
  | [], e :: es, i, ⟨n, hn, hk, _⟩, hy => by
    obtain ⟨m, hm, hk', -⟩ := leadsTo_cons_iff.1 hy
    obtain rfl : n = m := Option.some_injective _ (hn.symm.trans hm)
    exact absurd (hk.symm.trans hk') (by decide)
  | d :: ds, es, i, hx, hy => by
    obtain ⟨n, hn, -, -, hx⟩ := leadsTo_cons_iff.1 hx
    obtain ⟨m, hm, -, -, hy⟩ := leadsTo_cons_iff.1 hy
    obtain rfl : n = m := Option.some_injective _ (hn.symm.trans hm)
    exact hx.eq_of_append hy

/-- The stored table gives back every code as it was derived (R28, R119). -/
theorem storedCode_tableFor {f : FreqTable} (hf : LegalTable f) (x : Symbol) :
    storedCode (tableFor f) x = codesFor f x := by
  rw [storedCode, codeAt_tableFor]
  cases hx : codesFor f x with
  | none => rfl
  | some ds =>
    obtain ⟨hpos, -, hmax⟩ := codesFor_length hf hx
    have hlen : (CodeEntry.ofDigits ds).len ≠ 0 := fun e => by
      have := len_ofDigits hmax
      rw [e] at this
      exact absurd (this.trans_ge hpos) (by decide)
    exact (if_neg hlen).trans (congrArg some (digits_ofDigits hmax))

/-- Settles O34. -/
theorem derivedTableIsPrefixFree : Obligations.DerivedTableIsPrefixFree := by
  unfold Obligations.DerivedTableIsPrefixFree
  intro f hf x y dx dy hne hx hy ⟨es, hes⟩
  rw [storedCode_tableFor hf, codesFor_eq_some_iff hf] at hx hy
  exact hne (hx.eq_of_append (hes ▸ hy))

/-! ## DERIVE (R119, R120) -/

theorem digitsValue_lt : ∀ ds : List Digit, digitsValue ds < 2 ^ ds.length
  | [] => by simp [digitsValue]
  | d :: ds => by
    have := digitsValue_lt ds
    have := d.toNat_lt
    rw [digitsValue, List.length_cons, Nat.pow_succ]
    omega

theorem bits_ofDigits {ds : List Digit} (h : ds.length ≤ 255) :
    (CodeEntry.ofDigits ds).bits.toNat = digitsValue ds :=
  (BitVec.toNat_ofNat ..).trans (Nat.mod_eq_of_lt
    ((digitsValue_lt ds).trans_le (Nat.pow_le_pow_right (by decide) (by omega))))

theorem exec_derive_of_tree {s : State} (he : s.err = .none) (hm : s.mode = .idle) (hv : s.treeValid = true) :
    exec .derive s = .next (installCodes (deriveTable s.node s.root) s) :=
  (whenUnfaulted_of_none _ he).trans (by simp [hm, hv])

/-- Settles O31: the tree of the invariant is a built one, so its codes fit their entries. -/
theorem deriveStoresEveryCode : Obligations.DeriveStoresEveryCode := by
  unfold Obligations.DeriveStoresEveryCode
  intro s hinv he hm hv
  obtain ⟨f, hf, hnode, -, hroot, -⟩ := hinv.tree hv
  refine ⟨_, exec_derive_of_tree he hm hv, rfl, fun x => ?_⟩
  have hcode : codeOf (treeCodes s.node s.root) x = codesFor f x := by rw [hnode, hroot, codesFor]
  rw [installCodes_code, codeAt_deriveTable, hcode]
  cases hx : codesFor f x with
  | none => rfl
  | some ds =>
    obtain ⟨-, -, hmax⟩ := codesFor_length hf hx
    exact ⟨len_ofDigits hmax, bits_ofDigits hmax⟩

end Sys2Proof.Machine

/-! PROOFS. More frequent symbols stand no deeper in a built tree. -/

namespace Sys2Proof.Machine

/-! ## Depth and the priority order (R92, R118) -/

theorem before_asymm {nodes : List Node} {i j : Nat} (h : before nodes i j = true) : ¬ before nodes j i = true :=
  fun h' => absurd (before_trans h h') (by simp)

section
variable {nodes : List Node} {q : List Nat} {total : Nat}

/-- Of two Internal nodes the one created first took both its children before the other took any. -/
theorem OrderInv.childOf_before_childOf (h : OrderInv nodes q) {i j : Nat} {n m : Node} (hij : i < j)
    (hn : nodes[i]? = some n) (hk : n.kind = .internal) (hm : nodes[j]? = some m) (hk' : m.kind = .internal)
    (d e : Digit) : before nodes (childOf n d).toNat (childOf m e).toNat = true := by
  have hleft : before nodes (childOf n d).toNat m.left.toNat = true := by
    have hright := h.merges i n hn hk j m hij hm hk'
    cases d
    · exact before_trans (h.children i n hn hk) hright
    · exact hright
  cases e
  · exact hleft
  · exact before_trans hleft (h.children j m hm hk')

/-- Children that left the queue in one order have parents in the same order. -/
theorem OrderInv.not_before_of_childOf (h : OrderInv nodes q) (hw : WeightInv total nodes q) {i j : Nat} {n m : Node}
    (hn : nodes[i]? = some n) (hk : n.kind = .internal) (hm : nodes[j]? = some m) (hk' : m.kind = .internal)
    {d e : Digit} (hde : ¬ before nodes (childOf n d).toNat (childOf m e).toNat = true) : ¬ before nodes i j = true := by
  intro hij
  rcases lt_trichotomy i j with hlt | rfl | hgt
  · exact hde (h.childOf_before_childOf hlt hn hk hm hk' d e)
  · simp at hij
  · refine before_asymm hij (before_of_le_of_lt ?_ hgt)
    rw [weightAt_of_getElem? hm, weightAt_of_getElem? hn]
    exact h.weight_le hw hgt hm hk' hn hk

end

section
variable {f : FreqTable} {t : HuffTree} {q : List Nat} {total : Nat} (h : TreeOk f t.nodes t.root)
include h

/-- A child comes before its parent: it is no heavier and has the lower index. -/
theorem TreeOk.childOf_before {i : Nat} {n : Node} (hn : t.nodes[i]? = some n) (hk : n.kind = .internal) {d : Digit}
    (hd : childOf n d ≠ Config.none) : before t.nodes (childOf n d).toNat i = true := by
  refine before_of_le_of_lt ?_ (h.childOf_lt hn hd)
  obtain ⟨hweight, -⟩ := h.internalWeight n (List.mem_of_getElem? hn) hk
  rw [weightAt_of_getElem? hn, hweight]
  cases d
  · exact Nat.le_add_right _ _
  · exact Nat.le_add_left _ _

/-- Every entry below ROOT comes before ROOT. -/
theorem PathTo.childOf_before_root {p : List Digit} {i : NodeIdx} (hp : PathTo t p i) {n : Node} {d : Digit}
    (hn : t.nodes[i.toNat]? = some n) (hk : n.kind = .internal) (hd : childOf n d ≠ Config.none) :
    before t.nodes (childOf n d).toNat t.root.toNat = true := by
  induction hp generalizing n d with
  | root => exact h.childOf_before hn hk hd
  | child _ hn' hk' hd' ih => exact before_trans (h.childOf_before hn hk hd) (ih hn' hk' hd')

/-- The later a node comes in the order of R92, the less deep it stands: with the nodes go their parents. -/
theorem PathTo.length_le_of_not_before (ho : OrderInv t.nodes q) (hw : WeightInv total t.nodes q) {p p' : List Digit}
    {i i' : NodeIdx} (hp : PathTo t p i) (hp' : PathTo t p' i') (hii' : ¬ before t.nodes i.toNat i'.toNat = true) :
    p.length ≤ p'.length := by
  induction hp generalizing p' i' with
  | root => exact Nat.zero_le _
  | child hparent hn hk hd ih =>
    cases hp' with
    | root => exact absurd (hparent.childOf_before_root h hn hk hd) hii'
    | child hparent' hn' hk' hd' =>
      have := ih hparent' (ho.not_before_of_childOf hw hn hk hn' hk' hii')
      simp only [List.length_append, List.length_singleton]
      omega

end

/-- A symbol with a code is present, and its leaf, at the end of the code, weighs its count (R23 a, R113). -/
theorem exists_pathTo_of_codesFor {f : FreqTable} (hf : LegalTable f) {x : Symbol} {ds : List Digit}
    (hx : codesFor f x = some ds) : freqAt f x ≠ 0 ∧
      ∃ j, PathTo (build f) ds j ∧ weightAt (build f).nodes j.toNat = (freqAt f x).toNat := by
  obtain ⟨j, n, hj, hn, hk, rfl⟩ := ((codesFor_eq_some_iff hf).1 hx).exists_pathTo (build_treeOk hf)
  have hmem := List.mem_of_getElem? hn
  refine ⟨?_, j, hj, ?_⟩
  · obtain ⟨s, hs, rfl⟩ := List.mem_map.1 (mem_leaves_of_mem_build hmem hk)
    exact mem_presentSymbols.1 hs
  · rw [weightAt_of_getElem? hn, (build_treeOk hf).leafWeight n hmem hk]

theorem two_le_presentCount {f : FreqTable} {x y : Symbol} (hx : freqAt f x ≠ 0) (hy : freqAt f y ≠ 0) (hne : x ≠ y) :
    2 ≤ presentCount f := by
  have hsub : [x, y] ⊆ presentSymbols f :=
    List.cons_subset.2 ⟨mem_presentSymbols.2 hx, List.cons_subset.2 ⟨mem_presentSymbols.2 hy, List.nil_subset _⟩⟩
  exact (List.subperm_of_subset (by simpa using hne) hsub).length_le

/-- Settles O60: the lighter leaf leaves the queue first. -/
theorem moreFrequentSymbolsHaveNoLongerCodes : Obligations.MoreFrequentSymbolsHaveNoLongerCodes := by
  unfold Obligations.MoreFrequentSymbolsHaveNoLongerCodes
  intro f hf x y dx dy hx hy hlt
  obtain ⟨hx0, i, hi, hwi⟩ := exists_pathTo_of_codesFor hf hx
  obtain ⟨hy0, j, hj, hwj⟩ := exists_pathTo_of_codesFor hf hy
  have hne : x ≠ y := fun e => absurd hlt (by simp [e])
  obtain ⟨q, hw, ho⟩ := build_orderInv hf (two_le_presentCount hx0 hy0 hne)
  refine hi.length_le_of_not_before (build_treeOk hf) ho hw hj fun hij => ?_
  have := weightAt_le_of_before hij
  omega

end Sys2Proof.Machine

/-! PROOFS. The transactions of the Bit Packer: PACK_BEGIN, PUSHP and PACK_END one by one. -/

namespace Sys2Proof.Machine

/-! ## The digit loop (R30, R133) -/

theorem getLsbD_setAccBit_self (acc : BitVec 8) (n : BitVec 3) (d : Digit) :
    (setAccBit acc n d).getLsbD n.toNat = d := by
  have hn : n.toNat < 8 := n.isLt
  simp [setAccBit, hn, -BitVec.getLsbD_eq_getElem]

theorem getLsbD_setAccBit_of_lt (acc : BitVec 8) {n : BitVec 3} (d : Digit) {i : Nat} (hi : i < n.toNat) :
    (setAccBit acc n d).getLsbD i = acc.getLsbD i := by
  have hn : n.toNat < 8 := n.isLt
  have h8 : i < 8 := by omega
  simp [setAccBit, hi, h8, -BitVec.getLsbD_eq_getElem]

/-- The digits waiting in ACC are its low bits, the oldest in bit 0 (R30). -/
theorem accDigits_eq_lowBits (acc : BitVec 8) (n : BitVec 3) : accDigits acc n = lowBits acc n.toNat := rfl

@[simp] theorem lowBits_length (y : Byte) (k : Nat) : (lowBits y k).length = k := by simp [lowBits]

@[simp] theorem accDigits_length (acc : BitVec 8) (n : BitVec 3) : (accDigits acc n).length = n.toNat := by
  simp [accDigits_eq_lowBits]

@[simp] theorem CodeEntry.digits_length (e : CodeEntry) : e.digits.length = e.len.toNat := by simp [CodeEntry.digits]

/-- Writing a digit at ACC_N puts it behind those that wait. -/
theorem lowBits_setAccBit (acc : BitVec 8) (n : BitVec 3) (d : Digit) :
    lowBits (setAccBit acc n d) (n.toNat + 1) = accDigits acc n ++ [d] := by
  rw [lowBits, List.range_succ, List.map_append, List.map_singleton, getLsbD_setAccBit_self]
  exact congrArg (· ++ [d]) (List.map_congr_left fun i hi => getLsbD_setAccBit_of_lt acc d (List.mem_range.1 hi))

/-- The digit loop of R133 loses no digit: the bytes it emits, then ACC, hold what was waiting and what came. -/
theorem packDigits_digits : ∀ (ds : List Digit) (acc : BitVec 8) (n : BitVec 3),
    (packDigits ds acc n).out.flatMap (lowBits · 8) ++ accDigits (packDigits ds acc n).acc (packDigits ds acc n).accN =
      accDigits acc n ++ ds
  | [], acc, n => by simp [packDigits]
  | d :: ds, acc, n => by
    rw [packDigits]
    split
    · rename_i h7
      have hfull : lowBits (setAccBit acc n d) 8 = accDigits acc n ++ [d] := by
        rw [← lowBits_setAccBit, h7]; rfl
      rw [List.flatMap_cons, List.append_assoc, packDigits_digits ds, hfull]
      simp [accDigits]
    · rename_i h7
      rw [packDigits_digits ds, accDigits_eq_lowBits, toNat_add_one_of_ne h7, lowBits_setAccBit, List.append_assoc]
      rfl

theorem length_flatMap_lowBits (out : List Byte) : (out.flatMap (lowBits · 8)).length = 8 * out.length := by
  simp [List.length_flatMap, Nat.mul_comm]

/-- The digit loop emits a byte for every eight digits (R137). -/
theorem packDigits_out_length (ds : List Digit) (acc : BitVec 8) (n : BitVec 3) :
    (packDigits ds acc n).out.length = (n.toNat + ds.length) / 8 := by
  have hlen := congrArg List.length (packDigits_digits ds acc n)
  simp only [List.length_append, length_flatMap_lowBits, accDigits_length, packDigits_accN] at hlen
  omega

/-! ## PUSHP (R133 to R137) -/

theorem toNat_pbitcnt_packCode {e : CodeEntry} {s : State} (hfit : s.pbitcnt.toNat + e.len.toNat ≤ Config.bitcntMax) :
    (packCode e s).pbitcnt.toNat = s.pbitcnt.toNat + e.len.toNat := by
  have hlen := e.len.isLt
  rw [packCode_pbitcnt, BitVec.toNat_add, BitVec.toNat_setWidth]
  simp only [Config.bitcntMax] at hfit
  omega

section
variable {s : State} {v : Word} (he : s.err = .none)
include he

theorem exec_pushp_of_not_pack (hm : s.mode ≠ .pack) :
    exec (.pushp v) s = .next (raiseFault .badSeq (dataByte v) s) :=
  (whenUnfaulted_of_none _ he).trans (if_pos hm)

theorem exec_pushp_of_noCode (hm : s.mode = .pack) (hl : (codeAt s.code (dataByte v)).len = 0) :
    exec (.pushp v) s = .next (raiseFault .noCode (dataByte v) s) :=
  (whenUnfaulted_of_none _ he).trans ((if_neg (not_not.2 hm)).trans (if_pos hl))

theorem exec_pushp_of_overflow (hm : s.mode = .pack) (hl : (codeAt s.code (dataByte v)).len ≠ 0)
    (hc : s.pbitcnt.toNat + (codeAt s.code (dataByte v)).len.toNat > Config.bitcntMax) :
    exec (.pushp v) s = .next (raiseFault .countOvf (dataByte v) s) :=
  (whenUnfaulted_of_none _ he).trans ((if_neg (not_not.2 hm)).trans ((if_neg hl).trans (if_pos hc)))

theorem exec_pushp_of_fits (hm : s.mode = .pack) (hl : (codeAt s.code (dataByte v)).len ≠ 0)
    (hc : s.pbitcnt.toNat + (codeAt s.code (dataByte v)).len.toNat ≤ Config.bitcntMax) :
    exec (.pushp v) s = .next (packCode (codeAt s.code (dataByte v)) s) :=
  (whenUnfaulted_of_none _ he).trans ((if_neg (not_not.2 hm)).trans ((if_neg hl).trans (if_neg (not_lt.2 hc))))

end

/-- Settles O37: the digit loop keeps every digit, and the counts follow from the lengths. -/
theorem pushpAppendsTheCode : Obligations.PushpAppendsTheCode := by
  unfold Obligations.PushpAppendsTheCode
  intro s v he hm hl hc
  have hn := s.accN.isLt
  have hlen := (codeAt s.code (dataByte v)).len.isLt
  refine ⟨_, (packDigits (codeAt s.code (dataByte v)).digits s.acc s.accN).out, exec_pushp_of_fits he hm hl hc, rfl,
    toNat_pbitcnt_packCode hc, ?_, ?_, ?_, packDigits_digits _ _ _, packDigits_padded _ _ _⟩
  · rw [packDigits_out_length, CodeEntry.digits_length]; rfl
  · rw [packDigits_out_length, CodeEntry.digits_length]; omega
  · rw [packCode_accN, packDigits_accN, CodeEntry.digits_length]; rfl

/-- Settles O38: the three checks of PUSHP in their order. -/
theorem pushpRefusals : Obligations.PushpRefusals := by
  unfold Obligations.PushpRefusals
  exact fun s v he => ⟨exec_pushp_of_not_pack he, exec_pushp_of_noCode he, exec_pushp_of_overflow he⟩

/-! ## PACK_BEGIN and PACK_END (R131, R138) -/

section
variable {s : State} (he : s.err = .none)
include he

theorem exec_packBegin_of_idle (hm : s.mode = .idle) (hc : s.codeValid = true) :
    exec .packBegin s = .next { s with acc := 0, accN := 0, pbitcnt := 0, mode := .pack } :=
  (whenUnfaulted_of_none _ he).trans (by simp [hm, hc])

theorem exec_packBegin_of_refused (h : s.mode ≠ .idle ∨ s.codeValid = false) :
    exec .packBegin s = .next (raiseFault .badSeq 0x03#8 s) := by
  refine (whenUnfaulted_of_none _ he).trans ?_
  by_cases hm : s.mode ≠ .idle
  · exact if_pos hm
  · exact (if_neg hm).trans (if_pos (h.resolve_left hm))

theorem exec_packEnd_of_pack (hm : s.mode = .pack) :
    exec .packEnd s =
      .next (emitPout (if s.accN = 0 then [] else [s.acc]) { s with acc := 0, accN := 0, mode := .idle }) :=
  (whenUnfaulted_of_none _ he).trans (if_neg (not_not.2 hm))

theorem exec_packEnd_of_not_pack (hm : s.mode ≠ .pack) : exec .packEnd s = .next (raiseFault .badSeq 0x04#8 s) :=
  (whenUnfaulted_of_none _ he).trans (if_pos hm)

end

/-- Settles O36: a session opens, or one of the two checks fails. -/
theorem packBeginOpensASession : Obligations.PackBeginOpensASession := by
  unfold Obligations.PackBeginOpensASession
  exact ⟨by decide, fun s he => ⟨exec_packBegin_of_idle he, exec_packBegin_of_refused he⟩⟩

/-- Settles O39: the partial byte leaves when there is one. -/
theorem packEndClosesTheSession : Obligations.PackEndClosesTheSession := by
  unfold Obligations.PackEndClosesTheSession
  refine ⟨by decide, fun s he => ⟨fun hm hn => ?_, fun hm hn => ?_, exec_packEnd_of_not_pack he⟩⟩
  · have hne : s.accN ≠ 0 := fun h0 => by simp [h0] at hn
    rw [exec_packEnd_of_pack he hm, if_neg hne]; rfl
  · rw [exec_packEnd_of_pack he hm, if_pos hn, emitPout_nil]

/-! ## The bit count (R128) -/

/-- Settles O41: the digits of the codes are counted byte by byte, then gathered by symbol. -/
theorem bitCountIsTheSumOfCodeLengths : Obligations.BitCountIsTheSumOfCodeLengths := by
  unfold Obligations.BitCountIsTheSumOfCodeLengths
  intro bytes c
  have hbytes : (pack bytes c).2 = (bytes.map fun b => (codeAt c b).len.toNat).sum := by
    simp [pack, codeDigits, List.length_flatMap]
  refine ⟨hbytes, ?_⟩
  calc (pack bytes c).2
    _ = ∑ x ∈ bytes.toFinset, bytes.count x * (codeAt c x).len.toNat := by
        rw [hbytes, Finset.sum_list_map_count]; rfl
    _ = ∑ x ∈ allSymbols.toFinset, bytes.count x * (codeAt c x).len.toNat :=
        Finset.sum_subset (fun x _ => List.mem_toFinset.2 (mem_allSymbols x)) fun x _ hx => by
          rw [List.count_eq_zero_of_not_mem (hx ∘ List.mem_toFinset.2), Nat.zero_mul]
    _ = (allSymbols.map fun x => bytes.count x * (codeAt c x).len.toNat).sum := List.sum_toFinset _ allSymbols_nodup

end Sys2Proof.Machine

/-! PROOFS. Runs of offered transactions, and the transactions that may stand between those of a session. -/

namespace Sys2Proof.Machine

/-! ## Runs of offered transactions (R53) -/

theorem perform_pending {tx : Txn} {s t : State} (h : perform tx s = .next t) : t.pending = s.pending := by
  unfold perform at h
  split at h
  · cases exec_effect h <;> rfl
  · obtain ⟨-, rfl⟩ | ⟨-, rfl⟩ | ⟨-, -, -, rfl⟩ | ⟨-, -, -, rfl⟩ := performReject_next h <;> rfl

theorem run_succ_of_next {M : Host.Core} {n : Nat} {s t : M.State} (h : M.step s = .next t) :
    M.run (n + 1) s = M.run n t := by
  rw [Host.Core.run, h]

theorem runSteps_offering {n : Nat} {ts : List Txn} (h : ts.length = n) (s : State) :
    runSteps n (s.offering ts) = runTxns ts s := by
  rw [← h]; rfl

theorem runTxns_nil (s : State) : runTxns [] s = .next { s with pending := [] } := rfl

/-- A run performs its first transaction, the others waiting, and goes on from there. -/
theorem runTxns_cons {tx : Txn} {ts : List Txn} {s t : State}
    (h : perform tx { s with pending := ts.map .txn } = .next t) : runTxns (tx :: ts) s = runTxns ts t := by
  have hpend : { t with pending := ts.map .txn } = t := by
    have : t.pending = ts.map .txn := perform_pending h
    rw [← this]
  calc runTxns (tx :: ts) s
    _ = runSteps ts.length t := run_succ_of_next (M := Sys2Proof.core) h
    _ = runTxns ts t := congrArg (runSteps ts.length) hpend.symm

/-! ## Neutral transactions (R132, R150) -/

/-- With no fault a neutral transaction touches FREQ, UBITCNT and the words read, and nothing else. -/
theorem perform_neutral {tx : Txn} {s : State} (h : isNeutral tx = true) (he : s.err = .none) :
    ∃ f u r, perform tx s = .next { s with freq := f, ubitcnt := u, rdata := r } := by
  cases tx with
  | read a => exact ⟨s.freq, s.ubitcnt, _, perform_read a s⟩
  | write a v =>
    simp only [isNeutral, Bool.and_eq_true, bne_iff_ne] at h
    obtain ⟨⟨hcmd, hpin⟩, huin⟩ := h
    rw [perform, decode, decodeWrite, if_neg hcmd]
    by_cases hub : a = addrUbitcnt
    · exact ⟨s.freq, v, s.rdata, by rw [if_pos hub]; exact whenUnfaulted_of_none _ he⟩
    rw [if_neg hub, if_neg hpin, if_neg huin]
    by_cases hf : inFreqWindow a = true
    · exact ⟨_, s.ubitcnt, s.rdata, by rw [if_pos hf]; exact whenUnfaulted_of_none _ he⟩
    · exact ⟨s.freq, s.ubitcnt, s.rdata, by rw [if_neg hf]; rfl⟩

/-- Only a write to the register pushes a byte into it. -/
theorem exists_write_of_pushedByte {reg : Addr} {tx : Txn} {b : Byte} (h : pushedByte reg tx = some b) :
    ∃ v, tx = .write reg v ∧ dataByte v = b := by
  cases tx with
  | read a => cases h
  | write a v =>
    obtain ⟨rfl, hv⟩ := Option.ite_none_right_eq_some.1 h
    exact ⟨v, rfl, Option.some.inj hv⟩

end Sys2Proof.Machine

/-! PROOFS. The session law of the Bit Packer: PACK_BEGIN, PIN writes and PACK_END compute `pack`. -/

namespace Sys2Proof.Machine

/-! ## The payload, byte by byte (R126, R129, R130) -/

/-- What PACK_END emits of the digits waiting in ACC: the partial byte, if there is one (R138). -/
def partialByte (acc : BitVec 8) (n : BitVec 3) : List Byte := if n = 0 then [] else [acc]

theorem getD_lowBits (y : Byte) {k i : Nat} (hi : i < k) : (lowBits y k).getD i false = y.getLsbD i := by
  simp [lowBits, hi, -BitVec.getLsbD_eq_getElem]

theorem payloadByte_zero_eq {ds : List Digit} {y : Byte} (h : ∀ i < 8, ds.getD i false = y.getLsbD i) :
    payloadByte ds 0 = y :=
  BitVec.eq_of_getLsbD_eq fun i hi => by rw [getLsbD_payloadByte _ _ hi, Nat.mul_zero, Nat.zero_add, h i hi]

/-- Eight digits are the first byte, and the payload of the others follows. -/
theorem payloadOf_lowBits_append (y : Byte) (ds : List Digit) : payloadOf (lowBits y 8 ++ ds) = y :: payloadOf ds := by
  have hcount : ((lowBits y 8 ++ ds).length + 7) / 8 = (ds.length + 7) / 8 + 1 := by
    rw [List.length_append, lowBits_length]; omega
  have hfirst : payloadByte (lowBits y 8 ++ ds) 0 = y := payloadByte_zero_eq fun i hi => by
    rw [List.getD_append _ _ _ _ (by simpa using hi), getD_lowBits y hi]
  have hrest (k : Nat) : payloadByte (lowBits y 8 ++ ds) (k + 1) = payloadByte ds k := by
    have : 8 * (k + 1) = (lowBits y 8).length + 8 * k := by rw [lowBits_length]; omega
    rw [payloadByte, this, List.drop_length_add_append, payloadByte]
  rw [payloadOf, hcount, List.range_succ_eq_map, List.map_cons, hfirst, List.map_map]
  exact congrArg (y :: ·) (List.map_congr_left fun k _ => hrest k)

/-- The digits waiting in a padded ACC are the payload's partial byte (R129). -/
theorem payloadOf_accDigits {acc : BitVec 8} {n : BitVec 3} (hpad : AccPadded acc n) :
    payloadOf (accDigits acc n) = partialByte acc n := by
  have hlt : n.toNat < 8 := n.isLt
  by_cases hn : n = 0
  · simp [hn, payloadOf, partialByte]
  have hpos : n.toNat ≠ 0 := fun h0 => hn (BitVec.eq_of_toNat_eq h0)
  have hcount : ((accDigits acc n).length + 7) / 8 = 1 := by rw [accDigits_length]; omega
  have hbyte : payloadByte (accDigits acc n) 0 = acc := payloadByte_zero_eq fun i _ => by
    by_cases hi : i < n.toNat
    · exact getD_lowBits acc hi
    · rw [List.getD_eq_default _ _ (by simpa using hi), hpad i (not_lt.1 hi)]
  rw [payloadOf, hcount, List.range_one, List.map_singleton, hbyte, partialByte, if_neg hn]

/-- The payload of digits cut into whole bytes and a rest in ACC. -/
theorem payloadOf_flatMap_append {acc : BitVec 8} {n : BitVec 3} (hpad : AccPadded acc n) (out : List Byte) :
    payloadOf (out.flatMap (lowBits · 8) ++ accDigits acc n) = out ++ partialByte acc n := by
  induction out with
  | nil => exact payloadOf_accDigits hpad
  | cons y out ih => rw [List.flatMap_cons, List.append_assoc, payloadOf_lowBits_append, ih, List.cons_append]

/-! ## The invariant of a pack session (R132) -/

/-- `t` stands in the pack session that `s` opened, after the bytes `bytes`: their digits have left on POUT in whole bytes,
and the rest waits in ACC. -/
structure Packed (s : State) (bytes : List Byte) (t : State) : Prop where
  err : t.err = .none
  mode : t.mode = .pack
  code : t.code = s.code
  uout : t.uout = s.uout
  padded : AccPadded t.acc t.accN
  pbitcnt : t.pbitcnt.toNat = (codeDigits s.code bytes).length
  digits : ∃ out, t.pout = s.pout ++ out ∧ out.flatMap (lowBits · 8) ++ accDigits t.acc t.accN = codeDigits s.code bytes

theorem codeDigits_append (c : CodeTable) (bs bs' : List Byte) :
    codeDigits c (bs ++ bs') = codeDigits c bs ++ codeDigits c bs' := List.flatMap_append

theorem codeDigits_concat (c : CodeTable) (bs : List Byte) (b : Byte) :
    codeDigits c (bs ++ [b]) = codeDigits c bs ++ (codeAt c b).digits := by
  simp [codeDigits]

theorem length_codeDigits_concat (c : CodeTable) (bs : List Byte) (b : Byte) :
    (codeDigits c (bs ++ [b])).length = (codeDigits c bs).length + (codeAt c b).len.toNat := by
  simp [codeDigits_concat]

section
variable {s t : State} {bytes : List Byte}

/-- PACK_BEGIN opens the session (R131). -/
theorem perform_packBegin (he : s.err = .none) (hm : s.mode = .idle) (hc : s.codeValid = true) (rest : List Event) :
    ∃ t, perform (encode .packBegin) { s with pending := rest } = .next t ∧ Packed s [] t :=
  ⟨_, (perform_of_decode (decode_encode _) _).trans (exec_packBegin_of_idle he hm hc),
    he, rfl, rfl, rfl, fun i _ => by simp, rfl, [], (List.append_nil _).symm, rfl⟩

/-- The session does not look at what waits. -/
theorem Packed.withPending (h : Packed s bytes t) (rest : List Event) : Packed s bytes { t with pending := rest } :=
  { h with }

/-- A byte with a code adds its digits. -/
theorem Packed.packCode (h : Packed s bytes t) {b : Byte}
    (hfit : (codeDigits s.code (bytes ++ [b])).length ≤ Config.bitcntMax) :
    Packed s (bytes ++ [b]) (packCode (codeAt s.code b) t) := by
  rw [length_codeDigits_concat, ← h.pbitcnt] at hfit
  obtain ⟨out, hpout, hdigits⟩ := h.digits
  exact { h with
    padded := packDigits_padded _ _ _ h.padded
    pbitcnt := by rw [toNat_pbitcnt_packCode hfit, length_codeDigits_concat, h.pbitcnt]
    digits := ⟨out ++ (packDigits (codeAt s.code b).digits t.acc t.accN).out, by
        rw [packCode_pout, hpout, List.append_assoc], by
        rw [packCode_acc, packCode_accN, List.flatMap_append, List.append_assoc, packDigits_digits, ← List.append_assoc,
          hdigits, codeDigits_concat]⟩ }

/-- A PIN write of a byte with a code is packed while the count fits (R133). -/
theorem Packed.perform_pushed (h : Packed s bytes t) {tx : Txn} {b : Byte} (hb : pushedByte addrPin tx = some b)
    (hcode : (codeAt s.code b).len ≠ 0) (hfit : (codeDigits s.code (bytes ++ [b])).length ≤ Config.bitcntMax) :
    ∃ t', perform tx t = .next t' ∧ Packed s (bytes ++ [b]) t' := by
  obtain ⟨v, rfl, rfl⟩ := exists_write_of_pushedByte hb
  have hcount : t.pbitcnt.toNat + (codeAt t.code (dataByte v)).len.toNat ≤ Config.bitcntMax := by
    rw [h.pbitcnt, h.code, ← length_codeDigits_concat]
    exact hfit
  rw [← h.code] at hcode
  refine ⟨_, (perform_of_decode (decode_encode (.pushp v)) t).trans (exec_pushp_of_fits h.err h.mode hcode hcount), ?_⟩
  rw [h.code]
  exact h.packCode hfit

/-- A neutral transaction leaves the session where it is (R132). -/
theorem Packed.perform_neutral (h : Packed s bytes t) {tx : Txn} (hn : isNeutral tx = true) :
    ∃ t', perform tx t = .next t' ∧ Packed s bytes t' := by
  obtain ⟨f, u, r, hperform⟩ := Machine.perform_neutral hn h.err
  exact ⟨_, hperform, { h with }⟩

/-- The session law up to what stands behind the session's transactions: they are performed, and their bytes packed. -/
theorem Packed.run (ts us : List Txn) (h : Packed s bytes t)
    (hts : ∀ tx ∈ ts, isNeutral tx = true ∨ (pushedByte addrPin tx).isSome = true)
    (hcode : ∀ b ∈ ts.filterMap (pushedByte addrPin), (codeAt s.code b).len ≠ 0)
    (hfit : (codeDigits s.code (bytes ++ ts.filterMap (pushedByte addrPin))).length ≤ Config.bitcntMax) :
    ∃ t', runTxns (ts ++ us) t = runTxns us t' ∧ Packed s (bytes ++ ts.filterMap (pushedByte addrPin)) t' := by
  induction ts generalizing bytes t with
  | nil => exact ⟨t, rfl, by simpa using h⟩
  | cons tx ts ih =>
    rw [List.forall_mem_cons] at hts
    obtain ⟨htx, hts⟩ := hts
    have hwait := h.withPending ((ts ++ us).map .txn)
    cases hb : pushedByte addrPin tx with
    | none =>
      rw [List.filterMap_cons_none hb] at hcode hfit ⊢
      obtain ⟨t1, hperform, h1⟩ := hwait.perform_neutral (htx.resolve_right (by simp [hb]))
      rw [List.cons_append, runTxns_cons hperform]
      exact ih h1 hts hcode hfit
    | some b =>
      rw [List.filterMap_cons_some hb] at hcode hfit ⊢
      rw [List.forall_mem_cons] at hcode
      rw [List.append_cons] at hfit ⊢
      have hnow : (codeDigits s.code (bytes ++ [b])).length ≤ Config.bitcntMax := by
        rw [codeDigits_append, List.length_append] at hfit
        omega
      obtain ⟨t1, hperform, h1⟩ := hwait.perform_pushed hb hcode.1 hnow
      rw [List.cons_append, runTxns_cons hperform]
      exact ih h1 hts hcode.2 hfit

/-- What has left on POUT are the whole bytes of the payload so far, and ACC holds the digits after them (R207 b). -/
theorem Packed.payload_so_far (h : Packed s bytes t) :
    t.pout = s.pout ++ (pack bytes s.code).1.take (t.pbitcnt.toNat / 8) ∧
    accDigits t.acc t.accN = (codeDigits s.code bytes).drop (8 * (t.pbitcnt.toNat / 8)) := by
  obtain ⟨out, hpout, hdigits⟩ := h.digits
  have hlt : t.accN.toNat < 8 := t.accN.isLt
  have hout : t.pbitcnt.toNat / 8 = out.length := by
    rw [h.pbitcnt, ← hdigits, List.length_append, length_flatMap_lowBits, accDigits_length]; omega
  rw [hout, pack, ← hdigits, payloadOf_flatMap_append h.padded, List.take_left, List.drop_left' (length_flatMap_lowBits out)]
  exact ⟨hpout, rfl⟩

/-- PACK_END emits what the payload still lacks (R138). -/
theorem Packed.perform_packEnd (h : Packed s bytes t) : ∃ t', perform (encode .packEnd) t = .next t' ∧
    t'.err = .none ∧ t'.mode = .idle ∧ t'.code = s.code ∧ t'.uout = s.uout ∧
    t'.pout = s.pout ++ (pack bytes s.code).1 ∧ t'.pbitcnt.toNat = (pack bytes s.code).2 := by
  obtain ⟨out, hpout, hdigits⟩ := h.digits
  have hpayload : (pack bytes s.code).1 = out ++ partialByte t.acc t.accN := by
    rw [pack, ← hdigits, payloadOf_flatMap_append h.padded]
  refine ⟨_, (perform_of_decode (decode_encode _) t).trans (exec_packEnd_of_pack h.err h.mode), h.err, rfl, h.code, h.uout,
    ?_, h.pbitcnt⟩
  rw [hpayload, ← List.append_assoc, ← hpout]; rfl

end

/-- Settles O42: the session's invariant holds from PACK_BEGIN on, and PACK_END completes the payload. -/
theorem packSessionComputesPack : Obligations.PackSessionComputesPack := by
  unfold Obligations.PackSessionComputesPack
  intro s ts he hm hv hts hcode hfit
  have hsession (us : List Txn) : ∃ t, runTxns (encode .packBegin :: (ts ++ us)) s = runTxns us t ∧
      Packed s (ts.filterMap (pushedByte addrPin)) t := by
    obtain ⟨t0, hbegin, h0⟩ := perform_packBegin he hm hv ((ts ++ us).map .txn)
    rw [runTxns_cons hbegin]
    exact h0.run ts us hts hcode hfit
  constructor
  · obtain ⟨t, hrun, ht⟩ := hsession []
    rw [List.append_nil, runTxns_nil] at hrun
    obtain ⟨hpout, hacc⟩ := ht.payload_so_far
    exact ⟨_, (runSteps_offering rfl s).trans hrun, ⟨ht.mode, ht.err⟩, ht.code, ht.uout, ht.pbitcnt, hpout, hacc⟩
  · obtain ⟨t, hrun, ht⟩ := hsession [encode .packEnd]
    obtain ⟨t', hend, hfacts⟩ := (ht.withPending []).perform_packEnd
    exact ⟨_, (runSteps_offering (by simp) s).trans (hrun.trans (runTxns_cons hend)), hfacts⟩

end Sys2Proof.Machine

/-! PROOFS. The Bit Unpacker: UNPACK_BEGIN and PUSHU one by one, and `unpack` of a packed payload. -/

namespace Sys2Proof.Machine

/-! ## UNPACK_BEGIN and PUSHU (R151 to R155) -/

section
variable {s : State} (he : s.err = .none)
include he

theorem exec_unpackBegin_of_legal (hm : s.mode = .idle) (hc : legalCount s.ubitcnt = true) :
    exec .unpackBegin s =
      .next { s with urem := s.ubitcnt, mode := if s.ubitcnt = 0 then .idle else .unpack } :=
  (whenUnfaulted_of_none _ he).trans (by simp [hm, hc])

theorem exec_unpackBegin_of_not_idle (hm : s.mode ≠ .idle) :
    exec .unpackBegin s = .next (raiseFault .badSeq 0x05#8 s) :=
  (whenUnfaulted_of_none _ he).trans (if_pos hm)

theorem exec_unpackBegin_of_illegal (hm : s.mode = .idle) (hc : legalCount s.ubitcnt = false) :
    exec .unpackBegin s = .next (raiseFault .badCount 0x05#8 s) :=
  (whenUnfaulted_of_none _ he).trans (by simp [hm, hc])

theorem exec_pushu_of_unpack {v : Word} (hm : s.mode = .unpack) :
    exec (.pushu v) s = .next (deliverDigits (dataByte v) (min 8 s.urem.toNat) s) :=
  (whenUnfaulted_of_none _ he).trans (if_neg (not_not.2 hm))

theorem exec_pushu_of_not_unpack {v : Word} (hm : s.mode ≠ .unpack) :
    exec (.pushu v) s = .next (raiseFault .badSeq (dataByte v) s) :=
  (whenUnfaulted_of_none _ he).trans (if_pos hm)

end

theorem toNat_eq_zero_iff {v : Word} : v.toNat = 0 ↔ v = 0 := BitVec.toNat_inj (y := 0)

/-- PUSHU counts UREM down by the digits delivered. -/
theorem toNat_urem_deliverDigits (y : Byte) {k : Nat} {s : State} (hk : k ≤ s.urem.toNat) :
    (deliverDigits y k s).urem.toNat = s.urem.toNat - k := by
  have hlt := s.urem.isLt
  rw [deliverDigits_urem, BitVec.toNat_sub, BitVec.toNat_ofNat]
  omega

/-- In a session PUSHU leaves MODE = UNPACK while digits are still to come (R154). -/
theorem mode_deliverDigits_of_unpack (y : Byte) (k : Nat) {s : State} (hm : s.mode = .unpack) :
    (deliverDigits y k s).mode = if (deliverDigits y k s).urem = 0 then .idle else .unpack := by
  rw [deliverDigits_mode, hm, deliverDigits_urem]

/-- The low digits of the byte written are those of the word: DATA[31:8] is ignored (R43). -/
theorem lowBits_dataByte (v : Word) {k : Nat} (hk : k ≤ 8) : lowBits (dataByte v) k = (List.range k).map v.getLsbD :=
  List.map_congr_left fun i hi => by
    have hi8 : i < 8 := (List.mem_range.1 hi).trans_le hk
    rw [dataByte, BitVec.getLsbD_extractLsb', decide_eq_true hi8, Bool.true_and, Nat.zero_add]

/-- Settles O43: the two checks of UNPACK_BEGIN in their order, the second on bit 31 of UBITCNT. -/
theorem unpackBeginOpensASession : Obligations.UnpackBeginOpensASession := by
  unfold Obligations.UnpackBeginOpensASession
  refine ⟨by decide, fun s he => ⟨fun hm hc => ?_, exec_unpackBegin_of_not_idle he, fun hm hc => ?_⟩⟩
  · exact exec_unpackBegin_of_legal he hm (by rw [legalCount_eq_not_getLsbD, hc]; rfl)
  · exact exec_unpackBegin_of_illegal he hm (by rw [legalCount_eq_not_getLsbD, hc]; rfl)

/-- Settles O44: the digits, the count and the mode that `deliverDigits` leaves, or the check of MODE. -/
theorem pushuDeliversDigits : Obligations.PushuDeliversDigits := by
  unfold Obligations.PushuDeliversDigits
  refine fun s v => ⟨rfl, fun he => ⟨fun hm => ?_, exec_pushu_of_not_unpack he⟩⟩
  refine ⟨_, exec_pushu_of_unpack he hm, rfl, congrArg (s.uout ++ ·) (lowBits_dataByte v (min_le_left _ _)),
    toNat_urem_deliverDigits _ (min_le_right _ _), ?_⟩
  simp only [mode_deliverDigits_of_unpack _ _ hm, toNat_eq_zero_iff]

/-! ## The function `unpack` (R146, R148) -/

/-- A payload unpacks to the digits that stand in its bits. -/
theorem unpack_eq_of_digits {p : List Byte} {ds : List Digit}
    (h : ∀ j < ds.length, (p.getD (j / 8) 0).getLsbD (j % 8) = ds.getD j false) : unpack p ds.length = ds :=
  List.ext_getElem (by simp [unpack]) fun j _ hj => by
    simp only [unpack, List.getElem_map, List.getElem_range, h j hj, List.getD_eq_getElem _ _ hj]

/-- Settles O46: every payload with the digits of the packed one unpacks to them, the packed one among them. -/
theorem unpackInvertsPack : Obligations.UnpackInvertsPack := by
  unfold Obligations.UnpackInvertsPack
  intro bytes c
  obtain ⟨hlen, hall⟩ := payloadBitsAreTheDigits bytes c
  have hbits : ∀ j < (pack bytes c).2, ((pack bytes c).1.getD (j / 8) 0).getLsbD (j % 8) =
      (codeDigits c bytes).getD j false := fun j hj => hall j (by omega)
  exact ⟨unpack_eq_of_digits hbits, fun p _ hp => unpack_eq_of_digits fun j hj => (hp j hj).trans (hbits j hj)⟩

/-- One more byte adds its low digits behind those of the whole bytes before it. -/
theorem unpack_concat (bs : List Byte) (b : Byte) {k : Nat} (hk : k ≤ 8) :
    unpack (bs ++ [b]) (8 * bs.length + k) = unpack bs (8 * bs.length) ++ lowBits b k := by
  have hold : ∀ j ∈ List.range (8 * bs.length), (bs ++ [b]).getD (j / 8) 0 = bs.getD (j / 8) 0 := fun j hj =>
    List.getD_append _ _ _ _ (Nat.div_lt_of_lt_mul (List.mem_range.1 hj))
  have hnew : ∀ i ∈ List.range k, (8 * bs.length + i) / 8 = bs.length ∧ (8 * bs.length + i) % 8 = i := fun i hi => by
    rw [List.mem_range] at hi
    omega
  rw [unpack, List.range_add, List.map_append, List.map_map]
  congr 1
  · exact List.map_congr_left fun j hj => by rw [hold j hj]
  · refine List.map_congr_left fun i hi => ?_
    obtain ⟨hdiv, hmod⟩ := hnew i hi
    rw [Function.comp_apply, hdiv, hmod, List.getD_append_right _ _ _ _ le_rfl, Nat.sub_self, List.getD_cons_zero]

end Sys2Proof.Machine

/-! PROOFS. The session law of the Bit Unpacker: UNPACK_BEGIN and UIN writes compute `unpack`. -/

namespace Sys2Proof.Machine

/-! ## The invariant of an unpack session (R150) -/

/-- `t` stands in the unpack session that `s` opened, after the payload bytes `bytes`: the digits of `unpack` that they hold
have left on UOUT, UREM counts the others, and the session is open while there are others. -/
structure Unpacked (s : State) (bytes : List Byte) (t : State) : Prop where
  err : t.err = .none
  pout : t.pout = s.pout
  uout : t.uout = s.uout ++ unpack bytes (min s.ubitcnt.toNat (8 * bytes.length))
  urem : t.urem.toNat = s.ubitcnt.toNat - 8 * bytes.length
  mode : t.mode = if t.urem = 0 then .idle else .unpack

section
variable {s t : State} {bytes : List Byte}

/-- UNPACK_BEGIN opens the session (R152). -/
theorem perform_unpackBegin (he : s.err = .none) (hm : s.mode = .idle) (hc : legalCount s.ubitcnt = true)
    (rest : List Event) :
    ∃ t, perform (encode .unpackBegin) { s with pending := rest } = .next t ∧ Unpacked s [] t :=
  ⟨_, (perform_of_decode (decode_encode _) _).trans (exec_unpackBegin_of_legal he hm hc), he, rfl,
    by simp [unpack], rfl, rfl⟩

/-- The session does not look at what waits. -/
theorem Unpacked.withPending (h : Unpacked s bytes t) (rest : List Event) : Unpacked s bytes { t with pending := rest } :=
  { h with }

/-- UREM is 0 when the bytes hold all the digits asked for. -/
theorem Unpacked.urem_eq_zero_iff (h : Unpacked s bytes t) : t.urem = 0 ↔ s.ubitcnt.toNat ≤ 8 * bytes.length := by
  rw [← toNat_eq_zero_iff, h.urem, Nat.sub_eq_zero_iff_le]

/-- A byte that is still needed delivers its digits (R153). -/
theorem Unpacked.deliverDigits (h : Unpacked s bytes t) (hneed : 8 * bytes.length < s.ubitcnt.toNat)
    (hm : t.mode = .unpack) (b : Byte) :
    Unpacked s (bytes ++ [b]) (deliverDigits b (min 8 t.urem.toNat) t) := by
  have hlen : (bytes ++ [b]).length = bytes.length + 1 := List.length_append
  have hbefore : min s.ubitcnt.toNat (8 * bytes.length) = 8 * bytes.length := min_eq_right hneed.le
  have hafter : min s.ubitcnt.toNat (8 * (bytes ++ [b]).length) = 8 * bytes.length + min 8 t.urem.toNat := by
    rw [hlen, h.urem]; omega
  exact { h with
    uout := by rw [deliverDigits_uout, h.uout, hbefore, hafter, unpack_concat _ _ (min_le_left _ _), List.append_assoc]
    urem := by rw [toNat_urem_deliverDigits _ (min_le_right _ _), h.urem, hlen]; omega
    mode := mode_deliverDigits_of_unpack _ _ hm }

/-- A UIN write is delivered while its byte is needed. -/
theorem Unpacked.perform_pushed (h : Unpacked s bytes t) (hneed : 8 * bytes.length < s.ubitcnt.toNat) {tx : Txn} {b : Byte}
    (hb : pushedByte addrUin tx = some b) : ∃ t', perform tx t = .next t' ∧ Unpacked s (bytes ++ [b]) t' := by
  obtain ⟨v, rfl, rfl⟩ := exists_write_of_pushedByte hb
  have hm : t.mode = .unpack := h.mode.trans (if_neg fun h0 => hneed.not_ge (h.urem_eq_zero_iff.1 h0))
  exact ⟨_, (perform_of_decode (decode_encode (.pushu v)) t).trans (exec_pushu_of_unpack h.err hm),
    h.deliverDigits hneed hm _⟩

/-- A neutral transaction leaves the session where it is, a write of UBITCNT among them (R150). -/
theorem Unpacked.perform_neutral (h : Unpacked s bytes t) {tx : Txn} (hn : isNeutral tx = true) :
    ∃ t', perform tx t = .next t' ∧ Unpacked s bytes t' := by
  obtain ⟨f, u, r, hperform⟩ := Machine.perform_neutral hn h.err
  exact ⟨_, hperform, { h with }⟩

/-- One transaction of the session, which pushes a byte or none. -/
theorem Unpacked.perform (h : Unpacked s bytes t) {tx : Txn}
    (htx : isNeutral tx = true ∨ (pushedByte addrUin tx).isSome = true)
    (hfit : (bytes ++ (pushedByte addrUin tx).toList).length ≤ (s.ubitcnt.toNat + 7) / 8) :
    ∃ t', perform tx t = .next t' ∧ Unpacked s (bytes ++ (pushedByte addrUin tx).toList) t' := by
  cases hb : pushedByte addrUin tx with
  | none =>
    rw [Option.toList_none, List.append_nil]
    exact h.perform_neutral (htx.resolve_right (by simp [hb]))
  | some b =>
    rw [hb, Option.toList_some, List.length_append, List.length_singleton] at hfit
    exact h.perform_pushed (by omega) hb

/-- The session law up to what stands behind the session's transactions: they are performed, and their bytes unpacked. -/
theorem Unpacked.run (ts us : List Txn) (h : Unpacked s bytes t)
    (hts : ∀ tx ∈ ts, isNeutral tx = true ∨ (pushedByte addrUin tx).isSome = true)
    (hfit : (bytes ++ ts.filterMap (pushedByte addrUin)).length ≤ (s.ubitcnt.toNat + 7) / 8) :
    ∃ t', runTxns (ts ++ us) t = runTxns us t' ∧ Unpacked s (bytes ++ ts.filterMap (pushedByte addrUin)) t' := by
  induction ts generalizing bytes t with
  | nil => exact ⟨t, rfl, by simpa using h⟩
  | cons tx ts ih =>
    have hcons : bytes ++ (tx :: ts).filterMap (pushedByte addrUin) =
        bytes ++ (pushedByte addrUin tx).toList ++ ts.filterMap (pushedByte addrUin) := by
      simp [List.filterMap_eq_flatMap_toList]
    rw [hcons] at hfit ⊢
    rw [List.forall_mem_cons] at hts
    have hnow : (bytes ++ (pushedByte addrUin tx).toList).length ≤ (s.ubitcnt.toNat + 7) / 8 := by
      rw [List.length_append] at hfit; omega
    obtain ⟨t1, hperform, h1⟩ := (h.withPending ((ts ++ us).map .txn)).perform hts.1 hnow
    rw [List.cons_append, runTxns_cons hperform]
    exact ih h1 hts.2 hfit

end

/-- Settles O45: the session's invariant holds from UNPACK_BEGIN on, and it names the last byte needed. -/
theorem unpackSessionComputesUnpack : Obligations.UnpackSessionComputesUnpack := by
  unfold Obligations.UnpackSessionComputesUnpack
  intro s ts he hm hc hts hfit
  obtain ⟨t0, hbegin, h0⟩ := perform_unpackBegin he hm (decide_eq_true hc) (ts.map .txn)
  obtain ⟨t, hrun, ht⟩ := h0.run ts [] hts hfit
  rw [List.append_nil, runTxns_nil, ← runTxns_cons hbegin] at hrun
  rw [List.nil_append] at ht
  have hdone : t.urem = 0 ↔ (ts.filterMap (pushedByte addrUin)).length = (s.ubitcnt.toNat + 7) / 8 :=
    ht.urem_eq_zero_iff.trans (by omega)
  simp only [← hdone]
  refine ⟨_, (runSteps_offering rfl s).trans hrun, ht.err, ht.pout, ht.uout, ht.urem.trans (by omega), ht.mode, ?_⟩
  split
  case isTrue hzero => exact ⟨ht.mode.trans (if_pos hzero), hzero, ht.err⟩
  case isFalse hmore => exact ⟨ht.mode.trans (if_neg hmore), hmore, ht.err⟩

end Sys2Proof.Machine

/-! PROOFS. The host's two decoders invert the concatenation of codes. -/

namespace Sys2Proof.Machine

/-! ## Stored codes and the candidate buffer (R28, R163) -/

/-- The host reads a code where LEN is not 0 (R28). -/
theorem storedCode_of_len_ne_zero {c : CodeTable} {b : Symbol} (h : (codeAt c b).len ≠ 0) :
    storedCode c b = some (codeAt c b).digits := if_neg h

theorem storedCode_eq_some_iff {c : CodeTable} {x : Symbol} {ds : List Digit} :
    storedCode c x = some ds ↔ (codeAt c x).len ≠ 0 ∧ (codeAt c x).digits = ds := by
  simp [storedCode]

/-- Where no code begins another, the buffer names a symbol exactly when it is the symbol's code: "at most one" (R163). -/
theorem symbolOfCode_eq_some_iff {c : CodeTable} (hc : PrefixFree c) {buf : List Digit} {x : Symbol} :
    symbolOfCode c buf = some x ↔ storedCode c x = some buf := by
  have sound {y : Symbol} (h : symbolOfCode c buf = some y) : storedCode c y = some buf := by
    simpa using List.find?_some h
  refine ⟨sound, fun hx => ?_⟩
  cases hfind : symbolOfCode c buf with
  | none => simpa [hx] using List.find?_eq_none.1 hfind x (mem_allSymbols x)
  | some y =>
    by_contra hne
    exact hc x y buf buf (fun e => hne (by rw [e])) hx (sound hfind) List.prefix_rfl

/-- Where no code begins another, a part of a code that stops short of its end names no symbol. -/
theorem symbolOfCode_eq_none_of_append {c : CodeTable} (hc : PrefixFree c) {b : Symbol} {buf ds : List Digit}
    (hb : storedCode c b = some (buf ++ ds)) (hds : ds ≠ []) : symbolOfCode c buf = none := by
  rw [Option.eq_none_iff_forall_ne_some]
  intro x hx
  rw [symbolOfCode_eq_some_iff hc] at hx
  by_cases hxb : x = b
  · rw [hxb, hb, Option.some.injEq] at hx
    exact hds (List.append_right_eq_self.1 hx)
  · exact hc x b _ _ hxb hx hb (List.prefix_append buf ds)

/-! ## The decoder over the code table (R163) -/

/-- With a part of the code of `b` in the buffer, the decoder reads the rest, answers `b` and starts again. -/
theorem decodeFrom_code {c : CodeTable} (hc : PrefixFree c) {b : Symbol} (rest : List Digit) :
    ∀ {ds buf : List Digit}, storedCode c b = some (buf ++ ds) → ds ≠ [] →
      decodeFrom c (ds ++ rest) buf = (b :: (decodeFrom c rest []).1, (decodeFrom c rest []).2)
  | [d], buf, hb, _ => by
    rw [List.singleton_append, decodeFrom, (symbolOfCode_eq_some_iff hc).2 hb]
  | d :: e :: ds, buf, hb, _ => by
    rw [List.append_cons] at hb
    rw [List.cons_append, decodeFrom, symbolOfCode_eq_none_of_append hc hb (List.cons_ne_nil e ds)]
    exact decodeFrom_code hc rest hb (List.cons_ne_nil e ds)

theorem codeDigits_cons (c : CodeTable) (b : Byte) (bs : List Byte) :
    codeDigits c (b :: bs) = (codeAt c b).digits ++ codeDigits c bs := List.flatMap_cons

/-- A code that is there has a digit. -/
theorem CodeEntry.digits_ne_nil {e : CodeEntry} (h : e.len ≠ 0) : e.digits ≠ [] := fun hnil =>
  h (BitVec.eq_of_toNat_eq (by rw [← e.digits_length, hnil]; rfl))

/-- Settles O55, byte by byte. -/
theorem decoderRecoversTheBytes : Obligations.DecoderRecoversTheBytes := by
  unfold Obligations.DecoderRecoversTheBytes
  intro c bytes hc hcode
  induction bytes with
  | nil => rfl
  | cons b bs ih =>
    obtain ⟨hb, hbs⟩ := List.forall_mem_cons.1 hcode
    rw [decodeDigits] at ih ⊢
    rw [codeDigits_cons, decodeFrom_code hc _ (storedCode_of_len_ne_zero hb) (CodeEntry.digits_ne_nil hb), ih hbs]

/-! ## The decoder over the tree (R164) -/

/-- A path to a leaf starts at the leaf when it is empty, and at an inner node otherwise. -/
theorem LeadsTo.leaf_or_internal {a : Arena} {i : NodeIdx} {ds : List Digit} {x : Symbol} (h : LeadsTo a i ds x) :
    ∃ n, nodeAt a i = some n ∧ (ds = [] ∧ n.kind = .leaf ∧ n.sym = x ∨ ds ≠ [] ∧ n.kind = .internal) := by
  cases ds with
  | nil =>
    obtain ⟨n, hn, hk, hs⟩ := h
    exact ⟨n, hn, .inl ⟨rfl, hk, hs⟩⟩
  | cons d ds =>
    obtain ⟨n, hn, hk, -⟩ := leadsTo_cons_iff.1 h
    exact ⟨n, hn, .inr ⟨List.cons_ne_nil d ds, hk⟩⟩

/-- From an inner node the decoder follows a path to its leaf, answers the leaf's symbol and starts again at ROOT. -/
theorem treeDecodeFrom_path {f : FreqTable} {t : HuffTree} (h : TreeOk f t.nodes t.root) (rest : List Digit) {x : Symbol} :
    ∀ {ds : List Digit} {i : NodeIdx}, i.toNat < t.nodes.length → LeadsTo (arenaOf t.nodes) i ds x → ds ≠ [] →
      treeDecodeFrom t (ds ++ rest) i = (treeDecodeFrom t rest t.root).map (x :: ·)
  | d :: ds, i, hi, hx, _ => by
    obtain ⟨n, hn, -, hd, hx⟩ := leadsTo_cons_iff.1 hx
    rw [nodeAt_arenaOf_of_lt hi h.size] at hn
    have hchild := (h.childOf_lt hn hd).trans hi
    obtain ⟨m, hm, hkind⟩ := hx.leaf_or_internal
    rw [nodeAt_arenaOf_of_lt hchild h.size] at hm
    rw [List.cons_append, treeDecodeFrom, hn]
    simp only [hm]
    obtain ⟨rfl, hk, rfl⟩ | ⟨hne, hk⟩ := hkind
    · rw [hk]
      rfl
    · rw [hk]
      exact treeDecodeFrom_path h rest hchild hx hne

/-- A symbol that is counted has a code (R113). -/
theorem exists_codesFor {f : FreqTable} (hf : LegalTable f) {x : Symbol} (hx : freqAt f x ≠ 0) :
    ∃ ds, codesFor f x = some ds := by
  have hone := (build_treeOk hf).countP_treeCodes x
  rw [if_neg hx] at hone
  obtain ⟨⟨y, ds⟩, hmem, hy⟩ := List.countP_pos_iff.1 (hone ▸ Nat.one_pos)
  obtain rfl : y = x := by simpa using hy
  exact ⟨ds, codeOf_eq_some_of_mem hmem hone.le⟩

/-- A symbol that is counted has a code in the table, and its digits lead from ROOT to its leaf. -/
theorem tableFor_code {f : FreqTable} (hf : LegalTable f) {x : Symbol} (hx : freqAt f x ≠ 0) :
    (codeAt (tableFor f) x).len ≠ 0 ∧
      LeadsTo (arenaOf (build f).nodes) (build f).root (codeAt (tableFor f) x).digits x := by
  obtain ⟨ds, hds⟩ := exists_codesFor hf hx
  obtain ⟨hlen, rfl⟩ := storedCode_eq_some_iff.1 ((storedCode_tableFor hf x).trans hds)
  exact ⟨hlen, (codesFor_eq_some_iff hf).1 hds⟩

/-- Settles O56, byte by byte. -/
theorem treeWalkDecoderRecoversTheBytes : Obligations.TreeWalkDecoderRecoversTheBytes := by
  unfold Obligations.TreeWalkDecoderRecoversTheBytes
  intro f bytes hf hbytes
  have htree := build_treeOk hf
  rw [treeDecode]
  induction bytes with
  | nil => exact if_pos rfl
  | cons b bs ih =>
    obtain ⟨hb, hbs⟩ := List.forall_mem_cons.1 hbytes
    obtain ⟨hlen, hpath⟩ := tableFor_code hf hb
    obtain ⟨j, -, hj, -⟩ := hpath.exists_pathTo htree
    have hroot : (build f).root.toNat < (build f).nodes.length :=
      htree.root_lt fun hnil => by have := hj.lt htree; simp [hnil] at this
    rw [codeDigits_cons, treeDecodeFrom_path htree _ hroot hpath (CodeEntry.digits_ne_nil hlen), ih hbs]
    rfl

end Sys2Proof.Machine

/-! PROOFS. The frequency scan and the header record. -/

namespace Sys2Proof.Machine

/-! ## The scan (R160, R161) -/

theorem allSymbols_getElem_toNat (x : Symbol) (h : x.toNat < allSymbols.length) : allSymbols[x.toNat] = x := by
  rw [allSymbols_getElem, BitVec.ofNat_toNat, BitVec.setWidth_eq]

theorem freqAt_freqScan (bytes : List Byte) (x : Symbol) :
    freqAt (freqScan bytes) x = BitVec.ofNat 32 (symbolCount bytes x) := by
  simp only [freqAt, freqScan, Vector.getElem_mk, List.getElem_toArray, List.getElem_map, allSymbols_getElem_toNat]

theorem toNat_freqAt_freqScan {bytes : List Byte} {x : Symbol} (h : symbolCount bytes x ≤ Config.freqMax) :
    (freqAt (freqScan bytes) x).toNat = symbolCount bytes x := by
  rw [freqAt_freqScan, BitVec.toNat_ofNat]
  simp only [Config.freqMax] at h
  omega

/-- The counts of all symbols add up to the number of bytes. -/
theorem sum_symbolCount (bytes : List Byte) : (allSymbols.map (symbolCount bytes)).sum = bytes.length := by
  calc (allSymbols.map (symbolCount bytes)).sum
    _ = ∑ x ∈ allSymbols.toFinset, bytes.count x := (List.sum_toFinset _ allSymbols_nodup).symm
    _ = ∑ x ∈ bytes.toFinset, bytes.count x :=
        (Finset.sum_subset (fun x _ => List.mem_toFinset.2 (mem_allSymbols x)) fun x _ hx =>
          List.count_eq_zero_of_not_mem (hx ∘ List.mem_toFinset.2)).symm
    _ = bytes.length := List.sum_toFinset_count_eq_length bytes

/-- Settles O58: no count is cut off, and the counts add up to the length. -/
theorem scannedCountsSumToTheLength : Obligations.ScannedCountsSumToTheLength := by
  unfold Obligations.ScannedCountsSumToTheLength
  intro bytes hfit
  have hcount (x : Symbol) := toNat_freqAt_freqScan (hfit x)
  exact ⟨hcount, by simp only [freqSum, hcount, sum_symbolCount]⟩

/-! ## Lists cut into blocks of one length -/

/-- Block `k` of a list of blocks of length `n` stands at index `n * k`. -/
theorem take_drop_flatMap {α β : Type} {g : α → List β} {n : Nat} (hg : ∀ a, (g a).length = n) :
    ∀ {l : List α} {k : Nat} (hk : k < l.length), ((l.flatMap g).drop (n * k)).take n = g l[k]
  | a :: l, 0, _ => by rw [Nat.mul_zero, List.drop_zero, List.flatMap_cons, List.take_left' (hg a)]; rfl
  | a :: l, k + 1, hk => by
    have hskip : n * (k + 1) = (g a).length + n * k := by rw [hg, Nat.mul_succ, Nat.add_comm]
    rw [List.flatMap_cons, hskip, List.drop_length_add_append, take_drop_flatMap hg (Nat.lt_of_succ_lt_succ hk)]
    rfl

/-! ## The header record (R165, R167) -/

@[simp] theorem wordBytes_length (o : ByteOrder) (v : Word) : (wordBytes o v).length = 4 := by cases o <;> rfl

/-- Neighbouring fields of a word are one field. The places stand as arguments, since `rw` does not split numerals. -/
theorem extractLsb'_append_at {w m : Nat} (x : BitVec w) (i k n : Nat) (h : i = k + n) :
    x.extractLsb' i m ++ x.extractLsb' k n = x.extractLsb' k (m + n) :=
  BitVec.extractLsb'_append_extractLsb'_eq_extractLsb' h

/-- The bytes of an integer, put together in the order they were cut, are the integer. -/
theorem append_extractLsb'_bytes (v : Word) :
    v.extractLsb' 24 8 ++ v.extractLsb' 16 8 ++ v.extractLsb' 8 8 ++ v.extractLsb' 0 8 = v := by
  rw [extractLsb'_append_at v 24 16 8 rfl, extractLsb'_append_at v 16 8 8 rfl, extractLsb'_append_at v 8 0 8 rfl]
  exact BitVec.extractLsb'_eq_self

theorem bytesWords_wordBytes_append (o : ByteOrder) (v : Word) (rest : List Byte) :
    bytesWords o (wordBytes o v ++ rest) = v :: bytesWords o rest := by
  cases o <;> exact congrArg (· :: _) (append_extractLsb'_bytes v)

theorem bytesWords_flatMap_wordBytes (o : ByteOrder) : ∀ vs : List Word, bytesWords o (vs.flatMap (wordBytes o)) = vs
  | [] => rfl
  | v :: vs => by rw [List.flatMap_cons, bytesWords_wordBytes_append, bytesWords_flatMap_wordBytes]

theorem headerBytes_length (o : ByteOrder) (c : Word) (f : FreqTable) : (headerBytes o c f).length = 1028 := by
  simp only [headerBytes, List.length_flatMap, wordBytes_length, List.map_const', List.sum_replicate, List.length_cons,
    List.length_map, allSymbols_length, smul_eq_mul]

/-- A table is given by its entries. -/
theorem freqTable_ext {f g : FreqTable} (h : ∀ x, freqAt f x = freqAt g x) : f = g :=
  Vector.ext fun i hi => by
    simpa [freqAt, Nat.mod_eq_of_lt hi] using h (BitVec.ofNat 8 i)

theorem parseHeader_headerBytes (o : ByteOrder) (c : Word) (f : FreqTable) :
    parseHeader o (headerBytes o c f) = some (c, f) := by
  rw [parseHeader, if_pos (headerBytes_length o c f), headerBytes, bytesWords_flatMap_wordBytes]
  simp only [List.length_map, allSymbols_length, dite_true, Option.some.injEq, Prod.mk.injEq, true_and]
  refine freqTable_ext fun x => ?_
  simp only [freqAt, Vector.getElem_mk, List.getElem_toArray, List.getElem_map, allSymbols_getElem_toNat]

/-- Settles O57. -/
theorem headerReadsBack : Obligations.HeaderReadsBack := by
  unfold Obligations.HeaderReadsBack
  intro o c f
  have hblock {k : Nat} (hk : k < (c :: allSymbols.map (freqAt f)).length) :
      ((headerBytes o c f).drop (4 * k)).take 4 = wordBytes o (c :: allSymbols.map (freqAt f))[k] :=
    take_drop_flatMap (wordBytes_length o) hk
  refine ⟨fun v => ⟨wordBytes_length o v, fun k hk => ?_⟩, headerBytes_length o c f, hblock (k := 0) (by simp),
    fun x => ?_, parseHeader_headerBytes o c f⟩
  · interval_cases k <;> exact ⟨rfl, rfl⟩
  · have hx : x.toNat + 1 < (c :: allSymbols.map (freqAt f)).length := by
      rw [List.length_cons, List.length_map, allSymbols_length]; exact Nat.succ_lt_succ x.isLt
    rw [Nat.add_comm, ← Nat.mul_succ, hblock hx]
    simp only [List.getElem_cons_succ, List.getElem_map, allSymbols_getElem_toNat]

end Sys2Proof.Machine

/-! PROOFS. Runs in parts: the block does not look at what waits, and what a run of writes or of reads does to the words
read. -/

namespace Sys2Proof.Machine

/-! ## What waits does not matter (R53) -/

/-- A result with other transactions waiting. -/
def withWaiting (p : List Event) : Result → Result
  | .next t => .next { t with pending := p }
  | .fault r => .fault r
  | .refused r => .refused r

theorem exec_withWaiting (i : Instr) (s : State) (p : List Event) :
    exec i { s with pending := p } = withWaiting p (exec i s) := by
  cases i with
  | build =>
    simp only [exec, execBuild, whenUnfaulted, apply_ite (withWaiting p)]
    cases firstBadFreq s.freq <;> rfl
  | derive | packBegin | packEnd | unpackBegin | pushp | pushu | wrubc | wrfreq =>
    simp only [exec, execDerive, execPackBegin, execPackEnd, execUnpackBegin, execPushp, execPushu, execWrubc, execWrfreq,
      whenUnfaulted, apply_ite (withWaiting p)]
    rfl
  | _ => rfl

theorem perform_withWaiting (tx : Txn) (s : State) (p : List Event) :
    perform tx { s with pending := p } = withWaiting p (perform tx s) := by
  unfold perform
  split
  · exact exec_withWaiting _ s p
  · rename_i r _
    cases r with
    | illegalCommand info => simp only [performReject, whenUnfaulted, apply_ite (withWaiting p)]; rfl
    | _ => rfl

/-! ## Runs in parts -/

/-- A run performs its first transaction and goes on from the state it leaves. -/
theorem runTxns_cons_of_perform {tx : Txn} {s t : State} (h : perform tx s = .next t) (ts : List Txn) :
    runTxns (tx :: ts) s = runTxns ts t :=
  (runTxns_cons (t := { t with pending := ts.map .txn }) (by rw [perform_withWaiting, h]; rfl)).trans rfl

theorem runTxns_cons_of_exec {i : Instr} {s t : State} (h : exec i s = .next t) (ts : List Txn) :
    runTxns (encode i :: ts) s = runTxns ts t :=
  runTxns_cons_of_perform ((perform_of_decode (decode_encode i) s).trans h) ts

/-- A run goes on from the state its first part leaves. -/
theorem runTxns_append {ts : List Txn} {s t : State} (h : runTxns ts s = .next t) (us : List Txn) :
    runTxns (ts ++ us) s = runTxns us t := by
  induction ts generalizing s with
  | nil => rw [eq_of_next h]; rfl
  | cons tx ts ih =>
    obtain ⟨t1, h1⟩ := perform_answers tx s
    rw [runTxns_cons_of_perform h1] at h
    rw [List.cons_append, runTxns_cons_of_perform h1]
    exact ih h

/-! ## The words read (R55) -/

theorem perform_growsStreams {tx : Txn} {s t : State} (h : perform tx s = .next t) : GrowsStreams tx s t := by
  unfold perform at h
  split at h
  · rename_i i hd
    exact encode_of_decode hd ▸ (exec_effect h).growsStreams
  · exact performReject_growsStreams ‹_› h

/-- A run without a read returns no word. -/
theorem rdata_of_runTxns {ts : List Txn} {s t : State} (hts : ∀ tx ∈ ts, ∀ a, tx ≠ .read a)
    (h : runTxns ts s = .next t) : t.rdata = s.rdata := by
  induction ts generalizing s with
  | nil => rw [eq_of_next h]
  | cons tx ts ih =>
    obtain ⟨htx, hts⟩ := List.forall_mem_cons.1 hts
    obtain ⟨t1, h1⟩ := perform_answers tx s
    rw [runTxns_cons_of_perform h1] at h
    rw [ih hts h]
    by_contra hne
    obtain ⟨a, ha⟩ := (perform_growsStreams h1).rdataBy hne
    exact htx a ha

/-- A run of reads returns the words of the register map and leaves the block as it is. -/
theorem runTxns_reads (as : List Addr) (s : State) : runTxns (as.map .read) s =
    .next { s with pending := [], rdata := s.rdata ++ as.map (portRead s.toBlock) } := by
  induction as generalizing s with
  | nil => simp [runTxns_nil]
  | cons a as ih =>
    rw [List.map_cons, runTxns_cons_of_perform (perform_read a s), ih]
    simp [respond]

theorem runTxns_append_reads {ts : List Txn} {s t : State} (h : runTxns ts s = .next t) (as : List Addr) :
    runTxns (ts ++ as.map .read) s =
      .next { t with pending := [], rdata := t.rdata ++ as.map (portRead t.toBlock) } :=
  (runTxns_append h _).trans (runTxns_reads as t)

end Sys2Proof.Machine

/-! PROOFS. The parts of the flows: the tables loaded and derived, the table read back, and the two sessions. -/

namespace Sys2Proof.Machine

/-! ## BUILD and DERIVE on a table loaded after CLR (R168, R169) -/

/-- Writing entries of `f` for a list of symbols gives these symbols their counts in `f`. -/
theorem freqAt_foldl_setFreqAt (f g : FreqTable) (xs : List Symbol) (x : Symbol) :
    freqAt (xs.foldl (fun g y => setFreqAt g y (freqAt f y)) g) x = if x ∈ xs then freqAt f x else freqAt g x := by
  induction xs generalizing g with
  | nil => rfl
  | cons y xs ih =>
    rw [List.foldl_cons, ih]
    by_cases hxy : x = y
    · simp [hxy]
    · simp [hxy, freqAt_setFreqAt_of_ne]

theorem runTxns_wrfreq (f : FreqTable) (xs : List Symbol) (us : List Txn) {s : State} (he : s.err = .none) :
    runTxns (xs.map (fun x => encode (.wrfreq x (freqAt f x))) ++ us) s =
      runTxns us { s with freq := xs.foldl (fun g y => setFreqAt g y (freqAt f y)) s.freq } := by
  induction xs generalizing s with
  | nil => rfl
  | cons x xs ih =>
    rw [List.map_cons, List.cons_append, runTxns_cons_of_exec (i := .wrfreq x _) (whenUnfaulted_of_none _ he)]
    exact ih he

/-- Loading writes the whole table, whatever it held (R162). -/
theorem runTxns_loadTable (f : FreqTable) (us : List Txn) {s : State} (he : s.err = .none) :
    runTxns (loadTable f ++ us) s = runTxns us { s with freq := f } := by
  have hload : allSymbols.foldl (fun g y => setFreqAt g y (freqAt f y)) s.freq = f :=
    freqTable_ext fun x => by rw [freqAt_foldl_setFreqAt, if_pos (mem_allSymbols x)]
  rw [loadTable, runTxns_wrfreq f _ us he, hload]

/-- The state after the first part of both flows: `f` is loaded, and its Code Table derived. -/
def withTables (f : FreqTable) (s : State) : State :=
  installCodes (tableFor f) (installTree (build f) (presentCount f) { clearBlock s with freq := f })

/-- CLR, the 256 counts, BUILD and DERIVE, in any state. -/
theorem runTxns_tables {f : FreqTable} (hf : LegalTable f) (s : State) (us : List Txn) :
    runTxns ([encode .clr] ++ loadTable f ++ [encode .build, encode .derive] ++ us) s = runTxns us (withTables f s) := by
  simp only [List.append_assoc, List.cons_append, List.nil_append]
  rw [runTxns_cons_of_exec (i := .clr) rfl, runTxns_loadTable f _ rfl,
    runTxns_cons_of_exec (exec_build_of_legal rfl rfl (firstBadFreq_eq_none_iff.2 hf)),
    runTxns_cons_of_exec (exec_derive_of_tree rfl rfl rfl)]
  rfl

/-! ## The Code Table read back (R46, R169) -/

/-- The nine words read of a Code Table entry. -/
def entryWords (e : CodeEntry) : List Word := (List.range 9).map fun w => codeEntryWord e (BitVec.ofNat 4 w)

theorem extractLsb'_setWidth_byte (b : Byte) : (b.setWidth 32).extractLsb' 0 8 = b := by
  rw [BitVec.extractLsb'_setWidth_of_le (by decide), BitVec.extractLsb'_eq_self]

theorem append_extractLsb'_words (b : CodeBits) :
    b.extractLsb' 224 32 ++ b.extractLsb' 192 32 ++ b.extractLsb' 160 32 ++ b.extractLsb' 128 32 ++ b.extractLsb' 96 32 ++
      b.extractLsb' 64 32 ++ b.extractLsb' 32 32 ++ b.extractLsb' 0 32 = b := by
  rw [extractLsb'_append_at b 224 192 32 rfl, extractLsb'_append_at b 192 160 32 rfl,
    extractLsb'_append_at b 160 128 32 rfl, extractLsb'_append_at b 128 96 32 rfl, extractLsb'_append_at b 96 64 32 rfl,
    extractLsb'_append_at b 64 32 32 rfl, extractLsb'_append_at b 32 0 32 rfl]
  exact BitVec.extractLsb'_eq_self

theorem entryOfWords_entryWords (e : CodeEntry) : entryOfWords (entryWords e) = e :=
  congrArg₂ CodeEntry.mk (extractLsb'_setWidth_byte e.len) (append_extractLsb'_words e.bits)

theorem codeTable_ext {c d : CodeTable} (h : ∀ x, codeAt c x = codeAt d x) : c = d :=
  Vector.ext fun i hi => by
    simpa [codeAt, Nat.mod_eq_of_lt hi] using h (BitVec.ofNat 8 i)

theorem codeAt_tableOfWords (ws : List Word) (x : Symbol) :
    codeAt (tableOfWords ws) x = entryOfWords ((ws.drop (9 * x.toNat)).take 9) := by
  simp [codeAt, tableOfWords]

theorem tableOfWords_entryWords (c : CodeTable) :
    tableOfWords (allSymbols.flatMap fun x => entryWords (codeAt c x)) = c := by
  refine codeTable_ext fun x => ?_
  have hx : x.toNat < allSymbols.length := by simpa using x.isLt
  rw [codeAt_tableOfWords, take_drop_flatMap (fun _ => by simp [entryWords]) hx, allSymbols_getElem_toNat,
    entryOfWords_entryWords]

/-- The addresses of the reads of the Code Table. -/
def entryAddrs (x : Symbol) : List Addr := (List.range 9).map fun w => codeAddr x (BitVec.ofNat 4 w)

theorem flatMap_readEntry : allSymbols.flatMap readEntry = (allSymbols.flatMap entryAddrs).map .read := by
  simp only [List.map_flatMap, entryAddrs, List.map_map]
  rfl

theorem map_portRead_entryAddrs (b : Block) :
    (allSymbols.flatMap entryAddrs).map (portRead b) = allSymbols.flatMap fun x => entryWords (codeAt b.code x) := by
  simp only [List.map_flatMap, entryAddrs, entryWords, List.map_map, Function.comp_def, portRead_codeAddr]

/-- The first part of the decompress flow returns the words of the derived table. -/
theorem runTxns_tableTxns {f : FreqTable} (hf : LegalTable f) (s : State) : runTxns (tableTxns f) s =
    .next { withTables f s with
      pending := [], rdata := s.rdata ++ allSymbols.flatMap fun x => entryWords (codeAt (tableFor f) x) } := by
  rw [tableTxns, runTxns_tables hf, flatMap_readEntry, runTxns_reads, map_portRead_entryAddrs]
  rfl

/-! ## The sessions (R132, R150) -/

/-- Writes of bytes to a register push these bytes into it. -/
theorem filterMap_pushedByte_map (reg : Addr) (bytes : List Byte) :
    (bytes.map fun b => Txn.write reg (b.setWidth 32)).filterMap (pushedByte reg) = bytes := by
  simp only [List.filterMap_map, Function.comp_def, pushedByte, if_true, dataByte, extractLsb'_setWidth_byte]
  exact List.filterMap_some

/-- Such writes belong to a session, and none of them reads. -/
theorem pushes_of_mem_map {reg : Addr} {bytes : List Byte} {tx : Txn}
    (h : tx ∈ bytes.map fun b => Txn.write reg (b.setWidth 32)) :
    (isNeutral tx = true ∨ (pushedByte reg tx).isSome = true) ∧ ∀ a, tx ≠ .read a := by
  obtain ⟨b, -, rfl⟩ := List.mem_map.1 h
  simp [pushedByte]

/-- The pack session of the compress flow. -/
theorem runTxns_pack {s : State} {bytes : List Byte} (he : s.err = .none) (hm : s.mode = .idle) (hv : s.codeValid = true)
    (hcode : ∀ b ∈ bytes, (codeAt s.code b).len ≠ 0) (hfit : (pack bytes s.code).2 ≤ 0x7FFFFFFF) :
    ∃ t, runTxns (encode .packBegin :: pushpText bytes ++ [encode .packEnd]) s = .next t ∧ t.err = .none ∧
      t.rdata = s.rdata ∧ t.pout = s.pout ++ (pack bytes s.code).1 ∧ t.pbitcnt.toNat = (pack bytes s.code).2 := by
  have hpush : (pushpText bytes).filterMap (pushedByte addrPin) = bytes := filterMap_pushedByte_map addrPin bytes
  obtain ⟨-, t, hrun, herr, -, -, -, hpout, hcount⟩ := packSessionComputesPack s (pushpText bytes) he hm hv
    (fun tx htx => (pushes_of_mem_map htx).1) (hpush.symm ▸ hcode) (hpush.symm ▸ hfit)
  rw [hpush] at hpout hcount
  replace hrun := (runSteps_offering (by simp) s).symm.trans hrun
  refine ⟨t, hrun, herr, rdata_of_runTxns (fun tx htx a => ?_) hrun, hpout, hcount⟩
  simp only [List.cons_append, List.mem_cons, List.mem_append, List.not_mem_nil, or_false] at htx
  obtain rfl | htx | rfl := htx
  · simp [encode]
  · exact (pushes_of_mem_map htx).2 a
  · simp [encode]

/-- The unpack session of the decompress flow, with as many payload bytes as the bit count needs. -/
theorem runTxns_unpack {s : State} {data : List Byte} (he : s.err = .none) (hm : s.mode = .idle)
    (hc : s.ubitcnt.toNat ≤ 0x7FFFFFFF) (hlen : data.length = (s.ubitcnt.toNat + 7) / 8) :
    ∃ t, runTxns (encode .unpackBegin :: pushuAll data) s = .next t ∧ t.err = .none ∧ t.mode = .idle ∧
      t.rdata = s.rdata ∧ t.uout = s.uout ++ unpack data s.ubitcnt.toNat := by
  have hpush : (pushuAll data).filterMap (pushedByte addrUin) = data := filterMap_pushedByte_map addrUin data
  obtain ⟨t, hrun, herr, -, huout, -, hmode, -⟩ := unpackSessionComputesUnpack s (pushuAll data) he hm hc
    (fun tx htx => (pushes_of_mem_map htx).1) (hpush.symm ▸ hlen.le)
  rw [hpush, min_eq_left (by omega)] at huout
  rw [hpush, if_pos hlen] at hmode
  replace hrun := (runSteps_offering List.length_cons s).symm.trans hrun
  refine ⟨t, hrun, herr, hmode, rdata_of_runTxns (fun tx htx a => ?_) hrun, huout⟩
  obtain rfl | htx := List.mem_cons.1 htx
  · simp [encode]
  · exact (pushes_of_mem_map htx).2 a

end Sys2Proof.Machine

/-! PROOFS. The compress and decompress flows, and the round trip. -/

namespace Sys2Proof.Machine

/-! ## The checks of STATUS (R37, R168, R169) -/

theorem statusNoErr_statusWord {b : Block} (h : b.err = .none) : statusNoErr (statusWord b) = true := by
  have h1 := b.treeValid.toNat_lt
  have h2 := b.codeValid.toNat_lt
  have h3 := (modeBits b.mode).isLt
  have h4 := b.empty.toNat_lt
  have h5 := b.single.toNat_lt
  have hv := statusWord_toNat b
  rw [h, show (errBits .none).toNat = 0 from rfl] at hv
  exact beq_iff_eq.2 (BitVec.eq_of_toNat_eq (extractLsb'_toNat_of_div_mod (m := 0) (by omega)))

theorem statusIdle_statusWord {b : Block} (h : b.mode = .idle) : statusIdle (statusWord b) = true := by
  have h1 := b.treeValid.toNat_lt
  have h2 := b.codeValid.toNat_lt
  have hv := statusWord_toNat b
  rw [h, show (modeBits .idle).toNat = 0 from rfl] at hv
  exact beq_iff_eq.2 (BitVec.eq_of_toNat_eq (extractLsb'_toNat_of_div_mod (m := 0) (by omega)))

/-! ## What each flow answers when its checks hold (R168, R169, R170) -/

section
variable {o : ByteOrder} {bytes data payload : List Byte} {f : FreqTable} {c v : Word} {s t : State}

theorem compress_of_runTxns (hfit : countsFit bytes = true) (hrun : runTxns (compressTxns bytes) s = .next t)
    (hrdata : t.rdata = s.rdata ++ [c, v]) (hok : statusNoErr v = true) (hpout : t.pout = s.pout ++ payload) :
    compress o (some bytes) s = .ok (⟨headerBytes o c (freqScan bytes), payload⟩, t) := by
  rw [compress, if_pos hfit, hrun]
  simp only [hrdata, hpout, List.drop_left, hok, if_true]

theorem unpackAndDecode_of_runTxns {table : CodeTable} {ds : List Digit}
    (hrun : runTxns (unpackTxns c data) s = .next t) (hrdata : t.rdata = s.rdata ++ [v]) (hok : statusNoErr v = true)
    (hidle : statusIdle v = true) (huout : t.uout = s.uout ++ ds) (hdecode : decodeDigits table ds = (bytes, []))
    (hlen : bytes.length = freqSum f) : unpackAndDecode c f table data s = .ok (bytes, t) := by
  rw [unpackAndDecode, hrun]
  simp only [hrdata, huout, List.drop_left, hok, hidle, hdecode, hlen, Bool.and_self, and_self, if_true]

/-- The tables are loaded, derived and read back, whatever the block's state was; the rest is the second part's answer. -/
theorem decompress_headerBytes (hf : LegalTable f) (hc : c.toNat ≤ Config.bitcntMax)
    (hdata : data.length = (c.toNat + 7) / 8) (hlen : encodedLength f (tableFor f) = c.toNat) :
    ∃ t, t.err = .none ∧ t.mode = .idle ∧
      decompress o (some (headerBytes o c f)) (some data) s = unpackAndDecode c f (tableFor f) data t := by
  have hlegal : (legalCount c && allSymbols.all fun x => legalCount (freqAt f x)) = true := by
    rw [Bool.and_eq_true, List.all_eq_true]
    exact ⟨decide_eq_true hc, fun x _ => decide_eq_true (hf x)⟩
  refine ⟨{ withTables f s with
    pending := [], rdata := s.rdata ++ allSymbols.flatMap fun x => entryWords (codeAt (tableFor f) x) }, rfl, rfl, ?_⟩
  rw [decompress, parseHeader_headerBytes]
  simp only [hlegal, hdata, if_true, runTxns_tableTxns hf, List.drop_left, tableOfWords_entryWords, hlen]

end

/-! ## Inputs the format can carry (R161) -/

/-- The Code Table both flows derive for an input. -/
abbrev inputTable (bytes : List Byte) : CodeTable := tableFor (freqScan bytes)

section
variable {bytes : List Byte} (h : WithinFormat bytes)
include h

theorem WithinFormat.toNat_freqAt (x : Symbol) : (freqAt (freqScan bytes) x).toNat = bytes.count x :=
  toNat_freqAt_freqScan (h.1 x)

theorem WithinFormat.legalTable : LegalTable (freqScan bytes) := fun x => (h.toNat_freqAt x).trans_le (h.1 x)

theorem WithinFormat.countsFit : countsFit bytes = true := List.all_eq_true.2 fun x _ => decide_eq_true (h.1 x)

/-- Each byte of the input is counted, so it has a code. -/
theorem WithinFormat.code {b : Byte} (hb : b ∈ bytes) : (codeAt (inputTable bytes) b).len ≠ 0 := by
  have hpos : 0 < (freqAt (freqScan bytes) b).toNat := by
    rw [h.toNat_freqAt]
    exact List.count_pos_iff.2 hb
  exact (tableFor_code h.legalTable fun h0 => by simp [h0] at hpos).1

/-- The compress flow succeeds: its artifacts are the header of the bit count and the counts, and the payload of `pack`. -/
theorem WithinFormat.compress (o : ByteOrder) (s : State) : ∃ (c : Word) (t : State),
    c.toNat = (pack bytes (inputTable bytes)).2 ∧
      compress o (some bytes) s = .ok (⟨headerBytes o c (freqScan bytes), (pack bytes (inputTable bytes)).1⟩, t) := by
  obtain ⟨t, hpack, herr, hrdata, hpout, hcount⟩ := runTxns_pack (s := withTables (freqScan bytes) s) rfl rfl rfl
    (fun b hb => h.code hb) h.2
  have htxns : compressTxns bytes = [encode .clr] ++ loadTable (freqScan bytes) ++ [encode .build, encode .derive] ++
      (encode .packBegin :: pushpText bytes ++ [encode .packEnd] ++ [addrPbitcnt, addrStatus].map .read) := by
    simp [compressTxns, encode]
  have hrun := (runTxns_tables h.legalTable s _).trans (runTxns_append_reads hpack [addrPbitcnt, addrStatus])
  rw [← htxns] at hrun
  have hwords : t.rdata ++ [addrPbitcnt, addrStatus].map (portRead t.toBlock) =
      s.rdata ++ [t.pbitcnt, statusWord t.toBlock] := by
    rw [hrdata]
    rfl
  exact ⟨_, _, hcount, compress_of_runTxns h.countsFit hrun hwords (statusNoErr_statusWord herr) hpout⟩

/-- The second part of the decompress flow unpacks the payload and decodes its digits. -/
theorem WithinFormat.unpackAndDecode {c : Word} (hc : c.toNat = (pack bytes (inputTable bytes)).2) {s : State}
    (he : s.err = .none) (hm : s.mode = .idle) :
    ∃ t, unpackAndDecode c (freqScan bytes) (inputTable bytes) (pack bytes (inputTable bytes)).1 s = .ok (bytes, t) := by
  obtain ⟨hlen, -⟩ := payloadBitsAreTheDigits bytes (inputTable bytes)
  rw [← hc] at hlen
  obtain ⟨t, hunpack, herr, hmode, hrdata, huout⟩ := runTxns_unpack (s := { s with ubitcnt := c }) he hm
    (hc.trans_le h.2) hlen
  have hrun := (runTxns_cons_of_exec (i := .wrubc c) (whenUnfaulted_of_none _ he) _).trans
    (runTxns_append_reads hunpack [addrStatus])
  have hwords : t.rdata ++ [addrStatus].map (portRead t.toBlock) = s.rdata ++ [statusWord t.toBlock] := by
    rw [hrdata]
    rfl
  have hdecode : decodeDigits (inputTable bytes) (unpack (pack bytes (inputTable bytes)).1 c.toNat) = (bytes, []) := by
    rw [hc, (unpackInvertsPack bytes (inputTable bytes)).1]
    exact decoderRecoversTheBytes _ bytes (derivedTableIsPrefixFree _ h.legalTable) fun b hb => h.code hb
  exact ⟨_, unpackAndDecode_of_runTxns hrun hwords (statusNoErr_statusWord herr) (statusIdle_statusWord hmode) huout
    hdecode (scannedCountsSumToTheLength bytes h.1).2.symm⟩

/-- The decompress flow of what the compress flow writes gives the input back. -/
theorem WithinFormat.decompress (o : ByteOrder) {c : Word} (hc : c.toNat = (pack bytes (inputTable bytes)).2) (s : State) :
    ∃ t, decompress o (some (headerBytes o c (freqScan bytes))) (some (pack bytes (inputTable bytes)).1) s =
      .ok (bytes, t) := by
  have hdata : (pack bytes (inputTable bytes)).1.length = (c.toNat + 7) / 8 := by
    rw [(payloadBitsAreTheDigits bytes _).1, hc]
  have hlen : encodedLength (freqScan bytes) (inputTable bytes) = c.toNat := by
    simp only [encodedLength, h.toNat_freqAt, hc, (bitCountIsTheSumOfCodeLengths bytes _).2]
  obtain ⟨t, herr, hmode, hflow⟩ := decompress_headerBytes (o := o) (s := s) h.legalTable (hc.trans_le h.2) hdata hlen
  rw [hflow]
  exact h.unpackAndDecode hc herr hmode

end

/-- Settles O59: each flow succeeds, and the second reads what the first wrote. -/
theorem decompressInvertsCompress : Obligations.DecompressInvertsCompress := by
  unfold Obligations.DecompressInvertsCompress
  intro o bytes h s1 s2
  obtain ⟨c, t1, hc, hcompress⟩ := h.compress o s1
  obtain ⟨t2, hdecompress⟩ := h.decompress o hc s2
  exact ⟨_, t1, t2, hcompress, hdecompress⟩

end Sys2Proof.Machine

/-! PROOFS. Register access: transactions that change nothing, and the plain reads and writes of the register port. -/

namespace Sys2Proof.Machine

/-! ## Transactions that change nothing (R57, R188, R201) -/

theorem perform_of_reject {t : Txn} {r : Reject} (h : decode t = .error r) (s : State) :
    perform t s = performReject r s := by
  rw [perform, h]

/-- Quiescence by instruction: while ERR is not 0, what is neither CLR nor a read has no effect. -/
theorem Effect.eq_of_faulted {s t : State} {i : Instr} (h : Effect s i t) (he : s.err ≠ .none) (hclr : i ≠ .clr)
    (hwrite : ∀ a, encode i ≠ .read a) : t = s := by
  cases h with
  | ignored => rfl
  | read v isRead => exact absurd isRead (hwrite _)
  | clr => exact absurd rfl hclr
  | _ => exact absurd ‹s.err = .none› he

theorem performReject_of_faulted {r : Reject} {s : State} (he : s.err ≠ .none) (hr : r ≠ .noOperationRead) :
    performReject r s = .next s := by
  cases r with
  | noOperationRead => exact absurd rfl hr
  | noOperationWrite => rfl
  | illegalCommand info => exact whenUnfaulted_of_fault _ he

/-- Quiescence by transaction: while ERR is not 0, a write other than that of CLR changes nothing. -/
theorem perform_write_of_faulted {s : State} (he : s.err ≠ .none) {a : Addr} {v : Word}
    (hclr : ¬ (a = addrCmd ∧ v = 0x00000006)) : perform (.write a v) s = .next s := by
  cases hd : decode (.write a v) with
  | ok i =>
    have henc : encode i = .write a v := encode_of_decode hd
    obtain ⟨t, ht⟩ := exec_answers i s
    have hkeep : t = s := by
      refine (exec_effect ht).eq_of_faulted he ?_ fun b hb => by simp [hb] at henc
      rintro rfl
      cases henc
      exact hclr ⟨rfl, rfl⟩
    rw [perform_of_decode hd, ht, hkeep]
  | error r =>
    rw [perform_of_reject hd]
    refine performReject_of_faulted he ?_
    rintro rfl
    obtain ⟨b, hb⟩ := isRead_of_decode_noOperationRead hd
    cases hb

/-- A write to a read-only or reserved address changes nothing. -/
theorem step_of_noOperationWrite {s : State} {rest : List Event} {a : Addr} {v : Word}
    (hp : s.pending = .txn (.write a v) :: rest)
    (ha : a.toNat = 1 ∨ a.toNat = 2 ∨ a.toNat = 4 ∨ 0x1000 ≤ a.toNat ∨ reservedAddr a) :
    step s = .next { s with pending := rest } := by
  obtain ⟨-, hrejected, -⟩ := undecodedTransactionsAreNamed (.write a v)
  rw [step_of_txn hp, perform_of_reject (hrejected.2 ⟨a, v, rfl, ha⟩)]
  rfl

/-- Settles O9: a read answers the port's word, 0 where nothing is mapped; a write is rejected or ignored. -/
theorem noOperationsChangeNothing : Obligations.NoOperationsChangeNothing := by
  unfold Obligations.NoOperationsChangeNothing
  refine fun s rest a v => ⟨fun hp ha => ?_, step_of_noOperationWrite, fun he hp hclr => ?_, fun _ hp => ?_⟩
  · rw [step_of_txn hp, perform_read, portRead_unmapped _ ha]
    rfl
  · rw [step_of_txn hp]
    exact perform_write_of_faulted (s := { s with pending := rest }) he hclr
  · rw [step_of_txn hp, perform_read]
    rfl

/-! ## The FREQ window (R45, R182, R183) -/

theorem toNat_eq_freqAddr_iff {a : Addr} {x : Symbol} : a.toNat = 0x100 + x.toNat ↔ a = freqAddr x := by
  rw [← freqAddr_toNat, BitVec.toNat_inj]

theorem freqAt_setFreqAt (f : FreqTable) (x y : Symbol) (v : Word) :
    freqAt (setFreqAt f x v) y = if y = x then v else freqAt f y := by
  split
  · subst y
    exact freqAt_setFreqAt_self f x v
  · exact freqAt_setFreqAt_of_ne f v ‹_›

theorem freqAddr_inj {x y : Symbol} : freqAddr x = freqAddr y ↔ x = y :=
  ⟨fun h => by simpa using congrArg freqWindowSym h, congrArg freqAddr⟩

/-- An entry of FREQ shows at its own address of the port and at no other. -/
theorem portRead_setFreqAt (b : Block) (x : Symbol) (v : Word) (a : Addr) :
    portRead { b with freq := setFreqAt b.freq x v } a = if a = freqAddr x then v else portRead b a := by
  by_cases hw : inFreqWindow a = true
  · rw [← freqAddr_freqWindowSym hw]
    simp only [portRead_freqAddr, freqAt_setFreqAt, freqAddr_inj]
  · have hne : a ≠ freqAddr x := by
      rintro rfl
      exact hw (inFreqWindow_freqAddr x)
    simp only [portRead, if_neg hw, if_neg hne]
    rfl

theorem exec_wrfreq {s : State} (he : s.err = .none) (x : Symbol) (v : Word) :
    exec (.wrfreq x v) s = .next { s with freq := setFreqAt s.freq x v } :=
  whenUnfaulted_of_none _ he

/-- A stored word with bit 31 set is what BUILD reports, when it is the only one. -/
theorem firstBadFreq_setFreqAt {f : FreqTable} {x : Symbol} {v : Word} (hv : v.getLsbD 31 = true)
    (hothers : ∀ y, y ≠ x → (freqAt f y).getLsbD 31 = false) : firstBadFreq (setFreqAt f x v) = some x := by
  refine firstBadFreq_eq_some (by rwa [freqAt_setFreqAt_self]) fun y hlt => ?_
  have hne : y ≠ x := fun h => hlt.ne (congrArg BitVec.toNat h)
  rw [freqAt_setFreqAt_of_ne _ _ hne, hothers y hne]

/-- Settles O20: the entry is stored, the port shows it at one address, and a later BUILD checks it. -/
theorem wrfreqStoresOneEntry : Obligations.WrfreqStoresOneEntry := by
  unfold Obligations.WrfreqStoresOneEntry
  refine fun s x v => ⟨fun a ha => ?_, fun he => ?_, whenUnfaulted_of_fault _⟩
  · rw [toNat_eq_freqAddr_iff.1 ha]
    exact decode_encode (.wrfreq x v)
  · refine ⟨_, exec_wrfreq he x v, rfl, (freqAt_setFreqAt s.freq x · v), fun a => ?_, fun hm hv hothers => ?_⟩
    · simp only [toNat_eq_freqAddr_iff]
      exact portRead_setFreqAt s.toBlock x v a
    · exact exec_build_of_bad (s := { s with freq := setFreqAt s.freq x v }) he hm (firstBadFreq_setFreqAt hv hothers)

/-- Settles O21: the read answers the entry, which after WRFREQ is the word written. -/
theorem rdfreqReturnsTheEntry : Obligations.RdfreqReturnsTheEntry := by
  unfold Obligations.RdfreqReturnsTheEntry
  refine fun s x => ⟨fun a ha => ?_, rfl, fun v t he ht => ?_⟩
  · rw [toNat_eq_freqAddr_iff.1 ha]
    exact decode_encode (.rdfreq x)
  · obtain rfl := eq_of_next ((exec_wrfreq he x v).symm.trans ht)
    exact congrArg (fun w => Host.Outcome.next (respond w _)) (freqAt_setFreqAt_self s.freq x v)

/-! ## The counts (R184, R186) -/

/-- Settles O18: the reads by definition, and neither address takes a write. -/
theorem rdpbcRduremReturnTheCounts : Obligations.RdpbcRduremReturnTheCounts := by
  unfold Obligations.RdpbcRduremReturnTheCounts
  refine fun s => ⟨rfl, rfl, fun a v rest ha hp => step_of_noOperationWrite hp ?_⟩
  obtain rfl | rfl := ha
  · exact .inr (.inl rfl)
  · exact .inr (.inr (.inl rfl))

/-- Settles O19: the write is quiescence's two cases, and UNPACK_BEGIN makes the check of the count. -/
theorem ubitcntReadWrite : Obligations.UbitcntReadWrite := by
  unfold Obligations.UbitcntReadWrite
  refine fun s v => ⟨decode_encode (.wrubc v), rfl, whenUnfaulted_of_none _, whenUnfaulted_of_fault _, rfl,
    fun he hm hv => ?_⟩
  exact exec_unpackBegin_of_illegal (s := { s with ubitcnt := v }) he hm (by rw [legalCount_eq_not_getLsbD, hv]; rfl)

end Sys2Proof.Machine

/-! PROOFS. Faults: while one stands only CLR and reset have an effect, taking one changes nothing else, and which one an
instruction takes. -/

namespace Sys2Proof.Machine

/-! ## While a fault stands (R201, R203, R204) -/

/-- Settles O47: CLR is performed whatever ERR is, any other write is dropped, and a read answers the port's word. -/
theorem faultedBlockIsQuiescent : Obligations.FaultedBlockIsQuiescent := by
  unfold Obligations.FaultedBlockIsQuiescent
  refine fun s rest he => ⟨fun hp => ?_, fun a v hp hclr => ?_, fun a hp => ?_⟩
  · rw [step_of_txn hp, perform_of_decode (i := .clr) rfl]
    rfl
  · rw [step_of_txn hp]
    exact perform_write_of_faulted (s := { s with pending := rest }) he hclr
  · rw [step_of_txn hp, perform_read]
    rfl

/-- An instruction that meets a standing fault leaves the whole block alone, or it is CLR. -/
theorem Effect.block_of_faulted {s t : State} {i : Instr} (h : Effect s i t) (he : s.err ≠ .none) :
    t.toBlock = s.toBlock ∨ (i = .clr ∧ t.toBlock = Block.reset) := by
  cases h with
  | ignored => exact .inl rfl
  | read => exact .inl rfl
  | clr => exact .inr ⟨rfl, rfl⟩
  | _ => exact absurd ‹s.err = .none› he

/-- A step that meets a standing fault leaves the whole block alone, or it is CLR or reset. -/
theorem step_block_of_faulted {s t : State} (h : step s = .next t) (he : s.err ≠ .none) :
    t.toBlock = s.toBlock ∨
    (t.toBlock = Block.reset ∧ ∃ rest, s.pending = .reset :: rest ∨ s.pending = .txn (encode .clr) :: rest) := by
  obtain ⟨-, rfl⟩ | ⟨rest, hp, rfl⟩ | ⟨i, rest, hp, heff⟩ | ⟨tx, r, rest, -, -, hr⟩ := step_cases h
  · exact .inl rfl
  · exact .inr ⟨rfl, rest, .inl hp⟩
  · obtain hkeep | ⟨rfl, hreset⟩ := heff.block_of_faulted he
    · exact .inl hkeep
    · exact .inr ⟨hreset, rest, .inr hp⟩
  · obtain hkeep | ⟨info, hnone, -⟩ := performReject_toBlock hr
    · exact .inl hkeep
    · exact absurd hnone he

/-- Settles O49: ERR and ERRINFO are part of the block that a step leaves alone or resets. -/
theorem aFaultStandsUntilClrOrReset : Obligations.AFaultStandsUntilClrOrReset := by
  unfold Obligations.AFaultStandsUntilClrOrReset
  intro s t he h
  obtain hkeep | hreset := step_block_of_faulted h he
  · exact .inl ⟨congrArg Block.err hkeep, congrArg Block.errinfo hkeep⟩
  · exact .inr hreset

/-! ## Fault entry (R200) -/

/-- An instruction after which ERR is newly set did nothing but take that fault. -/
theorem Effect.eq_raiseFault {s t : State} {i : Instr} (h : Effect s i t) (he : s.err = .none) (ht : t.err ≠ .none) :
    t = raiseFault t.err t.errinfo s := by
  cases h with
  | ignored faulted => exact absurd he faulted
  | fault => rfl
  | clr => exact absurd rfl ht
  | _ => exact absurd he ht

/-- Settles O48: an instruction or an illegal command word takes the fault; waiting, reset and the no-operations cannot. -/
theorem aFaultChangesOnlyErr : Obligations.AFaultChangesOnlyErr := by
  unfold Obligations.AFaultChangesOnlyErr
  intro s t he h ht
  obtain ⟨-, rfl⟩ | ⟨rest, -, rfl⟩ | ⟨i, rest, hp, heff⟩ | ⟨tx, r, rest, hp, -, hr⟩ := step_cases h
  · exact absurd he ht
  · exact absurd rfl ht
  · rw [hp]
    exact heff.eq_raiseFault he ht
  · obtain hkeep | ⟨info, -, rfl⟩ := performReject_toBlock hr
    · exact absurd ((congrArg Block.err hkeep).trans he) ht
    · rw [hp]
      rfl

/-! ## Which fault an instruction raises (R197, R198) -/

/-- Result `r` is what a list of checks, in order of precedence, makes of state `s`: the fault of the first that holds, or a
state without a fault. `raisesFirst_faultChecks` ties it to `exec` and the table of R197. -/
def RaisesFirst (checks : List (Bool × ErrCode × Byte)) (s : State) (r : Result) : Prop :=
  (∀ code info, (checks.find? (·.1)).map (·.2) = some (code, info) → r = .next (raiseFault code info s)) ∧
  ((checks.find? (·.1)).map (·.2) = none → ∃ t, r = .next t ∧ t.err = .none)

theorem raisesFirst_nil {s t : State} (ht : t.err = .none) : RaisesFirst [] s (.next t) :=
  ⟨nofun, fun _ => ⟨t, rfl, ht⟩⟩

/-- A check that fails raises its fault; one that passes leaves the result to the checks after it. -/
theorem raisesFirst_cons {p : Prop} [Decidable p] {b : Bool} (hb : b = true ↔ p) {code : ErrCode} {info : Byte}
    {checks : List (Bool × ErrCode × Byte)} {s : State} {r : Result} (h : RaisesFirst checks s r) :
    RaisesFirst ((b, code, info) :: checks) s (if p then .next (raiseFault code info s) else r) := by
  cases b with
  | true =>
    rw [if_pos (hb.1 rfl)]
    refine ⟨fun _ _ hfirst => ?_, nofun⟩
    cases hfirst
    rfl
  | false =>
    rw [if_neg (hb.not.1 Bool.false_ne_true)]
    exact h

/-- A check of two causes that raise the same fault. -/
theorem raisesFirst_cons_or {p q : Prop} [Decidable p] [Decidable q] {b : Bool} (hb : b = true ↔ p ∨ q) {code : ErrCode}
    {info : Byte} {checks : List (Bool × ErrCode × Byte)} {s : State} {r : Result} (h : RaisesFirst checks s r) :
    RaisesFirst ((b, code, info) :: checks) s
      (if p then .next (raiseFault code info s) else if q then .next (raiseFault code info s) else r) := by
  rw [← ite_or]
  exact raisesFirst_cons hb h

theorem raisesFirst_whenUnfaulted {checks : List (Bool × ErrCode × Byte)} {s : State} {r : Result} (he : s.err = .none)
    (h : RaisesFirst checks s r) : RaisesFirst checks s (whenUnfaulted s r) := by
  rwa [whenUnfaulted_of_none _ he]

/-- The frequency checks of the table find what BUILD's own check finds. -/
theorem find?_freqChecks (f : FreqTable) :
    ((allSymbols.map fun x => ((freqAt f x).getLsbD 31, ErrCode.badFreq, x)).find? (·.1)).map (·.2) =
      (firstBadFreq f).map (ErrCode.badFreq, ·) := by
  simp only [firstBadFreq, legalCount_eq_not_getLsbD, Bool.not_not, List.find?_map, Option.map_map, Function.comp_def]

/-- The frequency checks, one for each symbol, are BUILD's search for the lowest offending one. -/
theorem raisesFirst_freqChecks {s : State} {r : Result}
    (hbad : ∀ x, firstBadFreq s.freq = some x → r = .next (raiseFault .badFreq x s))
    (hlegal : firstBadFreq s.freq = none → ∃ t, r = .next t ∧ t.err = .none) :
    RaisesFirst (allSymbols.map fun x => ((freqAt s.freq x).getLsbD 31, .badFreq, x)) s r := by
  rw [RaisesFirst, find?_freqChecks, Option.map_eq_none_iff]
  refine ⟨fun code info hfirst => ?_, hlegal⟩
  obtain ⟨x, hx, hpair⟩ := Option.map_eq_some_iff.1 hfirst
  cases hpair
  exact hbad _ hx

/-- `exec` makes the checks of the fault table, in the table's order. -/
theorem raisesFirst_faultChecks (i : Instr) {s : State} (he : s.err = .none) :
    RaisesFirst (faultChecks i s) s (exec i s) := by
  cases i with
  | build =>
    refine raisesFirst_whenUnfaulted he (raisesFirst_cons bne_iff_ne (raisesFirst_freqChecks (fun x hx => ?_) fun hf => ?_))
    · rw [hx]
    · exact ⟨installTree (build s.freq) (presentCount s.freq) s, by rw [hf], he⟩
  | derive => exact raisesFirst_whenUnfaulted he (raisesFirst_cons_or (by simp) (raisesFirst_nil he))
  | packBegin => exact raisesFirst_whenUnfaulted he (raisesFirst_cons_or (by simp) (raisesFirst_nil he))
  | packEnd => exact raisesFirst_whenUnfaulted he (raisesFirst_cons bne_iff_ne (raisesFirst_nil he))
  | unpackBegin =>
    refine raisesFirst_whenUnfaulted he (raisesFirst_cons bne_iff_ne (raisesFirst_cons ?_ (raisesFirst_nil he)))
    rw [legalCount_eq_not_getLsbD, Bool.not_not]
  | clr => exact raisesFirst_nil rfl
  | pushp v =>
    exact raisesFirst_whenUnfaulted he (raisesFirst_cons bne_iff_ne (raisesFirst_cons beq_iff_eq
      (raisesFirst_cons decide_eq_true_iff (raisesFirst_nil he))))
  | pushu v => exact raisesFirst_whenUnfaulted he (raisesFirst_cons bne_iff_ne (raisesFirst_nil he))
  | wrubc v => exact raisesFirst_whenUnfaulted he (raisesFirst_nil he)
  | wrfreq x v => exact raisesFirst_whenUnfaulted he (raisesFirst_nil he)
  | _ => exact raisesFirst_nil he

/-- Settles O50: `exec` makes the checks of each instruction's row in their order. -/
theorem faultsFollowTheTable : Obligations.FaultsFollowTheTable := by
  unfold Obligations.FaultsFollowTheTable
  exact fun i _ he => raisesFirst_faultChecks i he

end Sys2Proof.Machine

/-! PROOFS. The two returns to the reset state: the reset input as an event of the queue, and CLR. -/

namespace Sys2Proof.Machine

/-! ## Reset and CLR clear the block alone (R189, R222, R223) -/

/-- A step that takes the reset input clears the block. -/
theorem step_of_reset {s : State} {rest : List Event} (h : s.pending = .reset :: rest) :
    step s = .next (clearBlock { s with pending := rest }) := by
  simp only [step, h, performReset_eq]

/-- CLR clears the block, whatever ERR and MODE are. -/
theorem exec_clr (s : State) : exec .clr s = .next (clearBlock s) := rfl

/-- Settles O11: the step clears the block, which holds neither the queue nor the histories. -/
theorem resetInputKeepsTheStreams : Obligations.ResetInputKeepsTheStreams := by
  unfold Obligations.ResetInputKeepsTheStreams
  intro s rest hp
  rw [step_of_reset hp, clearBlock]

/-- Settles O13: CLR clears the block, to the block that the reset state has. -/
theorem clrGivesTheResetState : Obligations.ClrGivesTheResetState := by
  unfold Obligations.ClrGivesTheResetState
  intro s
  rw [exec_clr, clearBlock, State.reset_toBlock]

end Sys2Proof.Machine

/-! PROOFS. The host's entry to the decoder, on the numbers of tuples. -/

namespace Sys2Proof.Machine

/-! ## Tuples given as numbers (R70, R84) -/

/-- The host's entry, given the number of a transaction's tuple, answers what the decoder does with that transaction. -/
theorem decodeTableWord_toBits (t : Txn) : decodeTableWord 46 t.toBits.toNat = (decode t).toOption := by
  have hlt := t.toBits.isLt
  have hbits : decodeBits (BitVec.ofNat 46 t.toBits.toNat) = decode t := by
    rw [BitVec.ofNat_toNat, BitVec.setWidth_eq, decodeBits, ofBits_toBits]
  simp only [decodeTableWord, Nat.mod_eq_of_lt hlt, if_pos hlt, hbits]
  cases decode t <;> rfl

theorem decodeTableWord_encodeBits (i : Instr) : decodeTableWord 46 (encodeBits i).toNat = some i := by
  rw [encodeBits, decodeTableWord_toBits, decode_encode, Except.toOption]

/-- The write of an illegal command word to CMD decodes to nothing (R75). -/
theorem decodeTableWord_of_illegalCommandWord {v : Word} (hv : illegalCommandWord v) :
    decodeTableWord 46 (Txn.write addrCmd v).toBits.toNat = none := by
  rw [decodeTableWord_toBits, decode, decodeWrite_cmd, decodeCommand_eq_error_iff.2 ⟨hv, rfl⟩, Except.toOption]

/-- Settles O5: nine of the numbers are the tuples the encoder writes, and the tenth writes an illegal command word. -/
theorem sampleWordsDecode : Obligations.SampleWordsDecode := by
  unfold Obligations.SampleWordsDecode
  have hillegal : illegalCommandWord 7 := .inr le_rfl
  exact ⟨decodeTableWord_encodeBits .build, decodeTableWord_encodeBits .unpackBegin,
    decodeTableWord_encodeBits (.pushp 0x141), decodeTableWord_encodeBits (.pushu 0xF7),
    decodeTableWord_encodeBits (.wrubc 9), decodeTableWord_encodeBits (.wrfreq 0xF0 0xFFFFFFFF),
    decodeTableWord_encodeBits (.rdfreq 0x61), decodeTableWord_encodeBits (.rdcode 0x62 1),
    decodeTableWord_encodeBits .rdstatus, decodeTableWord_of_illegalCommandWord hillegal⟩

end Sys2Proof.Machine
